-- ==== Sys2Proof/Word.lean ====
section
/-! DEFINITION. The machine's words: what the spec treats as bits. -/

namespace Sys2Proof

/-- A `u8` of the spec (`00_scope.md` R7). -/
abbrev Byte := BitVec 8

/-- A `u16` of the spec, used for PC and for CPU addresses (R7, `20_memory.md` R60). -/
abbrev Addr := BitVec 16

/-- A PPU address: 14 bits, 0x0000 to 0x3FFF (`20_memory.md` R61). -/
abbrev PpuAddr := BitVec 14

end Sys2Proof
end

