-- ==== Sys2Proof/Config.lean ====
section
/-! DEFINITION. What one configuration of the core fixes: the cartridge and the parameters of `00_scope.md` R6. -/

namespace Sys2Proof

/-- The thirteen addressing modes (`30_encoding.md` R144). -/
inductive Mode where
  | immediate
  | zeroPage
  | zeroPageX
  | zeroPageY
  | absolute
  | absoluteX
  | absoluteY
  | indirect
  | indirectX
  | indirectY
  | relative
  | accumulator
  | noneAddressing
deriving DecidableEq, Repr

/-- The screen-mirroring mode of a cartridge (`10_state.md` R38, `20_memory.md` R85). -/
inductive Mirroring where
  | vertical
  | horizontal
  | fourScreen
deriving DecidableEq, Repr

/-- A Cartridge value (`10_state.md` R38): PRG-ROM, CHR-ROM, mapper id and mirroring mode. -/
structure Cartridge where
  prg       : List Byte
  chr       : List Byte
  mapper    : Byte
  mirroring : Mirroring
deriving DecidableEq, Repr

/-- `UNDOC_LEVEL`, one of 0, 1, 2 (`45_undocumented.md` R270). -/
abbrev UndocLevel := Fin 3

/-- The configuration of a machine (`10_state.md` R21, R39): the cartridge or its absence and the parameters of
`00_scope.md` R6 that are not fixed by the address map. It never changes during a run. `LOAD_BASE` is an argument of the
host's load operation (`92_eei_decisions.md` D15). -/
structure Config where
  /-- the attached cartridge, if any -/
  cart        : Option Cartridge
  /-- `UNDOC_LEVEL` -/
  undoc       : UndocLevel
  /-- `STACK_BASE` -/
  stackBase   : Addr
  /-- `RESET_VECTOR`, the address of the low byte -/
  resetVector : Addr
deriving DecidableEq, Repr

/-- The parameters at the values the spec takes: no cartridge, level 1, stack page 0x0100, vector 0xFFFC
(`00_scope.md` R6, `92_eei_decisions.md` D1, D2, D9, "Open parameters in one place"). -/
def Config.standard : Config where
  cart        := none
  undoc       := 1
  stackBase   := 0x0100
  resetVector := 0xFFFC

/-- What a cell of RAM, VRAM, palette or OAM that nothing has written reads as. DESIGN CHOICE, unsafe: log entry 1. -/
def Config.unwritten : Byte := 0x00

end Sys2Proof
end

