-- ==== Sys2Proof/Syntax.lean ====
section
/-! DEFINITION. The instructions. The opcode byte alone selects the instruction, its addressing mode and its length
(`30_encoding.md` R140); the operand bytes are read by the handler through the resolver (R145), so an `Instr` is what the
opcode table maps a byte to (handler and addressing mode), and a `Code` is an instruction with its operand bytes as it
stands in memory. -/

namespace Sys2Proof

/-- What an opcode byte selects. A constructor is one mnemonic of `opcode_table.json`; where the table has one row per
addressing mode, the mode is its argument, and the 27 NOP alias bytes and the SBC alias 0xEB have constructors of their own,
so that every row is a different term. -/
inductive Instr where
  -- load, store, transfer (`40_load_store_transfer.md`)
  | lda (m : Mode)      -- R171
  | ldx (m : Mode)      -- R172
  | ldy (m : Mode)      -- R173
  | sta (m : Mode)      -- R174
  | stx (m : Mode)      -- R175
  | sty (m : Mode)      -- R176
  | tax                 -- R177
  | tay                 -- R178
  | txa                 -- R179
  | tya                 -- R180
  | tsx                 -- R181
  | txs                 -- R182
  -- arithmetic, logic, compare, increment, decrement (`41_arithmetic_logic.md`)
  | adc (m : Mode)      -- R191
  | sbc (m : Mode)      -- R192
  | and (m : Mode)      -- R193
  | ora (m : Mode)      -- R194
  | eor (m : Mode)      -- R196
  | cmp (m : Mode)      -- R199
  | cpx (m : Mode)      -- R200
  | cpy (m : Mode)      -- R201
  | bit (m : Mode)      -- R202
  | inc (m : Mode)      -- R203
  | dec (m : Mode)      -- R204
  | inx                 -- R205
  | iny                 -- R206
  | dex                 -- R207
  | dey                 -- R208
  -- shift and rotate (`42_shift_rotate.md`)
  | asl (m : Mode)      -- R221
  | lsr (m : Mode)      -- R222
  | rol (m : Mode)      -- R223
  | ror (m : Mode)      -- R224
  -- control flow (`43_control_flow.md`)
  | bcc                 -- R231
  | bcs                 -- R232
  | beq                 -- R233
  | bne                 -- R234
  | bmi                 -- R235
  | bpl                 -- R236
  | bvc                 -- R237
  | bvs                 -- R238
  | jmp (m : Mode)      -- R239
  | jsr                 -- R240
  | rts                 -- R241
  | rti                 -- R242
  -- stack, flags, system (`44_stack_flags_system.md`)
  | pha                 -- R250
  | pla                 -- R251
  | php                 -- R252
  | plp                 -- R253
  | clc                 -- R254
  | sec                 -- R255
  | cli                 -- R256
  | sei                 -- R257
  | cld                 -- R258
  | sed                 -- R259
  | clv                 -- R260
  | nop                 -- R262
  | brk                 -- R263, the halt opcode
  -- undocumented (`45_undocumented.md`)
  | nopAlias (op : Byte) -- R271, the alias byte `op`
  | sbcAlias            -- R272, byte 0xEB
  | lax (m : Mode)      -- R273
  | sax (m : Mode)      -- R274
  | dcp (m : Mode)      -- R275
  | isb (m : Mode)      -- R276
  | slo (m : Mode)      -- R277
  | rla (m : Mode)      -- R278
  | sre (m : Mode)      -- R279
  | rra (m : Mode)      -- R280
deriving DecidableEq, Repr

/-- An instruction as it stands in memory: what its opcode byte selects and its operand bytes, first byte at the lower
address (`30_encoding.md` R141). -/
structure Code where
  instr   : Instr
  operand : List Byte
deriving DecidableEq, Repr

end Sys2Proof
end

