-- ==== Sys2Proof/WellFormed.lean ====
section
/-! DEFINITION. Which terms of `Instr` are instructions of the table: the addressing modes each mnemonic has
(`30_encoding.md` R159 to R161). The number of operand bytes is `Code.wf`, in Decode.lean beside the lengths it uses. -/

namespace Sys2Proof

/-- The addressing modes of each mnemonic, read off the columns of `30_encoding.md` R159 and R161; `[]` for an
instruction without a mode argument. -/
def Instr.modes : Instr → List Mode
  | .lda _ => [.immediate, .zeroPage, .zeroPageX, .absolute, .absoluteX, .absoluteY, .indirectX, .indirectY]
  | .ldx _ => [.immediate, .zeroPage, .zeroPageY, .absolute, .absoluteY]
  | .ldy _ => [.immediate, .zeroPage, .zeroPageX, .absolute, .absoluteX]
  | .sta _ => [.zeroPage, .zeroPageX, .absolute, .absoluteX, .absoluteY, .indirectX, .indirectY]
  | .stx _ => [.zeroPage, .zeroPageY, .absolute]
  | .sty _ => [.zeroPage, .zeroPageX, .absolute]
  | .adc _ | .sbc _ | .and _ | .ora _ | .eor _ | .cmp _ =>
      [.immediate, .zeroPage, .zeroPageX, .absolute, .absoluteX, .absoluteY, .indirectX, .indirectY]
  | .cpx _ | .cpy _ => [.immediate, .zeroPage, .absolute]
  | .bit _ => [.zeroPage, .absolute]
  | .inc _ | .dec _ => [.zeroPage, .zeroPageX, .absolute, .absoluteX]
  | .asl _ | .lsr _ | .rol _ | .ror _ => [.accumulator, .zeroPage, .zeroPageX, .absolute, .absoluteX]
  | .jmp _ => [.absolute, .indirect]
  | .lax _ => [.zeroPage, .zeroPageY, .absolute, .absoluteY, .indirectX, .indirectY]
  | .sax _ => [.zeroPage, .zeroPageY, .absolute, .indirectX]
  | .dcp _ | .isb _ | .slo _ | .rla _ | .sre _ | .rra _ =>
      [.zeroPage, .zeroPageX, .absolute, .absoluteX, .absoluteY, .indirectX, .indirectY]
  | .tax | .tay | .txa | .tya | .tsx | .txs | .inx | .iny | .dex | .dey
  | .bcc | .bcs | .beq | .bne | .bmi | .bpl | .bvc | .bvs | .jsr | .rts | .rti
  | .pha | .pla | .php | .plp | .clc | .sec | .cli | .sei | .cld | .sed | .clv | .nop | .brk
  | .nopAlias _ | .sbcAlias => []

/-- The 27 NOP alias bytes (`45_undocumented.md` R271). -/
def nopAliasBytes : List Byte :=
  [0x1A, 0x3A, 0x5A, 0x7A, 0xDA, 0xFA] ++ [0x80, 0x82, 0x89, 0xC2, 0xE2] ++ [0x04, 0x44, 0x64]
    ++ [0x14, 0x34, 0x54, 0x74, 0xD4, 0xF4] ++ [0x0C] ++ [0x1C, 0x3C, 0x5C, 0x7C, 0xDC, 0xFC]

/-- The term stands for a row of the opcode table: its mode is one of its mnemonic's modes (check 1), or its byte is one
of the NOP aliases (check 2). -/
def Instr.wf : Instr → Bool
  | i@(.lda m) | i@(.ldx m) | i@(.ldy m) | i@(.sta m) | i@(.stx m) | i@(.sty m)
  | i@(.adc m) | i@(.sbc m) | i@(.and m) | i@(.ora m) | i@(.eor m) | i@(.cmp m) | i@(.cpx m) | i@(.cpy m)
  | i@(.bit m) | i@(.inc m) | i@(.dec m) | i@(.asl m) | i@(.lsr m) | i@(.rol m) | i@(.ror m) | i@(.jmp m)
  | i@(.lax m) | i@(.sax m) | i@(.dcp m) | i@(.isb m) | i@(.slo m) | i@(.rla m) | i@(.sre m) | i@(.rra m) =>
      i.modes.contains m
  | .nopAlias op => nopAliasBytes.contains op
  | .tax | .tay | .txa | .tya | .tsx | .txs | .inx | .iny | .dex | .dey
  | .bcc | .bcs | .beq | .bne | .bmi | .bpl | .bvc | .bvs | .jsr | .rts | .rti
  | .pha | .pla | .php | .plp | .clc | .sec | .cli | .sei | .cld | .sed | .clv | .nop | .brk
  | .sbcAlias => true

end Sys2Proof
end

