-- ==== Sys2Proof/Decode.lean ====
section
/-! DEFINITION. The opcode table and the decoder (`30_encoding.md` R140 to R143, R158 to R161, R167), then the encoder. -/

namespace Sys2Proof

/-- The instruction length of each addressing mode, opcode byte included (`30_encoding.md` R141). -/
def modeLength : Mode → Nat
  | .noneAddressing | .accumulator => 1
  | .immediate | .zeroPage | .zeroPageX | .zeroPageY | .indirectX | .indirectY | .relative => 2
  | .absolute | .absoluteX | .absoluteY | .indirect => 3

/-- An opcode table entry (`10_state.md` R49): the unique key, what it selects, and the least `UNDOC_LEVEL` at which it is
registered (`45_undocumented.md` R270). Handler, mode, length and mnemonic follow from `instr`. -/
structure Entry where
  opcode : Byte
  instr  : Instr
  level  : UndocLevel
deriving DecidableEq, Repr

/-- The rows of one mnemonic that has several modes. -/
def rowsOf (level : UndocLevel) (i : Mode → Instr) (cells : List (Byte × Mode)) : List Entry :=
  cells.map fun c => ⟨c.1, i c.2, level⟩

/-- The documented rows of `30_encoding.md` R159: load, store and transfer. -/
def tableLoadStore : List Entry :=
  List.flatten [
    rowsOf 0 .lda [(0xA9, .immediate), (0xA5, .zeroPage), (0xB5, .zeroPageX), (0xAD, .absolute), (0xBD, .absoluteX),
      (0xB9, .absoluteY), (0xA1, .indirectX), (0xB1, .indirectY)],
    rowsOf 0 .ldx [(0xA2, .immediate), (0xA6, .zeroPage), (0xB6, .zeroPageY), (0xAE, .absolute), (0xBE, .absoluteY)],
    rowsOf 0 .ldy [(0xA0, .immediate), (0xA4, .zeroPage), (0xB4, .zeroPageX), (0xAC, .absolute), (0xBC, .absoluteX)],
    rowsOf 0 .sta [(0x85, .zeroPage), (0x95, .zeroPageX), (0x8D, .absolute), (0x9D, .absoluteX), (0x99, .absoluteY),
      (0x81, .indirectX), (0x91, .indirectY)],
    rowsOf 0 .stx [(0x86, .zeroPage), (0x96, .zeroPageY), (0x8E, .absolute)],
    rowsOf 0 .sty [(0x84, .zeroPage), (0x94, .zeroPageX), (0x8C, .absolute)],
    [⟨0xAA, .tax, 0⟩, ⟨0xA8, .tay, 0⟩, ⟨0x8A, .txa, 0⟩, ⟨0x98, .tya, 0⟩, ⟨0xBA, .tsx, 0⟩, ⟨0x9A, .txs, 0⟩]]

/-- The documented rows of `30_encoding.md` R159: arithmetic, logic, compare, increment, decrement. -/
def tableArith : List Entry :=
  List.flatten [
    rowsOf 0 .adc [(0x69, .immediate), (0x65, .zeroPage), (0x75, .zeroPageX), (0x6D, .absolute), (0x7D, .absoluteX),
      (0x79, .absoluteY), (0x61, .indirectX), (0x71, .indirectY)],
    rowsOf 0 .sbc [(0xE9, .immediate), (0xE5, .zeroPage), (0xF5, .zeroPageX), (0xED, .absolute), (0xFD, .absoluteX),
      (0xF9, .absoluteY), (0xE1, .indirectX), (0xF1, .indirectY)],
    rowsOf 0 .and [(0x29, .immediate), (0x25, .zeroPage), (0x35, .zeroPageX), (0x2D, .absolute), (0x3D, .absoluteX),
      (0x39, .absoluteY), (0x21, .indirectX), (0x31, .indirectY)],
    rowsOf 0 .ora [(0x09, .immediate), (0x05, .zeroPage), (0x15, .zeroPageX), (0x0D, .absolute), (0x1D, .absoluteX),
      (0x19, .absoluteY), (0x01, .indirectX), (0x11, .indirectY)],
    rowsOf 0 .eor [(0x49, .immediate), (0x45, .zeroPage), (0x55, .zeroPageX), (0x4D, .absolute), (0x5D, .absoluteX),
      (0x59, .absoluteY), (0x41, .indirectX), (0x51, .indirectY)],
    rowsOf 0 .cmp [(0xC9, .immediate), (0xC5, .zeroPage), (0xD5, .zeroPageX), (0xCD, .absolute), (0xDD, .absoluteX),
      (0xD9, .absoluteY), (0xC1, .indirectX), (0xD1, .indirectY)],
    rowsOf 0 .cpx [(0xE0, .immediate), (0xE4, .zeroPage), (0xEC, .absolute)],
    rowsOf 0 .cpy [(0xC0, .immediate), (0xC4, .zeroPage), (0xCC, .absolute)],
    rowsOf 0 .bit [(0x24, .zeroPage), (0x2C, .absolute)],
    rowsOf 0 .inc [(0xE6, .zeroPage), (0xF6, .zeroPageX), (0xEE, .absolute), (0xFE, .absoluteX)],
    rowsOf 0 .dec [(0xC6, .zeroPage), (0xD6, .zeroPageX), (0xCE, .absolute), (0xDE, .absoluteX)],
    [⟨0xE8, .inx, 0⟩, ⟨0xC8, .iny, 0⟩, ⟨0xCA, .dex, 0⟩, ⟨0x88, .dey, 0⟩]]

/-- The documented rows of `30_encoding.md` R159: shift and rotate. -/
def tableShift : List Entry :=
  List.flatten [
    rowsOf 0 .asl [(0x0A, .accumulator), (0x06, .zeroPage), (0x16, .zeroPageX), (0x0E, .absolute), (0x1E, .absoluteX)],
    rowsOf 0 .lsr [(0x4A, .accumulator), (0x46, .zeroPage), (0x56, .zeroPageX), (0x4E, .absolute), (0x5E, .absoluteX)],
    rowsOf 0 .rol [(0x2A, .accumulator), (0x26, .zeroPage), (0x36, .zeroPageX), (0x2E, .absolute), (0x3E, .absoluteX)],
    rowsOf 0 .ror [(0x6A, .accumulator), (0x66, .zeroPage), (0x76, .zeroPageX), (0x6E, .absolute), (0x7E, .absoluteX)]]

/-- The documented rows of `30_encoding.md` R159: control flow. -/
def tableControl : List Entry :=
  List.flatten [
    [⟨0x90, .bcc, 0⟩, ⟨0xB0, .bcs, 0⟩, ⟨0xF0, .beq, 0⟩, ⟨0xD0, .bne, 0⟩, ⟨0x30, .bmi, 0⟩, ⟨0x10, .bpl, 0⟩,
      ⟨0x50, .bvc, 0⟩, ⟨0x70, .bvs, 0⟩],
    rowsOf 0 .jmp [(0x4C, .absolute), (0x6C, .indirect)],
    [⟨0x20, .jsr, 0⟩, ⟨0x60, .rts, 0⟩, ⟨0x40, .rti, 0⟩]]

/-- The documented rows of `30_encoding.md` R159: stack, flags, NOP. -/
def tableSystem : List Entry :=
  List.flatten [
    [⟨0x48, .pha, 0⟩, ⟨0x68, .pla, 0⟩, ⟨0x08, .php, 0⟩, ⟨0x28, .plp, 0⟩, ⟨0x18, .clc, 0⟩, ⟨0x38, .sec, 0⟩,
      ⟨0x58, .cli, 0⟩, ⟨0x78, .sei, 0⟩, ⟨0xD8, .cld, 0⟩, ⟨0xF8, .sed, 0⟩, ⟨0xB8, .clv, 0⟩, ⟨0xEA, .nop, 0⟩]]

/-- The undocumented combined operations (`30_encoding.md` R161), registered at level 2. -/
def tableCombined : List Entry :=
  List.flatten [
    rowsOf 2 .lax [(0xA7, .zeroPage), (0xB7, .zeroPageY), (0xAF, .absolute), (0xBF, .absoluteY), (0xA3, .indirectX),
      (0xB3, .indirectY)],
    rowsOf 2 .sax [(0x87, .zeroPage), (0x97, .zeroPageY), (0x8F, .absolute), (0x83, .indirectX)],
    rowsOf 2 .dcp [(0xC7, .zeroPage), (0xD7, .zeroPageX), (0xCF, .absolute), (0xDF, .absoluteX), (0xDB, .absoluteY),
      (0xC3, .indirectX), (0xD3, .indirectY)],
    rowsOf 2 .isb [(0xE7, .zeroPage), (0xF7, .zeroPageX), (0xEF, .absolute), (0xFF, .absoluteX), (0xFB, .absoluteY),
      (0xE3, .indirectX), (0xF3, .indirectY)],
    rowsOf 2 .slo [(0x07, .zeroPage), (0x17, .zeroPageX), (0x0F, .absolute), (0x1F, .absoluteX), (0x1B, .absoluteY),
      (0x03, .indirectX), (0x13, .indirectY)],
    rowsOf 2 .rla [(0x27, .zeroPage), (0x37, .zeroPageX), (0x2F, .absolute), (0x3F, .absoluteX), (0x3B, .absoluteY),
      (0x23, .indirectX), (0x33, .indirectY)],
    rowsOf 2 .sre [(0x47, .zeroPage), (0x57, .zeroPageX), (0x4F, .absolute), (0x5F, .absoluteX), (0x5B, .absoluteY),
      (0x43, .indirectX), (0x53, .indirectY)],
    rowsOf 2 .rra [(0x67, .zeroPage), (0x77, .zeroPageX), (0x6F, .absolute), (0x7F, .absoluteX), (0x7B, .absoluteY),
      (0x63, .indirectX), (0x73, .indirectY)]]

/-- The mode recorded with each NOP alias byte (`45_undocumented.md` R271); it fixes only the length. -/
def nopAliasModes : List (Byte × Mode) :=
  List.flatten [
    [(0x1A, .noneAddressing), (0x3A, .noneAddressing), (0x5A, .noneAddressing), (0x7A, .noneAddressing),
      (0xDA, .noneAddressing), (0xFA, .noneAddressing)],
    [(0x80, .immediate), (0x82, .immediate), (0x89, .immediate), (0xC2, .immediate), (0xE2, .immediate)],
    [(0x04, .zeroPage), (0x44, .zeroPage), (0x64, .zeroPage)],
    [(0x14, .zeroPageX), (0x34, .zeroPageX), (0x54, .zeroPageX), (0x74, .zeroPageX), (0xD4, .zeroPageX),
      (0xF4, .zeroPageX)],
    [(0x0C, .absolute)],
    [(0x1C, .absoluteX), (0x3C, .absoluteX), (0x5C, .absoluteX), (0x7C, .absoluteX), (0xDC, .absoluteX),
      (0xFC, .absoluteX)]]

/-- The mode recorded with the NOP alias byte `op`; for any other byte, of which the table has no NOP alias, NoneAddressing. -/
def nopAliasMode (op : Byte) : Mode :=
  match nopAliasModes.find? (fun c => c.1 == op) with
  | some c => c.2
  | none => .noneAddressing

/-- The undocumented aliases (`30_encoding.md` R160), registered from level 1. -/
def tableAliases : List Entry :=
  nopAliasModes.map (fun c => ⟨c.1, .nopAlias c.1, 1⟩) ++ [⟨0xEB, .sbcAlias, 1⟩]

/-- The whole opcode table (R158). The halt byte 0x00 is no entry of it: it is tested for before the lookup
(R163, `60_exceptions.md` R309). -/
def opcodeTable : List Entry :=
  tableLoadStore ++ tableArith ++ tableShift ++ tableControl ++ tableSystem ++ tableAliases ++ tableCombined

/-- The entry registered under a byte at a level, or `none`, the spec's "unknown" (R158, `10_state.md` R49). -/
def lookup (level : UndocLevel) (op : Byte) : Option Entry :=
  opcodeTable.find? fun e => e.opcode == op && decide (e.level ≤ level)

/-- What an opcode byte selects: the halt byte first, then the table (R142, R163). `none` is an unknown opcode (R167). -/
def decodeOpcode (level : UndocLevel) (op : Byte) : Option Instr :=
  if op = 0x00 then some .brk else (lookup level op).map Entry.instr

/-- The least level at which a byte is registered; 0 for the halt byte and for a byte that no level registers. -/
def minLevel (op : Byte) : UndocLevel :=
  match opcodeTable.find? (fun e => e.opcode == op) with
  | some e => e.level
  | none => 0

/-- The addressing mode of an instruction (R159 to R161). -/
def instrMode : Instr → Mode
  | .lda m | .ldx m | .ldy m | .sta m | .stx m | .sty m
  | .adc m | .sbc m | .and m | .ora m | .eor m | .cmp m | .cpx m | .cpy m | .bit m | .inc m | .dec m
  | .asl m | .lsr m | .rol m | .ror m | .jmp m
  | .lax m | .sax m | .dcp m | .isb m | .slo m | .rla m | .sre m | .rra m => m
  | .bcc | .bcs | .beq | .bne | .bmi | .bpl | .bvc | .bvs => .relative
  | .jsr => .absolute
  | .sbcAlias => .immediate
  | .nopAlias op => nopAliasMode op
  | .tax | .tay | .txa | .tya | .tsx | .txs | .inx | .iny | .dex | .dey | .rts | .rti
  | .pha | .pla | .php | .plp | .clc | .sec | .cli | .sei | .cld | .sed | .clv | .nop | .brk => .noneAddressing

/-- The length of an instruction in bytes (R140 to R142). -/
def instrLength (i : Instr) : Nat := modeLength (instrMode i)

/-- The term is an instruction with its operand bytes: the instruction is one of the table's (checks 1 and 2 of
`Instr.wf`) and there are exactly its length minus one operand bytes (check 3, R141). -/
def Code.wf (c : Code) : Bool := c.instr.wf && decide (c.operand.length + 1 = instrLength c.instr)

/-- Why bytes are not an instruction. -/
inductive DecodeError where
  /-- no byte to decode -/
  | noBytes
  /-- the first byte is not registered at the level (R167) -/
  | unknownOpcode (op : Byte)
  /-- fewer operand bytes than the length of the instruction asks for -/
  | truncated (i : Instr)
deriving DecidableEq, Repr

/-- Decoding of a byte listing: the instruction at its head with its operand bytes, and the rest (R141, R142). The step
decodes the opcode byte alone, with `decodeOpcode`; its handlers read the operand bytes (R145). -/
def decode (level : UndocLevel) : List Byte → Except DecodeError (Code × List Byte)
  | [] => .error .noBytes
  | op :: rest =>
    match decodeOpcode level op with
    | none => .error (.unknownOpcode op)
    | some i =>
      if instrLength i - 1 ≤ rest.length then
        .ok (⟨i, rest.take (instrLength i - 1)⟩, rest.drop (instrLength i - 1))
      else .error (.truncated i)

/-- The mnemonic of an instruction, as `opcode_table.json` spells it (`10_state.md` R49: "for diagnostics/tracing"). -/
def mnemonic : Instr → String
  | .lda _ => "LDA" | .ldx _ => "LDX" | .ldy _ => "LDY" | .sta _ => "STA" | .stx _ => "STX" | .sty _ => "STY"
  | .tax => "TAX" | .tay => "TAY" | .txa => "TXA" | .tya => "TYA" | .tsx => "TSX" | .txs => "TXS"
  | .adc _ => "ADC" | .sbc _ => "SBC" | .and _ => "AND" | .ora _ => "ORA" | .eor _ => "EOR" | .cmp _ => "CMP"
  | .cpx _ => "CPX" | .cpy _ => "CPY" | .bit _ => "BIT" | .inc _ => "INC" | .dec _ => "DEC"
  | .inx => "INX" | .iny => "INY" | .dex => "DEX" | .dey => "DEY"
  | .asl _ => "ASL" | .lsr _ => "LSR" | .rol _ => "ROL" | .ror _ => "ROR"
  | .bcc => "BCC" | .bcs => "BCS" | .beq => "BEQ" | .bne => "BNE" | .bmi => "BMI" | .bpl => "BPL"
  | .bvc => "BVC" | .bvs => "BVS" | .jmp _ => "JMP" | .jsr => "JSR" | .rts => "RTS" | .rti => "RTI"
  | .pha => "PHA" | .pla => "PLA" | .php => "PHP" | .plp => "PLP"
  | .clc => "CLC" | .sec => "SEC" | .cli => "CLI" | .sei => "SEI" | .cld => "CLD" | .sed => "SED" | .clv => "CLV"
  | .nop => "NOP" | .nopAlias _ => "NOP" | .sbcAlias => "SBC" | .brk => "BRK"
  | .lax _ => "LAX" | .sax _ => "SAX" | .dcp _ => "DCP" | .isb _ => "ISB"
  | .slo _ => "SLO" | .rla _ => "RLA" | .sre _ => "SRE" | .rra _ => "RRA"

/-- The bytes of an instruction whose bits are `w`, bit 0 the least significant bit of the first byte, as many as the
longest instruction has (R141: the low operand byte comes before the high one); bits from `nbits` up are zero. -/
def tableBytes (nbits w : Nat) : List Byte :=
  [BitVec.ofNat 8 (w % 2 ^ nbits), BitVec.ofNat 8 (w % 2 ^ nbits / 2 ^ 8), BitVec.ofNat 8 (w % 2 ^ nbits / 2 ^ 16)]

/-- The instruction the decoder reads from the bytes of a table row, at the level that registers every row. -/
def decodeTableWord (nbits w : Nat) : Option Instr :=
  match decode 2 (tableBytes nbits w) with
  | .ok (c, _) => some c.instr
  | .error _ => none

/-- The byte of a mode in one row of the encoding table. -/
def byMode (m : Mode) (cells : List (Mode × Byte)) : Option Byte :=
  (cells.find? fun c => c.1 == m).map Prod.snd

/-- The opcode byte of an instruction, row by row from `30_encoding.md` R159 to R161; `none` for a term that is no row. -/
def opcodeOf : Instr → Option Byte
  | .lda m => byMode m [(.immediate, 0xA9), (.zeroPage, 0xA5), (.zeroPageX, 0xB5), (.absolute, 0xAD),
      (.absoluteX, 0xBD), (.absoluteY, 0xB9), (.indirectX, 0xA1), (.indirectY, 0xB1)]
  | .ldx m => byMode m [(.immediate, 0xA2), (.zeroPage, 0xA6), (.zeroPageY, 0xB6), (.absolute, 0xAE),
      (.absoluteY, 0xBE)]
  | .ldy m => byMode m [(.immediate, 0xA0), (.zeroPage, 0xA4), (.zeroPageX, 0xB4), (.absolute, 0xAC),
      (.absoluteX, 0xBC)]
  | .sta m => byMode m [(.zeroPage, 0x85), (.zeroPageX, 0x95), (.absolute, 0x8D), (.absoluteX, 0x9D),
      (.absoluteY, 0x99), (.indirectX, 0x81), (.indirectY, 0x91)]
  | .stx m => byMode m [(.zeroPage, 0x86), (.zeroPageY, 0x96), (.absolute, 0x8E)]
  | .sty m => byMode m [(.zeroPage, 0x84), (.zeroPageX, 0x94), (.absolute, 0x8C)]
  | .tax => some 0xAA
  | .tay => some 0xA8
  | .txa => some 0x8A
  | .tya => some 0x98
  | .tsx => some 0xBA
  | .txs => some 0x9A
  | .adc m => byMode m [(.immediate, 0x69), (.zeroPage, 0x65), (.zeroPageX, 0x75), (.absolute, 0x6D),
      (.absoluteX, 0x7D), (.absoluteY, 0x79), (.indirectX, 0x61), (.indirectY, 0x71)]
  | .sbc m => byMode m [(.immediate, 0xE9), (.zeroPage, 0xE5), (.zeroPageX, 0xF5), (.absolute, 0xED),
      (.absoluteX, 0xFD), (.absoluteY, 0xF9), (.indirectX, 0xE1), (.indirectY, 0xF1)]
  | .and m => byMode m [(.immediate, 0x29), (.zeroPage, 0x25), (.zeroPageX, 0x35), (.absolute, 0x2D),
      (.absoluteX, 0x3D), (.absoluteY, 0x39), (.indirectX, 0x21), (.indirectY, 0x31)]
  | .ora m => byMode m [(.immediate, 0x09), (.zeroPage, 0x05), (.zeroPageX, 0x15), (.absolute, 0x0D),
      (.absoluteX, 0x1D), (.absoluteY, 0x19), (.indirectX, 0x01), (.indirectY, 0x11)]
  | .eor m => byMode m [(.immediate, 0x49), (.zeroPage, 0x45), (.zeroPageX, 0x55), (.absolute, 0x4D),
      (.absoluteX, 0x5D), (.absoluteY, 0x59), (.indirectX, 0x41), (.indirectY, 0x51)]
  | .cmp m => byMode m [(.immediate, 0xC9), (.zeroPage, 0xC5), (.zeroPageX, 0xD5), (.absolute, 0xCD),
      (.absoluteX, 0xDD), (.absoluteY, 0xD9), (.indirectX, 0xC1), (.indirectY, 0xD1)]
  | .cpx m => byMode m [(.immediate, 0xE0), (.zeroPage, 0xE4), (.absolute, 0xEC)]
  | .cpy m => byMode m [(.immediate, 0xC0), (.zeroPage, 0xC4), (.absolute, 0xCC)]
  | .bit m => byMode m [(.zeroPage, 0x24), (.absolute, 0x2C)]
  | .inc m => byMode m [(.zeroPage, 0xE6), (.zeroPageX, 0xF6), (.absolute, 0xEE), (.absoluteX, 0xFE)]
  | .dec m => byMode m [(.zeroPage, 0xC6), (.zeroPageX, 0xD6), (.absolute, 0xCE), (.absoluteX, 0xDE)]
  | .inx => some 0xE8
  | .iny => some 0xC8
  | .dex => some 0xCA
  | .dey => some 0x88
  | .asl m => byMode m [(.accumulator, 0x0A), (.zeroPage, 0x06), (.zeroPageX, 0x16), (.absolute, 0x0E),
      (.absoluteX, 0x1E)]
  | .lsr m => byMode m [(.accumulator, 0x4A), (.zeroPage, 0x46), (.zeroPageX, 0x56), (.absolute, 0x4E),
      (.absoluteX, 0x5E)]
  | .rol m => byMode m [(.accumulator, 0x2A), (.zeroPage, 0x26), (.zeroPageX, 0x36), (.absolute, 0x2E),
      (.absoluteX, 0x3E)]
  | .ror m => byMode m [(.accumulator, 0x6A), (.zeroPage, 0x66), (.zeroPageX, 0x76), (.absolute, 0x6E),
      (.absoluteX, 0x7E)]
  | .bcc => some 0x90
  | .bcs => some 0xB0
  | .beq => some 0xF0
  | .bne => some 0xD0
  | .bmi => some 0x30
  | .bpl => some 0x10
  | .bvc => some 0x50
  | .bvs => some 0x70
  | .jmp m => byMode m [(.absolute, 0x4C), (.indirect, 0x6C)]
  | .jsr => some 0x20
  | .rts => some 0x60
  | .rti => some 0x40
  | .pha => some 0x48
  | .pla => some 0x68
  | .php => some 0x08
  | .plp => some 0x28
  | .clc => some 0x18
  | .sec => some 0x38
  | .cli => some 0x58
  | .sei => some 0x78
  | .cld => some 0xD8
  | .sed => some 0xF8
  | .clv => some 0xB8
  | .nop => some 0xEA
  | .brk => some 0x00
  | .nopAlias op => if nopAliasBytes.contains op then some op else none
  | .sbcAlias => some 0xEB
  | .lax m => byMode m [(.zeroPage, 0xA7), (.zeroPageY, 0xB7), (.absolute, 0xAF), (.absoluteY, 0xBF),
      (.indirectX, 0xA3), (.indirectY, 0xB3)]
  | .sax m => byMode m [(.zeroPage, 0x87), (.zeroPageY, 0x97), (.absolute, 0x8F), (.indirectX, 0x83)]
  | .dcp m => byMode m [(.zeroPage, 0xC7), (.zeroPageX, 0xD7), (.absolute, 0xCF), (.absoluteX, 0xDF),
      (.absoluteY, 0xDB), (.indirectX, 0xC3), (.indirectY, 0xD3)]
  | .isb m => byMode m [(.zeroPage, 0xE7), (.zeroPageX, 0xF7), (.absolute, 0xEF), (.absoluteX, 0xFF),
      (.absoluteY, 0xFB), (.indirectX, 0xE3), (.indirectY, 0xF3)]
  | .slo m => byMode m [(.zeroPage, 0x07), (.zeroPageX, 0x17), (.absolute, 0x0F), (.absoluteX, 0x1F),
      (.absoluteY, 0x1B), (.indirectX, 0x03), (.indirectY, 0x13)]
  | .rla m => byMode m [(.zeroPage, 0x27), (.zeroPageX, 0x37), (.absolute, 0x2F), (.absoluteX, 0x3F),
      (.absoluteY, 0x3B), (.indirectX, 0x23), (.indirectY, 0x33)]
  | .sre m => byMode m [(.zeroPage, 0x47), (.zeroPageX, 0x57), (.absolute, 0x4F), (.absoluteX, 0x5F),
      (.absoluteY, 0x5B), (.indirectX, 0x43), (.indirectY, 0x53)]
  | .rra m => byMode m [(.zeroPage, 0x67), (.zeroPageX, 0x77), (.absolute, 0x6F), (.absoluteX, 0x7F),
      (.absoluteY, 0x7B), (.indirectX, 0x63), (.indirectY, 0x73)]

/-- The bytes of an instruction with its operand bytes: the opcode byte, then the operand bytes in the order in which they
lie in memory (R141). `none` for a term whose instruction is no row of the table. -/
def encode (c : Code) : Option (List Byte) := (opcodeOf c.instr).map fun op => op :: c.operand

end Sys2Proof
end

