-- ==== Sys2Proof/Machine/State.lean ====
section
/-! DEFINITION. The state of the core (`10_state.md`), why a step can stop, and the state after reset. -/

namespace Sys2Proof.Machine

/-- A byte store as (index, byte) pairs, in the canonical form of `Memory.wf`. The index is that of the physical cell
(`10_state.md` R36, R45, R46, R47), not a CPU address. -/
abbrev Memory := List Host.Cell

/-- Indices rise strictly from `lo`, stay below `size`, and no entry holds what an unlisted cell reads as. -/
def Memory.wfFrom (lo size : Nat) : Memory → Bool
  | [] => true
  | c :: rest => decide (lo ≤ c.1) && decide (c.1 < size) && decide (c.2 ≠ Config.unwritten) && wfFrom (c.1 + 1) size rest

/-- The canonical form of a store of `size` cells, so that equal stores are equal data. -/
def Memory.wf (size : Nat) (m : Memory) : Bool := Memory.wfFrom 0 size m

/-- The eight stored flag bits (`10_state.md` R29). They are not a byte in the state. -/
structure Flags where
  c   : Bool  -- Carry
  z   : Bool  -- Zero
  i   : Bool  -- InterruptDisable
  d   : Bool  -- Decimal
  bhi : Bool  -- Break, high sub-bit
  blo : Bool  -- Break, low sub-bit
  v   : Bool  -- Overflow
  n   : Bool  -- Negative
deriving DecidableEq, Repr

/-- All eight bits 0, their value after reset (`10_state.md` R29, R50). -/
def Flags.zero : Flags := ⟨false, false, false, false, false, false, false, false⟩

/-- The direction of an access (`60_exceptions.md` R300, "read or write"). -/
inductive Access where
  | read
  | write
deriving DecidableEq, Repr

/-- The sub-causes of `InvalidFormat` (`60_exceptions.md` R300). -/
inductive FormatError where
  /-- fewer than 4 bytes or a wrong tag (`20_memory.md` R82) -/
  | badMagic
  /-- bits 3:2 of byte 7 are not 0; alias `UnsupportedVersion` (R84) -/
  | badVersion (version : BitVec 2)
  /-- fewer than 8 bytes, or a slice beyond the buffer (R82, R88) -/
  | sliceOutOfRange
deriving DecidableEq, Repr

/-- The seven fault kinds with the information each records (`60_exceptions.md` R300). All are the spec's own, none is
added by the model, so each is safe: the machine stops where the spec says it stops. -/
inductive Fault where
  /-- Code 1. Raised by the cartridge loader (`parseCartridge`), never by a step. Safe: the spec's own failure. -/
  | invalidFormat (cause : FormatError)
  /-- Code 2. Raised by the cartridge loader, with the mapper id. Safe: the spec's own failure. -/
  | unsupportedMapper (id : Byte)
  /-- Code 3, cpu; alias `InvalidAddress`. Raised by `busRead` and `busWrite` at a CPU address with nothing behind it in
  that direction. Safe: the spec's own fault. -/
  | addressCpu (a : Addr) (acc : Access)
  /-- Code 3, ppu. Raised by `readData` and `writeData` with the CPU address of the register and the PPU address. Safe:
  the spec's own fault. -/
  | addressPpu (reg : Addr) (a : PpuAddr) (acc : Access)
  /-- Code 4, cpu. Raised by `busWrite` into the PRG-ROM window with a cartridge. Safe: the spec's own fault. -/
  | readOnlyCpu (a : Addr)
  /-- Code 4, ppu. Raised by `writeData` in the pattern-table range. Safe: the spec's own fault. -/
  | readOnlyPpu (a : PpuAddr)
  /-- Code 5. Raised by the step loop at a byte that is not registered, with the byte's address. Safe: the spec's own. -/
  | unknownOpcode (op : Byte) (a : Addr)
  /-- Code 6. Raised by `registerTable` before a machine exists; the table of this spec never raises it. Safe. -/
  | duplicateOpcodeRegistration (op : Byte)
  /-- Code 7. Raised by the resolver for the two modes without a memory operand; no well-formed instruction raises it
  (`30_encoding.md` R155). Safe: the spec's own assertion. -/
  | resolverMisuse (m : Mode)
deriving DecidableEq, Repr

/-- The run state (`10_state.md` R34). -/
inductive RunState where
  /-- constructed, never reset -/
  | powerOn
  /-- transient: the reset operation is executing -/
  | reset
  /-- between instructions -/
  | running
  /-- the halt opcode was met -/
  | halted
  /-- a fatal failure occurred; the recorded cause and information -/
  | faulted (cause : Fault)
deriving DecidableEq, Repr

/-- The operations of the host surface (`70_reset_and_hazards.md` R335). -/
inductive HostOp where
  | load
  | reset
  | step
  | memoryRead
deriving DecidableEq, Repr

/-- Why an operation has no transition. -/
inductive Refusal where
  /-- Raised by an arm of `exec` without a meaning; this model has none. Safe. -/
  | notModelled (mnemonic : String)
  /-- Raised by the step and by the other host operations in a run state in which the spec enables none of their
  transitions ("stuck": it neither faults nor succeeds, `70_reset_and_hazards.md` R333). Safe: the spec's own. -/
  | notEnabled (op : HostOp) (run : RunState)
  /-- Raised by the host's load with a cartridge attached, where the spec does not enable it (R336, U19). Safe. -/
  | loadWithCartridge
deriving DecidableEq, Repr

/-- The whole state: CPU (R23 to R33), run state (R34), Bus (R36, R37), PPU register model (R41 to R47), and the
configuration, which no operation changes (R21, R38 to R40, R49). One flat record (R22). -/
structure State where
  /-- `A`, accumulator (R23) -/
  a          : Byte
  /-- `X`, index register (R24) -/
  x          : Byte
  /-- `Y`, index register (R25) -/
  y          : Byte
  /-- `SP`, stack pointer (R26) -/
  sp         : Byte
  /-- `PC`, program counter (R28) -/
  pc         : Addr
  /-- the eight flag bits (R29) -/
  flags      : Flags
  /-- run state (R34) -/
  run        : RunState
  /-- `RAM`, 2048 cells (R36) -/
  ram        : Memory
  /-- `RV[0]`, at `RESET_VECTOR` when no cartridge is attached (R37) -/
  rv0        : Byte
  /-- `RV[1]`, at `RESET_VECTOR + 1` (R37) -/
  rv1        : Byte
  /-- `PPUADDR` (R41) -/
  ppuAddr    : PpuAddr
  /-- `PPULATCH_HI`: the next address write sets the high byte (R42) -/
  ppuLatchHi : Bool
  /-- `PPUCTRL` (R43) -/
  ppuCtrl    : Byte
  /-- `PPUBUF` (R44) -/
  ppuBuf     : Byte
  /-- `VRAM`, 2048 cells (R45) -/
  vram       : Memory
  /-- `PALETTE`, 32 cells (R46) -/
  palette    : Memory
  /-- `OAM`, 256 cells; no operation reads or writes it (R47) -/
  oam        : Memory
  /-- the configuration -/
  cfg        : Config
deriving DecidableEq, Repr

/-- The state with `a` replaced. -/
def State.setA (s : State) (v : Byte) : State := { s with a := v }

/-- The state with `x` replaced. -/
def State.setX (s : State) (v : Byte) : State := { s with x := v }

/-- The state with `y` replaced. -/
def State.setY (s : State) (v : Byte) : State := { s with y := v }

/-- The state with `sp` replaced. -/
def State.setSp (s : State) (v : Byte) : State := { s with sp := v }

/-- The state with `pc` replaced. -/
def State.setPc (s : State) (v : Addr) : State := { s with pc := v }

/-- The state with `flags` replaced. -/
def State.setFlags (s : State) (v : Flags) : State := { s with flags := v }

/-- The state with `run` replaced. -/
def State.setRun (s : State) (v : RunState) : State := { s with run := v }

/-- The state with `ram` replaced. -/
def State.setRam (s : State) (v : Memory) : State := { s with ram := v }

/-- The state with `rv0` replaced. -/
def State.setRv0 (s : State) (v : Byte) : State := { s with rv0 := v }

/-- The state with `rv1` replaced. -/
def State.setRv1 (s : State) (v : Byte) : State := { s with rv1 := v }

/-- The state with `ppuAddr` replaced. -/
def State.setPpuAddr (s : State) (v : PpuAddr) : State := { s with ppuAddr := v }

/-- The state with `ppuLatchHi` replaced. -/
def State.setPpuLatchHi (s : State) (v : Bool) : State := { s with ppuLatchHi := v }

/-- The state with `ppuCtrl` replaced. -/
def State.setPpuCtrl (s : State) (v : Byte) : State := { s with ppuCtrl := v }

/-- The state with `ppuBuf` replaced. -/
def State.setPpuBuf (s : State) (v : Byte) : State := { s with ppuBuf := v }

/-- The state with `vram` replaced. -/
def State.setVram (s : State) (v : Memory) : State := { s with vram := v }

/-- The state with `palette` replaced. -/
def State.setPalette (s : State) (v : Memory) : State := { s with palette := v }

/-- The machine right after reset (`10_state.md` R50, `70_reset_and_hazards.md` R331): every CPU register and flag 0, PC
the value of the reset vector, run state Running, the PPU registers at their power-on values (R41 to R44), no cartridge and
the parameters the spec takes. The contents of RAM, RV, VRAM, palette and OAM, which the spec leaves to the launch, are
0x00: DESIGN CHOICE, unsafe, log entries 1 and 2; so PC, read from RV, is 0x0000. -/
def State.reset : State where
  a          := 0x00
  x          := 0x00
  y          := 0x00
  sp         := 0x00
  pc         := 0x0000
  flags      := Flags.zero
  run        := .running
  ram        := []
  rv0        := 0x00
  rv1        := 0x00
  ppuAddr    := 0x0000
  ppuLatchHi := true
  ppuCtrl    := 0x00
  ppuBuf     := 0x00
  vram       := []
  palette    := []
  oam        := []
  cfg        := Config.standard

end Sys2Proof.Machine
end

