-- ==== Sys2Proof/Machine/Ops.lean ====
section
/-! DEFINITION. The named operations over memory and words, the result of an operation that may fault, and what a fault
leaves. -/

namespace Sys2Proof.Machine

/-- The byte in cell `k`; an unlisted cell reads as `Config.unwritten`. -/
def Memory.read : Memory → Nat → Byte
  | [], _ => Config.unwritten
  | c :: rest, k => if c.1 = k then c.2 else Memory.read rest k

/-- The store with byte `v` in cell `k`, in the canonical form: writing what an unlisted cell reads as removes the entry. -/
def Memory.write : Memory → Nat → Byte → Memory
  | [], k, v => if v = Config.unwritten then [] else [(k, v)]
  | c :: rest, k, v =>
    if k < c.1 then (if v = Config.unwritten then c :: rest else (k, v) :: c :: rest)
    else if k = c.1 then (if v = Config.unwritten then rest else (k, v) :: rest)
    else c :: Memory.write rest k v

/-- `hi:lo`, the little-endian assembly of a 16-bit value (`00_scope.md` R7, `20_memory.md` R106). -/
def hiLo (hi lo : Byte) : Addr := hi ++ lo

/-- `zext_16` (R7). -/
def zext16 (v : Byte) : Addr := v.setWidth 16

/-- `sext_16` (R7). -/
def sext16 (v : Byte) : Addr := v.signExtend 16

/-- `v[15:8]`. -/
def highByte (v : Addr) : Byte := v.extractLsb' 8 8

/-- `v[7:0]`. -/
def lowByte (v : Addr) : Byte := v.extractLsb' 0 8

/-- How a handler ends: a next state or a fault. -/
abbrev Result := Host.Outcome State Fault Refusal

/-- The result of an operation on the state: a value and the state it leaves, or the fault it raises. A fault carries no
state, so whatever the operation had done before it is discarded (`60_exceptions.md` R301). -/
inductive Res (α : Type) where
  | ok (v : α) (s : State)
  | fault (f : Fault)
deriving DecidableEq, Repr

/-- Do `k` after `r`; the first fault met is the result (`60_exceptions.md` R304). -/
def Res.andThen {α β : Type} (r : Res α) (k : α → State → Res β) : Res β :=
  match r with
  | .ok v s => k v s
  | .fault f => .fault f

/-- End a handler: the state `k` makes of the result, or the fault. -/
def Res.run {α : Type} (r : Res α) (k : α → State → State) : Result :=
  match r with
  | .ok v s => .next (k v s)
  | .fault f => .fault f

/-- What a fault leaves: the state before the faulting operation, with run state Faulted and the cause recorded. Nothing is
saved, no vector is read, PC does not move (`60_exceptions.md` R301, R302, R305). -/
def takeFault (f : Fault) (s : State) : State := s.setRun (.faulted f)

/-- The halt: both Break sub-flags set and run state Halted; nothing pushed, no vector read
(`44_stack_flags_system.md` R263, `60_exceptions.md` R311). -/
def takeHalt (s : State) : State := (s.setFlags { s.flags with bhi := true, blo := true }).setRun .halted

/-- The numeric cause code of a fault (`60_exceptions.md` R300). -/
def faultCode : Fault → Nat
  | .invalidFormat _ => 1
  | .unsupportedMapper _ => 2
  | .addressCpu _ _ | .addressPpu _ _ _ => 3
  | .readOnlyCpu _ | .readOnlyPpu _ => 4
  | .unknownOpcode _ _ => 5
  | .duplicateOpcodeRegistration _ => 6
  | .resolverMisuse _ => 7

end Sys2Proof.Machine
end

