-- ==== Sys2Proof/Machine/Flags.lean ====
section
/-! DEFINITION. The flag computations: SetZN, the adder, Compare, the status byte, and the shifts and rotates. -/

namespace Sys2Proof.Machine

/-- `SetZN(v)` (`00_scope.md` R11). -/
def setZN (v : Byte) (s : State) : State := s.setFlags { s.flags with z := v == 0, n := v.getLsbD 7 }

/-- `t = A + m + C` of the adder, on integers (`41_arithmetic_logic.md` R190). -/
def addSum (a m : Byte) (c : Bool) : Nat := a.toNat + m.toNat + c.toNat

/-- The overflow term of the adder (R190). -/
def addOverflow (a m r : Byte) : Bool := ((a ^^^ r) &&& (m ^^^ r) &&& 0x80) != 0

/-- `AddWithCarry(m)` (R190). The Decimal flag plays no part (R195). -/
def addWithCarry (m : Byte) (s : State) : State :=
  let t := addSum s.a m s.flags.c
  let r := BitVec.ofNat 8 t
  setZN r ((s.setFlags { s.flags with c := decide (0xFF < t), v := addOverflow s.a m r }).setA r)

/-- `Compare(r, m)` (`41_arithmetic_logic.md` R198). -/
def compareReg (r m : Byte) (s : State) : State :=
  setZN (r - m) (s.setFlags { s.flags with c := decide (m.toNat ≤ r.toNat) })

/-- BIT: Z from `A AND m`, N and V from bits 7 and 6 of `m` (`41_arithmetic_logic.md` R202). -/
def bitTest (m : Byte) (s : State) : State :=
  s.setFlags { s.flags with z := (s.a &&& m) == 0, n := m.getLsbD 7, v := m.getLsbD 6 }

/-- Set C, the rest of the flags as they are. -/
def setCarry (c : Bool) (s : State) : State := s.setFlags { s.flags with c := c }

/-- `PackP(bh, bl)`: N V bh bl D I Z C from bit 7 down (`00_scope.md` R13). -/
def packP (bh bl : Bool) (f : Flags) : Byte :=
  BitVec.ofBool f.n ++ BitVec.ofBool f.v ++ BitVec.ofBool bh ++ BitVec.ofBool bl
    ++ BitVec.ofBool f.d ++ BitVec.ofBool f.i ++ BitVec.ofBool f.z ++ BitVec.ofBool f.c

/-- The flags of `UnpackP(b)`: six from the byte, both Break sub-flags 0 (R13). -/
def unpackFlags (b : Byte) : Flags where
  c   := b.getLsbD 0
  z   := b.getLsbD 1
  i   := b.getLsbD 2
  d   := b.getLsbD 3
  bhi := false
  blo := false
  v   := b.getLsbD 6
  n   := b.getLsbD 7

/-- `UnpackP(b)` (R13). -/
def unpackP (b : Byte) (s : State) : State := s.setFlags (unpackFlags b)

/-- A carry bit as a byte at bit position `k`. -/
def carryAt (k : Nat) (c : Bool) : Byte := if c then 1 <<< k else 0

/-- ASL's function: result and carry out (`42_shift_rotate.md` R221). -/
def shiftAsl (v : Byte) : Byte × Bool := (v <<< 1, v.getLsbD 7)

/-- LSR's function (R222). -/
def shiftLsr (v : Byte) : Byte × Bool := (v >>> 1, v.getLsbD 0)

/-- ROL's function (R223). -/
def shiftRol (c : Bool) (v : Byte) : Byte × Bool := ((v <<< 1) ||| carryAt 0 c, v.getLsbD 7)

/-- ROR's function (R224). -/
def shiftRor (c : Bool) (v : Byte) : Byte × Bool := ((v >>> 1) ||| carryAt 7 c, v.getLsbD 0)

end Sys2Proof.Machine
end

