-- ==== Sys2Proof/Machine/Ppu.lean ====
section
/-! DEFINITION. The PPU register model (`20_memory.md` R91 to R102): control register, address latch, data port, VRAM and
palette mirroring. -/

namespace Sys2Proof.Machine

/-- The four regions of the PPU address map (`20_memory.md` R102). -/
inductive PpuRegion where
  | pattern
  | nametable
  | unused
  | palette
deriving DecidableEq, Repr

/-- The region of a PPU address (R102). -/
def ppuRegion (a : PpuAddr) : PpuRegion :=
  if a.toNat ≤ 0x1FFF then .pattern
  else if a.toNat ≤ 0x2FFF then .nametable
  else if a.toNat ≤ 0x3EFF then .unused
  else .palette

/-- `write_control(v)` (R91). -/
def writeControl (v : Byte) (s : State) : State := s.setPpuCtrl v

/-- The address register after the high byte is set to `v`: the low byte stays, and 14 bits hold the result, which is the
mask 0x3FFF of R92. -/
def latchHigh (v : Byte) (a : PpuAddr) : PpuAddr := (v.setWidth 14 <<< 8) ||| (a &&& 0x00FF)

/-- The address register after the low byte is set to `v`: the high bits stay (R92). -/
def latchLow (v : Byte) (a : PpuAddr) : PpuAddr := (a &&& 0x3F00) ||| v.setWidth 14

/-- `write_address_latch(v)`: the two-write protocol, high byte first (R92). -/
def writeAddressLatch (v : Byte) (s : State) : State :=
  (if s.ppuLatchHi then s.setPpuAddr (latchHigh v s.ppuAddr) else s.setPpuAddr (latchLow v s.ppuAddr)).setPpuLatchHi
    (!s.ppuLatchHi)

/-- The latch reset (R93): what construction does; no Bus access and no host operation performs it afterwards. -/
def resetLatch (s : State) : State := s.setPpuLatchHi true

/-- The step of the address per data access: bit 2 of the control register (R94, `10_state.md` R43). -/
def addressStep (ctrl : Byte) : PpuAddr := if ctrl.getLsbD 2 then 32 else 1

/-- `increment_address()`, wrapping in 14 bits (R94). -/
def incrementAddress (s : State) : State := s.setPpuAddr (s.ppuAddr + addressStep s.ppuCtrl)

/-- `ChrRead(a)`: `chr[a]` with a cartridge and `a < |chr|`, else nothing (R97). -/
def chrRead (cart : Option Cartridge) (a : PpuAddr) : Option Byte :=
  match cart with
  | some c => c.chr[a.toNat]?
  | none => none

/-- `Mirror(a)` for a nametable address: the VRAM index, or nothing where R98 faults. -/
def mirror (cart : Option Cartridge) (a : PpuAddr) : Option Nat :=
  let off := a.toNat - 0x2000
  let t := off >>> 10
  match cart.map Cartridge.mirroring with
  | some .vertical => some (if 2 ≤ t then off - 0x800 else off)
  | some .horizontal => some (if t = 0 then off else if t = 3 then off - 0x800 else off - 0x400)
  | some .fourScreen => if 0x800 ≤ off then none else some off
  | none => none

/-- `PalIndex(a)`: the palette index, the four mirrored entries 0x10 lower (R100). -/
def palIndex (a : PpuAddr) : Nat :=
  let i := (a.toNat - 0x3F00) &&& 0x1F
  if i = 0x10 ∨ i = 0x14 ∨ i = 0x18 ∨ i = 0x1C then i - 0x10 else i

/-- The buffered read of `readData`: the old buffer is the result, the byte at the address refills it (R95). -/
def refillBuffer (reg : Addr) (s : State) (v : Option Byte) : Res Byte :=
  match v with
  | some b => .ok s.ppuBuf (incrementAddress (s.setPpuBuf b))
  | none => .fault (.addressPpu reg s.ppuAddr .read)

/-- `read_data()`, reached through the CPU address `reg` (R95, R97 to R100). -/
def readData (reg : Addr) (s : State) : Res Byte :=
  match ppuRegion s.ppuAddr with
  | .pattern => refillBuffer reg s (chrRead s.cfg.cart s.ppuAddr)
  | .nametable => refillBuffer reg s ((mirror s.cfg.cart s.ppuAddr).map s.vram.read)
  | .unused => .fault (.addressPpu reg s.ppuAddr .read)
  | .palette => .ok (s.palette.read (palIndex s.ppuAddr)) (incrementAddress s)

/-- `write_data(v)`, reached through the CPU address `reg` (R96 to R100). -/
def writeData (reg : Addr) (v : Byte) (s : State) : Res Unit :=
  match ppuRegion s.ppuAddr with
  | .pattern => .fault (.readOnlyPpu s.ppuAddr)
  | .nametable =>
    match mirror s.cfg.cart s.ppuAddr with
    | some i => .ok () (incrementAddress (s.setVram (s.vram.write i v)))
    | none => .fault (.addressPpu reg s.ppuAddr .write)
  | .unused => .fault (.addressPpu reg s.ppuAddr .write)
  | .palette => .ok () (incrementAddress (s.setPalette (s.palette.write (palIndex s.ppuAddr) v)))

end Sys2Proof.Machine
end

