-- ==== Sys2Proof/Machine/Bus.lean ====
section
/-! DEFINITION. The Bus (`20_memory.md` R60 to R75): the address-space multiplexer with mirroring, and the stack
primitives over it (`00_scope.md` R12). -/

namespace Sys2Proof.Machine

/-- The windows of the CPU address space (`20_memory.md` R110). -/
inductive Window where
  | ram
  | ppu
  | unmapped
  | prg
deriving DecidableEq, Repr

/-- The window a CPU address belongs to (R62, R64, R65, R67, R72). -/
def windowOf (a : Addr) : Window :=
  if a.toNat < 0x2000 then .ram
  else if a.toNat < 0x4000 then .ppu
  else if a.toNat < 0x8000 then .unmapped
  else .prg

/-- The RAM cell of an address in the RAM window: mask to 11 bits (R64). -/
def ramIndex (a : Addr) : Nat := (a &&& 0x07FF).toNat

/-- The PPU register index of an address in the PPU window: mask to 3 bits (R65). -/
def regIndex (a : Addr) : Nat := (a &&& 0x0007).toNat

/-- `RamRead(a)` (R64). -/
def ramRead (a : Addr) (s : State) : Byte := s.ram.read (ramIndex a)

/-- `RamWrite(a, v)` (R64). -/
def ramWrite (a : Addr) (v : Byte) (s : State) : State := s.setRam (s.ram.write (ramIndex a) v)

/-- `PpuRegRead`: only index 7, the data register, can be read (R66). -/
def ppuRegRead (a : Addr) (s : State) : Res Byte :=
  if regIndex a = 7 then readData a s else .fault (.addressCpu a .read)

/-- `PpuRegWrite`: index 0 control, 6 address, 7 data (R70). -/
def ppuRegWrite (a : Addr) (v : Byte) (s : State) : Res Unit :=
  if regIndex a = 0 then .ok () (writeControl v s)
  else if regIndex a = 6 then .ok () (writeAddressLatch v s)
  else if regIndex a = 7 then writeData a v s
  else .fault (.addressCpu a .write)

/-- The PRG-ROM offset of an address in the PRG-ROM window: a single 16 KB bank is mirrored (R67). -/
def prgOffset (c : Cartridge) (a : Addr) : Nat :=
  if c.prg.length = 16384 then (a.toNat - 0x8000) % 16384 else a.toNat - 0x8000

/-- `PrgRead(a)` (R67). -/
def prgRead (c : Cartridge) (a : Addr) (s : State) : Res Byte :=
  match c.prg[prgOffset c a]? with
  | some b => .ok b s
  | none => .fault (.addressCpu a .read)

/-- The reset-vector cells of a machine without cartridge, else nothing there (R68). -/
def vectorRead (a : Addr) (s : State) : Res Byte :=
  if a = s.cfg.resetVector then .ok s.rv0 s
  else if a = s.cfg.resetVector + 1 then .ok s.rv1 s
  else .fault (.addressCpu a .read)

/-- The reset-vector cells of a machine without cartridge, else nothing there (R69). -/
def vectorWrite (a : Addr) (v : Byte) (s : State) : Res Unit :=
  if a = s.cfg.resetVector then .ok () (s.setRv0 v)
  else if a = s.cfg.resetVector + 1 then .ok () (s.setRv1 v)
  else .fault (.addressCpu a .write)

/-- `BusRead(a)`, the `MemRead(a, 1)` of the pseudocode (R62). -/
def busRead (a : Addr) (s : State) : Res Byte :=
  match windowOf a with
  | .ram => .ok (ramRead a s) s
  | .ppu => ppuRegRead a s
  | .unmapped => .fault (.addressCpu a .read)
  | .prg =>
    match s.cfg.cart with
    | some c => prgRead c a s
    | none => vectorRead a s

/-- `BusWrite(a, v)`, the `MemWrite(a, 1, v)` of the pseudocode (R63). -/
def busWrite (a : Addr) (v : Byte) (s : State) : Res Unit :=
  match windowOf a with
  | .ram => .ok () (ramWrite a v s)
  | .ppu => ppuRegWrite a v s
  | .unmapped => .fault (.addressCpu a .write)
  | .prg =>
    match s.cfg.cart with
    | some _ => .fault (.readOnlyCpu a)
    | none => vectorWrite a v s

/-- The CPU address of the stack cell that SP designates (`00_scope.md` R12). -/
def stackCell (s : State) : Addr := s.cfg.stackBase + zext16 s.sp

/-- `Push(v)`: write at SP, then decrement (`00_scope.md` R12). -/
def push (v : Byte) (s : State) : Res Unit :=
  (busWrite (stackCell s) v s).andThen fun _ t => .ok () (t.setSp (t.sp - 1))

/-- `Pop()`: increment SP, then read (`00_scope.md` R12). -/
def pop (s : State) : Res Byte := busRead (stackCell (s.setSp (s.sp + 1))) (s.setSp (s.sp + 1))

/-- `Push16(v)`: high byte first (`00_scope.md` R12). -/
def push16 (v : Addr) (s : State) : Res Unit :=
  (push (highByte v) s).andThen fun _ t => push (lowByte v) t

/-- `Pop16()`: low byte first (`00_scope.md` R12). -/
def pop16 (s : State) : Res Addr :=
  (pop s).andThen fun lo t => (pop t).andThen fun hi u => .ok (hiLo hi lo) u

end Sys2Proof.Machine
end

