-- ==== Sys2Proof/Machine/Operands.lean ====
section
/-! DEFINITION. The addressing-mode resolver (`30_encoding.md` R144 to R155) and the operand accesses of the handlers (R166). -/

namespace Sys2Proof.Machine

/-- `MemRead(a, 2)`: low byte at `a`, then high byte at `a + 1` modulo 65536 (`00_scope.md` R9). -/
def readWord (a : Addr) (s : State) : Res Addr :=
  (busRead a s).andThen fun lo t => (busRead (a + 1) t).andThen fun hi u => .ok (hiLo hi lo) u

/-- The address of the second byte of a JMP pointer: in the page of the first (R151). -/
def samePageNext (p : Addr) : Addr := (p &&& 0xFF00) ||| ((p + 1) &&& 0x00FF)

/-- The two bytes of a JMP pointer, with the page-boundary bug (R151). -/
def readPointer (p : Addr) (s : State) : Res Addr :=
  (busRead p s).andThen fun lo t => (busRead (samePageNext p) t).andThen fun hi u => .ok (hiLo hi lo) u

/-- The two bytes of a zero-page pointer, the second inside page 0 too (R152, R153). -/
def readZeroPagePointer (z : Byte) (s : State) : Res Addr :=
  (busRead (zext16 z) s).andThen fun lo t => (busRead (zext16 (z + 1)) t).andThen fun hi u => .ok (hiLo hi lo) u

/-- `Addr(mode)`, with PC at the first operand byte (R144, R146 to R155). -/
def addr (m : Mode) (s : State) : Res Addr :=
  match m with
  | .immediate => .ok s.pc s
  | .zeroPage => (busRead s.pc s).andThen fun b t => .ok (zext16 b) t
  | .zeroPageX => (busRead s.pc s).andThen fun b t => .ok (zext16 (b + t.x)) t
  | .zeroPageY => (busRead s.pc s).andThen fun b t => .ok (zext16 (b + t.y)) t
  | .absolute => readWord s.pc s
  | .absoluteX => (readWord s.pc s).andThen fun w t => .ok (w + zext16 t.x) t
  | .absoluteY => (readWord s.pc s).andThen fun w t => .ok (w + zext16 t.y) t
  | .indirect => (readWord s.pc s).andThen fun p t => readPointer p t
  | .indirectX => (busRead s.pc s).andThen fun b t => readZeroPagePointer (b + t.x) t
  | .indirectY => (busRead s.pc s).andThen fun b t =>
      (readZeroPagePointer b t).andThen fun w u => .ok (w + zext16 u.y) u
  | .relative => (busRead s.pc s).andThen fun o t => .ok (t.pc + 1 + sext16 o) t
  | .accumulator => .fault (.resolverMisuse .accumulator)
  | .noneAddressing => .fault (.resolverMisuse .noneAddressing)

/-- The data access of a read instruction: `MemRead(Addr(mode), 1)` (R166). -/
def readOperand (m : Mode) (s : State) : Res Byte :=
  (addr m s).andThen fun a t => busRead a t

/-- The data access of a write instruction: `MemWrite(Addr(mode), 1, v)`, no read (R166). -/
def writeOperand (m : Mode) (v : Byte) (s : State) : Res Unit :=
  (addr m s).andThen fun a t => busWrite a v t

/-- The data accesses of a read-modify-write instruction: one read, then one write of `f` of it to the same address; the
result is the byte that was read (R166). -/
def modifyOperand (m : Mode) (f : Byte → Byte) (s : State) : Res Byte :=
  (addr m s).andThen fun a t => (busRead a t).andThen fun v u => (busWrite a (f v) u).andThen fun _ w => .ok v w

end Sys2Proof.Machine
end

