-- ==== Sys2Proof/Machine/Arith.lean ====
section
/-! DEFINITION. Arithmetic, logic, compare, increment and decrement (`41_arithmetic_logic.md` R190 to R208). No handler
writes PC. -/

namespace Sys2Proof.Machine

/-- ADC (R191). -/
def execAdc (m : Mode) (s : State) : Result := (readOperand m s).run fun v t => addWithCarry v t

/-- SBC: the adder on the inverted operand (R192). -/
def execSbc (m : Mode) (s : State) : Result := (readOperand m s).run fun v t => addWithCarry (~~~v) t

/-- AND (R193). -/
def execAnd (m : Mode) (s : State) : Result :=
  (readOperand m s).run fun v t => setZN (t.a &&& v) (t.setA (t.a &&& v))

/-- ORA (R194). -/
def execOra (m : Mode) (s : State) : Result :=
  (readOperand m s).run fun v t => setZN (t.a ||| v) (t.setA (t.a ||| v))

/-- EOR (R196). -/
def execEor (m : Mode) (s : State) : Result :=
  (readOperand m s).run fun v t => setZN (t.a ^^^ v) (t.setA (t.a ^^^ v))

/-- CMP (R199). -/
def execCmp (m : Mode) (s : State) : Result := (readOperand m s).run fun v t => compareReg t.a v t

/-- CPX (R200). -/
def execCpx (m : Mode) (s : State) : Result := (readOperand m s).run fun v t => compareReg t.x v t

/-- CPY (R201). -/
def execCpy (m : Mode) (s : State) : Result := (readOperand m s).run fun v t => compareReg t.y v t

/-- BIT (R202). -/
def execBit (m : Mode) (s : State) : Result := (readOperand m s).run fun v t => bitTest v t

/-- INC (R203). -/
def execInc (m : Mode) (s : State) : Result := (modifyOperand m (· + 1) s).run fun v t => setZN (v + 1) t

/-- DEC (R204). -/
def execDec (m : Mode) (s : State) : Result := (modifyOperand m (· - 1) s).run fun v t => setZN (v - 1) t

/-- INX (R205). -/
def execInx (s : State) : Result := .next (setZN (s.x + 1) (s.setX (s.x + 1)))

/-- INY (R206). -/
def execIny (s : State) : Result := .next (setZN (s.y + 1) (s.setY (s.y + 1)))

/-- DEX (R207). -/
def execDex (s : State) : Result := .next (setZN (s.x - 1) (s.setX (s.x - 1)))

/-- DEY (R208). -/
def execDey (s : State) : Result := .next (setZN (s.y - 1) (s.setY (s.y - 1)))

end Sys2Proof.Machine
end

