-- ==== Sys2Proof/Machine/Control.lean ====
section
/-! DEFINITION. Control flow (`43_control_flow.md` R230 to R243): the only handlers that write PC. -/

namespace Sys2Proof.Machine

/-- The eight branches (R230): the target is resolved only when the condition holds. -/
def branchIf (cond : Bool) (s : State) : Result :=
  if cond then (addr .relative s).run fun target t => t.setPc target else .next s

/-- BCC (R231). -/
def execBcc (s : State) : Result := branchIf (!s.flags.c) s

/-- BCS (R232). -/
def execBcs (s : State) : Result := branchIf s.flags.c s

/-- BEQ (R233). -/
def execBeq (s : State) : Result := branchIf s.flags.z s

/-- BNE (R234). -/
def execBne (s : State) : Result := branchIf (!s.flags.z) s

/-- BMI (R235). -/
def execBmi (s : State) : Result := branchIf s.flags.n s

/-- BPL (R236). -/
def execBpl (s : State) : Result := branchIf (!s.flags.n) s

/-- BVC (R237). -/
def execBvc (s : State) : Result := branchIf (!s.flags.v) s

/-- BVS (R238). -/
def execBvs (s : State) : Result := branchIf s.flags.v s

/-- JMP (R239). -/
def execJmp (m : Mode) (s : State) : Result := (addr m s).run fun target t => t.setPc target

/-- JSR: the target is resolved, then the address of the last byte of the instruction is pushed (R240). -/
def execJsr (s : State) : Result :=
  ((addr .absolute s).andThen fun target t => (push16 (t.pc + 1) t).andThen fun _ u => .ok target u).run
    fun target u => u.setPc target

/-- RTS (R241). -/
def execRts (s : State) : Result := (pop16 s).run fun r t => t.setPc (r + 1)

/-- RTI: the status byte as PLP, then PC with no increment (R242). -/
def execRti (s : State) : Result :=
  ((pop s).andThen fun b t => pop16 (unpackP b t)).run fun r u => u.setPc r

end Sys2Proof.Machine
end

