-- ==== Sys2Proof/Machine/LoadStore.lean ====
section
/-! DEFINITION. Load, store and register transfer (`40_load_store_transfer.md` R170 to R182). Every handler runs with PC at
the byte after the opcode (pcBefore) and leaves PC there; the step loop advances it. -/

namespace Sys2Proof.Machine

/-- LDA (R171). -/
def execLda (m : Mode) (s : State) : Result := (readOperand m s).run fun v t => setZN v (t.setA v)

/-- LDX (R172). -/
def execLdx (m : Mode) (s : State) : Result := (readOperand m s).run fun v t => setZN v (t.setX v)

/-- LDY (R173). -/
def execLdy (m : Mode) (s : State) : Result := (readOperand m s).run fun v t => setZN v (t.setY v)

/-- STA (R174). -/
def execSta (m : Mode) (s : State) : Result := (writeOperand m s.a s).run fun _ t => t

/-- STX (R175). -/
def execStx (m : Mode) (s : State) : Result := (writeOperand m s.x s).run fun _ t => t

/-- STY (R176). -/
def execSty (m : Mode) (s : State) : Result := (writeOperand m s.y s).run fun _ t => t

/-- TAX (R177). -/
def execTax (s : State) : Result := .next (setZN s.a (s.setX s.a))

/-- TAY (R178). -/
def execTay (s : State) : Result := .next (setZN s.a (s.setY s.a))

/-- TXA (R179). -/
def execTxa (s : State) : Result := .next (setZN s.x (s.setA s.x))

/-- TYA (R180). -/
def execTya (s : State) : Result := .next (setZN s.y (s.setA s.y))

/-- TSX (R181). -/
def execTsx (s : State) : Result := .next (setZN s.sp (s.setX s.sp))

/-- TXS: the one transfer that sets no flag (R182). -/
def execTxs (s : State) : Result := .next (s.setSp s.x)

end Sys2Proof.Machine
end

