-- ==== Sys2Proof/Machine/Shift.lean ====
section
/-! DEFINITION. Shift and rotate (`42_shift_rotate.md` R220 to R224). -/

namespace Sys2Proof.Machine

/-- The common form (R220): on A without any Bus access, or one read and one write of a memory operand; C from the
function, Z and N from its result. -/
def shiftForm (m : Mode) (f : Byte → Byte × Bool) (s : State) : Result :=
  if m = .accumulator then .next (setZN (f s.a).1 ((setCarry (f s.a).2 s).setA (f s.a).1))
  else (modifyOperand m (fun v => (f v).1) s).run fun v t => setZN (f v).1 (setCarry (f v).2 t)

/-- ASL (R221). -/
def execAsl (m : Mode) (s : State) : Result := shiftForm m shiftAsl s

/-- LSR (R222). -/
def execLsr (m : Mode) (s : State) : Result := shiftForm m shiftLsr s

/-- ROL (R223). -/
def execRol (m : Mode) (s : State) : Result := shiftForm m (shiftRol s.flags.c) s

/-- ROR (R224). -/
def execRor (m : Mode) (s : State) : Result := shiftForm m (shiftRor s.flags.c) s

end Sys2Proof.Machine
end

