-- ==== Sys2Proof/Machine/StackFlags.lean ====
section
/-! DEFINITION. Stack, flag and system instructions (`44_stack_flags_system.md` R250 to R263). -/

namespace Sys2Proof.Machine

/-- PHA (R250). -/
def execPha (s : State) : Result := (push s.a s).run fun _ t => t

/-- PLA (R251). -/
def execPla (s : State) : Result := (pop s).run fun v t => setZN v (t.setA v)

/-- PHP: both Break bits set in the pushed byte, the live ones unchanged (R252). -/
def execPhp (s : State) : Result := (push (packP true true s.flags) s).run fun _ t => t

/-- PLP (R253). -/
def execPlp (s : State) : Result := (pop s).run fun b t => unpackP b t

/-- CLC (R254). -/
def execClc (s : State) : Result := .next (setCarry false s)

/-- SEC (R255). -/
def execSec (s : State) : Result := .next (setCarry true s)

/-- CLI (R256). -/
def execCli (s : State) : Result := .next (s.setFlags { s.flags with i := false })

/-- SEI (R257). -/
def execSei (s : State) : Result := .next (s.setFlags { s.flags with i := true })

/-- CLD (R258). -/
def execCld (s : State) : Result := .next (s.setFlags { s.flags with d := false })

/-- SED (R259). -/
def execSed (s : State) : Result := .next (s.setFlags { s.flags with d := true })

/-- CLV (R260). -/
def execClv (s : State) : Result := .next (s.setFlags { s.flags with v := false })

/-- NOP (R262). -/
def execNop (s : State) : Result := .next s

/-- The halt opcode (R263). -/
def execBrk (s : State) : Result := .next (takeHalt s)

end Sys2Proof.Machine
end

