-- ==== Sys2Proof/Machine/Undoc.lean ====
section
/-! DEFINITION. Undocumented opcodes (`45_undocumented.md` R270 to R280). -/

namespace Sys2Proof.Machine

/-- The NOP alias with byte `op`: nothing, whatever the byte; no operand byte is read (R271). -/
def execNopAlias (_op : Byte) (s : State) : Result := .next s

/-- The SBC alias 0xEB, mode Immediate (R272). -/
def execSbcAlias (s : State) : Result := (readOperand .immediate s).run fun v t => addWithCarry (~~~v) t

/-- LAX (R273). -/
def execLax (m : Mode) (s : State) : Result := (readOperand m s).run fun v t => setZN v ((t.setA v).setX v)

/-- SAX (R274). -/
def execSax (m : Mode) (s : State) : Result := (writeOperand m (s.a &&& s.x) s).run fun _ t => t

/-- DCP: decrement, then compare A with the result (R275). -/
def execDcp (m : Mode) (s : State) : Result := (modifyOperand m (· - 1) s).run fun v t => compareReg t.a (v - 1) t

/-- ISB: increment, then subtract the result (R276). -/
def execIsb (m : Mode) (s : State) : Result := (modifyOperand m (· + 1) s).run fun v t => addWithCarry (~~~(v + 1)) t

/-- SLO: ASL, then ORA with the result (R277). -/
def execSlo (m : Mode) (s : State) : Result :=
  (modifyOperand m (fun v => (shiftAsl v).1) s).run fun v t =>
    setZN (t.a ||| (shiftAsl v).1) ((setCarry (shiftAsl v).2 t).setA (t.a ||| (shiftAsl v).1))

/-- RLA: ROL, then AND with the result (R278). -/
def execRla (m : Mode) (s : State) : Result :=
  let f := shiftRol s.flags.c
  (modifyOperand m (fun v => (f v).1) s).run fun v t =>
    setZN (t.a &&& (f v).1) ((setCarry (f v).2 t).setA (t.a &&& (f v).1))

/-- SRE: LSR, then EOR with the result (R279). -/
def execSre (m : Mode) (s : State) : Result :=
  (modifyOperand m (fun v => (shiftLsr v).1) s).run fun v t =>
    setZN (t.a ^^^ (shiftLsr v).1) ((setCarry (shiftLsr v).2 t).setA (t.a ^^^ (shiftLsr v).1))

/-- RRA: ROR, then ADC with the result; the carry out of the rotate is the carry into the add (R280). -/
def execRra (m : Mode) (s : State) : Result :=
  let f := shiftRor s.flags.c
  (modifyOperand m (fun v => (f v).1) s).run fun v t => addWithCarry (f v).1 (setCarry (f v).2 t)

end Sys2Proof.Machine
end

