-- ==== Sys2Proof/Machine/Fetch.lean ====
section
/-! DEFINITION. What the step does around a handler (`30_encoding.md` R162 to R164): fetch, lookup, PC advance; and the
placing of an instruction where the next fetch reads. -/

namespace Sys2Proof.Machine

/-- Apply `f` to the next state, if there is one. -/
def mapNext (f : State → State) : Result → Result
  | .next s => .next (f s)
  | .fault r => .fault r
  | .refused r => .refused r

/-- Fetch: one byte at PC through the Bus, then PC + 1 modulo 65536 (R162). -/
def fetchOpcode (s : State) : Res Byte :=
  (busRead s.pc s).andThen fun op t => .ok op (t.setPc (t.pc + 1))

/-- The PC advance: an equality test on PC, not a record of whether the handler assigned it (R164, R165). -/
def advancePc (i : Instr) (pcBefore : Addr) (s : State) : State :=
  if s.pc = pcBefore then s.setPc (s.pc + BitVec.ofNat 16 (instrLength i - 1)) else s

/-- Execute the instruction of a fetched opcode byte and advance PC (R164). -/
def executeOpcode (i : Instr) (s : State) : Result := mapNext (advancePc i s.pc) (exec i s)

/-- One step in run state Running (R162 to R164). The halt byte is tested before the table, inside `decodeOpcode`; its
length is 1, so the advance adds nothing after it. `opcodePc` is the opcode's address. -/
def stepRunning (s : State) : Result :=
  match fetchOpcode s with
  | .fault f => .fault f
  | .ok op t =>
    match decodeOpcode t.cfg.undoc op with
    | none => .fault (.unknownOpcode op s.pc)
    | some i => executeOpcode i t

/-- A byte can be placed at a CPU address so that a fetch there reads it: RAM, PRG-ROM of the attached cartridge, or a
reset-vector cell. -/
def canPlace (a : Addr) (s : State) : Bool :=
  match windowOf a with
  | .ram => true
  | .ppu | .unmapped => false
  | .prg =>
    match s.cfg.cart with
    | some c => decide (prgOffset c a < c.prg.length)
    | none => decide (a = s.cfg.resetVector ∨ a = s.cfg.resetVector + 1)

/-- The attached cartridge with byte `v` at the PRG-ROM offset of `a`. -/
def placeInPrg (c : Cartridge) (a : Addr) (v : Byte) (s : State) : State :=
  { s with cfg := { s.cfg with cart := some { c with prg := c.prg.set (prgOffset c a) v } } }

/-- Place one byte. -/
def placeByte (a : Addr) (v : Byte) (s : State) : State :=
  match windowOf a with
  | .ram => ramWrite a v s
  | .ppu | .unmapped => s
  | .prg =>
    match s.cfg.cart with
    | some c => placeInPrg c a v s
    | none => if a = s.cfg.resetVector then s.setRv0 v else if a = s.cfg.resetVector + 1 then s.setRv1 v else s

/-- Place bytes at ascending addresses. -/
def placeBytes : List Byte → Addr → State → State
  | [], _, s => s
  | b :: rest, a, s => placeBytes rest (a + 1) (placeByte a b s)

/-- Where an instruction is placed: at PC when the bytes of the longest instruction fit there, else at 0x0000 in RAM. -/
def placePc (s : State) : Addr :=
  if canPlace s.pc s && canPlace (s.pc + 1) s && canPlace (s.pc + 2) s then s.pc else 0x0000

/-- The configuration with the opcode table at a level that registers `op`. -/
def registering (op : Byte) (s : State) : State :=
  { s with cfg := { s.cfg with undoc := max s.cfg.undoc (minLevel op) } }

/-- All that a fetch of the bytes of `w` takes: run state Running, PC where they lie, the bytes, and a level that registers
the opcode byte. -/
def placeInstruction (nbits w : Nat) (s : State) : State :=
  registering (BitVec.ofNat 8 (w % 2 ^ nbits))
    (placeBytes (tableBytes nbits w) (placePc s) ((s.setPc (placePc s)).setRun .running))

end Sys2Proof.Machine
end

