-- ==== Sys2Proof/Machine/Step.lean ====
section
/-! DEFINITION. The step (`70_reset_and_hazards.md` R337), enabled only in run state Running (R333). -/

namespace Sys2Proof.Machine

/-- One step. In any other run state there is no transition: the step is refused by name. -/
def step (s : State) : Host.Outcome State Fault Refusal :=
  match s.run with
  | .running => stepRunning s
  | .powerOn | .reset | .halted | .faulted _ => .refused (.notEnabled .step s.run)

/-- The state in which the next step fetches and runs the instruction whose bits are `w` (log entry 4). -/
def State.withFetchWord (s : State) (nbits w : Nat) : State := placeInstruction nbits w s

end Sys2Proof.Machine
end

