-- ==== Sys2Proof/Machine/Loader.lean ====
section
/-! DEFINITION. What happens before a machine exists: the cartridge loader (`20_memory.md` R80 to R90), the construction of
the opcode table (`60_exceptions.md` R309) and the construction of a machine (`70_reset_and_hazards.md` R330). -/

namespace Sys2Proof.Machine

/-- The magic tag: "NES" and 0x1A (R81, R82). -/
def inesMagic : List Byte := [0x4E, 0x45, 0x53, 0x1A]

/-- The mapper id, from the high nibbles of bytes 7 and 6 (R83). -/
def mapperOf (b6 b7 : Byte) : Byte := (b7 &&& (0xF0 : Byte)) ||| (b6 >>> 4)

/-- The format version, bits 3:2 of byte 7 (R84). -/
def versionOf (b7 : Byte) : BitVec 2 := b7.extractLsb' 2 2

/-- The mirroring mode, bits 3 and 0 of byte 6 (R85). -/
def mirroringOf (b6 : Byte) : Mirroring :=
  if b6.getLsbD 3 then .fourScreen else if b6.getLsbD 0 then .vertical else .horizontal

/-- The offset of PRG-ROM: after the 16-byte header and the optional 512-byte trainer (R87). -/
def prgStart (b6 : Byte) : Nat := 16 + if b6.getLsbD 2 then 512 else 0

/-- The two slices of a buffer whose header has passed its checks (R86 to R88). -/
def sliceCartridge (buf : List Byte) (b4 b5 b6 : Byte) : Except Fault Cartridge :=
  let prgSize := b4.toNat * 16384
  let chrSize := b5.toNat * 8192
  let chrStart := prgStart b6 + prgSize
  if buf.length < chrStart + chrSize then .error (.invalidFormat .sliceOutOfRange)
  else .ok
    { prg := (buf.drop (prgStart b6)).take prgSize
      chr := (buf.drop chrStart).take chrSize
      mapper := 0
      mirroring := mirroringOf b6 }

/-- `ParseCartridge(buf)`; the checks in the order magic, length, mapper, version, slices (R80, R90). Bytes 8 to 15, bit 1 of
byte 6, bits 1:0 of byte 7 and bytes after CHR-ROM are ignored (R89, R88). -/
def parseCartridge (buf : List Byte) : Except Fault Cartridge :=
  if buf.take 4 ≠ inesMagic then .error (.invalidFormat .badMagic)
  else
    match buf.drop 4 with
    | b4 :: b5 :: b6 :: b7 :: _ =>
      if mapperOf b6 b7 ≠ 0 then .error (.unsupportedMapper (mapperOf b6 b7))
      else if versionOf b7 ≠ 0 then .error (.invalidFormat (.badVersion (versionOf b7)))
      else sliceCartridge buf b4 b5 b6
    | _ => .error (.invalidFormat .sliceOutOfRange)

/-- Register entries one after another; the first one whose byte is registered already is fatal (`60_exceptions.md` R309). -/
def registerTable : List Entry → List Entry → Except Fault (List Entry)
  | done, [] => .ok done
  | done, e :: rest =>
    if done.any (fun d => d.opcode == e.opcode) then .error (.duplicateOpcodeRegistration e.opcode)
    else registerTable (done ++ [e]) rest

/-- The entries of this spec's table at a level (`30_encoding.md` R158, `45_undocumented.md` R270). -/
def tableAt (level : UndocLevel) : List Entry := opcodeTable.filter fun e => decide (e.level ≤ level)

/-- What the spec leaves unspecified at power-on: the launch parameters `ram0`, `vram0`, `pal0`, `oam0`, `rv0` and the CPU
registers and flags before the first reset (`10_state.md` R35 to R37, R45 to R47). -/
structure Launch where
  ram     : Memory
  rv0     : Byte
  rv1     : Byte
  vram    : Memory
  palette : Memory
  oam     : Memory
  a       : Byte
  x       : Byte
  y       : Byte
  sp      : Byte
  pc      : Addr
  flags   : Flags
deriving DecidableEq, Repr

/-- Construction: run state PowerOn, the PPU registers at their power-on values, everything else as launched
(`70_reset_and_hazards.md` R330, `10_state.md` R50). -/
def powerOn (cfg : Config) (l : Launch) : State where
  a          := l.a
  x          := l.x
  y          := l.y
  sp         := l.sp
  pc         := l.pc
  flags      := l.flags
  run        := .powerOn
  ram        := l.ram
  rv0        := l.rv0
  rv1        := l.rv1
  ppuAddr    := 0x0000
  ppuLatchHi := true
  ppuCtrl    := 0x00
  ppuBuf     := 0x00
  vram       := l.vram
  palette    := l.palette
  oam        := l.oam
  cfg        := cfg

end Sys2Proof.Machine
end

