-- ==== Sys2Proof/Machine/Session.lean ====
section
/-! DEFINITION. The host surface (`70_reset_and_hazards.md` R331 to R340): reset, load, step with its signal, memory read,
inspection, and what a session keeps of a fault. -/

namespace Sys2Proof.Machine

/-- The CPU registers and flags zeroed (R331); run state Reset while the vector is read (`10_state.md` R34). -/
def zeroCpu (s : State) : State :=
  ((((((s.setA 0).setX 0).setY 0).setSp 0).setFlags Flags.zero).setRun .reset)

/-- Read the reset vector, low byte first (R331, `20_memory.md` R106). -/
def readVector (s : State) : Res Addr :=
  (busRead s.cfg.resetVector s).andThen fun lo t =>
    (busRead (s.cfg.resetVector + 1) t).andThen fun hi u => .ok (hiLo hi lo) u

/-- The reset operation itself (R331). -/
def doReset (s : State) : Result := (readVector (zeroCpu s)).run fun v t => (t.setPc v).setRun .running

/-- `Reset()`, enabled in PowerOn, Running and Halted (R333). -/
def hostReset (s : State) : Result :=
  match s.run with
  | .powerOn | .running | .halted => doReset s
  | .reset | .faulted _ => .refused (.notEnabled .reset s.run)

/-- Write an image at ascending addresses through the Bus (R336). -/
def writeImage : List Byte → Addr → State → Res Unit
  | [], _, s => .ok () s
  | b :: rest, a, s => (busWrite a b s).andThen fun _ t => writeImage rest (a + 1) t

/-- The load itself: the image, then the reset vector at the load base, low byte first (R336). -/
def doLoad (loadBase : Addr) (image : List Byte) (s : State) : Res Unit :=
  (writeImage image loadBase s).andThen fun _ t =>
    (busWrite t.cfg.resetVector (lowByte loadBase) t).andThen fun _ u =>
      busWrite (u.cfg.resetVector + 1) (highByte loadBase) u

/-- `Load(image)` at `LOAD_BASE`, enabled with no cartridge in PowerOn, Running and Halted (R333, R336). -/
def hostLoad (loadBase : Addr) (image : List Byte) (s : State) : Result :=
  match s.run with
  | .powerOn | .running | .halted =>
    if s.cfg.cart.isSome then .refused .loadWithCartridge else (doLoad loadBase image s).run fun _ t => t
  | .reset | .faulted _ => .refused (.notEnabled .load s.run)

/-- The continue or stop signal of a step (`10_state.md` R34). -/
inductive Signal where
  | continue
  | halted
deriving DecidableEq, Repr

/-- The signal with which a step that ended in state `t` returns. -/
def signalOf (t : State) : Signal := if t.run = .halted then .halted else .continue

/-- The state a session is in after an operation on `s`: the next state; `s` with the fault recorded; or `s`, where the
operation has no transition (R333, `60_exceptions.md` R301). -/
def settle (s : State) (r : Result) : State :=
  match r with
  | .next t => t
  | .fault f => takeFault f s
  | .refused _ => s

/-- `Step()` of the host surface (R337). -/
def hostStep (s : State) : State := settle s (step s)

/-- The memory-read accessor, which is the Bus read with all its effects, enabled in PowerOn, Running and Halted (R339). -/
def hostRead (a : Addr) (s : State) : Host.Outcome (Byte × State) Fault Refusal :=
  match s.run with
  | .powerOn | .running | .halted =>
    match busRead a s with
    | .ok v t => .next (v, t)
    | .fault f => .fault f
  | .reset | .faulted _ => .refused (.notEnabled .memoryRead s.run)

/-- The state a session is in after a memory read by the host (R339, `60_exceptions.md` R301). -/
def settleRead (s : State) (r : Host.Outcome (Byte × State) Fault Refusal) : State :=
  match r with
  | .next p => p.2
  | .fault f => takeFault f s
  | .refused _ => s

/-- What the host can inspect without side effect (R338). -/
structure Inspection where
  a     : Byte
  x     : Byte
  y     : Byte
  sp    : Byte
  pc    : Addr
  flags : Flags
  run   : RunState
deriving DecidableEq, Repr

/-- Register inspection, in every run state (R338, `60_exceptions.md` R302). -/
def inspect (s : State) : Inspection := ⟨s.a, s.x, s.y, s.sp, s.pc, s.flags, s.run⟩

end Sys2Proof.Machine
end

