-- ==== Sys2Proof/Safety.lean ====
section
/-! DEFINITION. The terms in which claims are stated: the invariant of the state, the physical bytes and where a store goes,
the effective address when everything read lies in RAM, and which instructions access what. -/

namespace Sys2Proof.Machine

/-- A cartridge value the loader can have made (`10_state.md` R38, R40). -/
def cartOk : Option Cartridge → Bool
  | none => true
  | some c =>
    decide (c.prg.length % 16384 = 0) && decide (c.prg.length ≤ 255 * 16384)
      && decide (c.chr.length % 8192 = 0) && decide (c.chr.length ≤ 255 * 8192) && decide (c.mapper = 0)

/-- Every byte store is in its canonical form within its size (`10_state.md` R36, R45 to R47), and the cartridge is one the
loader can have made (R38, R40). -/
abbrev State.Inv (s : State) : Prop :=
  s.ram.wf 0x800 = true ∧ s.vram.wf 0x800 = true ∧ s.palette.wf 32 = true ∧ s.oam.wf 256 = true ∧ cartOk s.cfg.cart = true

/-- A physical byte of the machine that can be stored to, and OAM. -/
inductive PhysCell where
  | ram (k : Nat)
  | rv0
  | rv1
  | vram (k : Nat)
  | palette (k : Nat)
  | oam (k : Nat)
deriving DecidableEq, Repr

/-- The byte in a physical cell. -/
def readCell (c : PhysCell) (s : State) : Byte :=
  match c with
  | .ram k => s.ram.read k
  | .rv0 => s.rv0
  | .rv1 => s.rv1
  | .vram k => s.vram.read k
  | .palette k => s.palette.read k
  | .oam k => s.oam.read k

/-- The physical byte that a Bus write to CPU address `a` in state `s` stores to, with the functions `busWrite` itself uses;
`none` where it stores to no byte (the PPU control and address registers, and every write that faults). -/
def storeTarget (a : Addr) (s : State) : Option PhysCell :=
  match windowOf a with
  | .ram => some (.ram (ramIndex a))
  | .ppu =>
    if regIndex a = 7 then
      match ppuRegion s.ppuAddr with
      | .nametable => (mirror s.cfg.cart s.ppuAddr).map .vram
      | .palette => some (.palette (palIndex s.ppuAddr))
      | .pattern | .unused => none
    else none
  | .unmapped => none
  | .prg =>
    if s.cfg.cart.isSome then none
    else if a = s.cfg.resetVector then some .rv0
    else if a = s.cfg.resetVector + 1 then some .rv1
    else none

/-- Every byte of memory reads as before. -/
def SameBytes (s t : State) : Prop := ∀ c, readCell c t = readCell c s

/-- Every byte of memory outside the cell a write to `a` in `u` stores to reads as before. -/
def SameBytesBut (a : Addr) (u s t : State) : Prop := ∀ c, storeTarget a u ≠ some c → readCell c t = readCell c s

/-- The CPU address lies in the RAM window (`20_memory.md` R64). -/
abbrev InRam (a : Addr) : Prop := a.toNat < 0x2000

/-- The 16-bit value at `a`, low byte first, when both bytes lie in RAM. -/
def ramWord (a : Addr) (s : State) : Addr := hiLo (ramRead (a + 1) s) (ramRead a s)

/-- The 16-bit value at zero-page pointer `z`. -/
def ramPointer (z : Byte) (s : State) : Addr := hiLo (ramRead (zext16 (z + 1)) s) (ramRead (zext16 z) s)

/-- The operand address of a mode as a plain expression of the state, when the operand bytes and the pointers lie in RAM
(`30_encoding.md` R146 to R154); PC for the two modes without one. -/
def ramEffective (m : Mode) (s : State) : Addr :=
  match m with
  | .immediate => s.pc
  | .zeroPage => zext16 (ramRead s.pc s)
  | .zeroPageX => zext16 (ramRead s.pc s + s.x)
  | .zeroPageY => zext16 (ramRead s.pc s + s.y)
  | .absolute => ramWord s.pc s
  | .absoluteX => ramWord s.pc s + zext16 s.x
  | .absoluteY => ramWord s.pc s + zext16 s.y
  | .indirect => hiLo (ramRead (samePageNext (ramWord s.pc s)) s) (ramRead (ramWord s.pc s) s)
  | .indirectX => ramPointer (ramRead s.pc s + s.x) s
  | .indirectY => ramPointer (ramRead s.pc s) s + zext16 s.y
  | .relative => s.pc + 1 + sext16 (ramRead s.pc s)
  | .accumulator | .noneAddressing => s.pc

/-- The bytes the resolver reads for a mode lie in RAM: the operand bytes and, for Indirect, the two pointer bytes. -/
abbrev ResolvesInRam (m : Mode) (s : State) : Prop :=
  InRam s.pc ∧ InRam (s.pc + 1) ∧
    (m = .indirect → InRam (ramWord s.pc s) ∧ InRam (samePageNext (ramWord s.pc s)))

/-- Instructions whose handler makes one data access or more at the resolved operand address (`30_encoding.md` R166: the
classes read, write and read-modify-write in memory). -/
def accessesOperand : Instr → Bool
  | .lda _ | .ldx _ | .ldy _ | .sta _ | .stx _ | .sty _
  | .adc _ | .sbc _ | .and _ | .ora _ | .eor _ | .cmp _ | .cpx _ | .cpy _ | .bit _ | .inc _ | .dec _
  | .sbcAlias | .lax _ | .sax _ | .dcp _ | .isb _ | .slo _ | .rla _ | .sre _ | .rra _ => true
  | .asl m | .lsr m | .rol m | .ror m => decide (m ≠ .accumulator)
  | .tax | .tay | .txa | .tya | .tsx | .txs | .inx | .iny | .dex | .dey
  | .bcc | .bcs | .beq | .bne | .bmi | .bpl | .bvc | .bvs | .jmp _ | .jsr | .rts | .rti
  | .pha | .pla | .php | .plp | .clc | .sec | .cli | .sei | .cld | .sed | .clv | .nop | .nopAlias _ | .brk => false

/-- Instructions that write memory at the resolved operand address (`60_exceptions.md` R300). -/
def writesOperand : Instr → Bool
  | .sta _ | .stx _ | .sty _ | .inc _ | .dec _ | .sax _ | .dcp _ | .isb _ | .slo _ | .rla _ | .sre _ | .rra _ => true
  | .asl m | .lsr m | .rol m | .ror m => decide (m ≠ .accumulator)
  | .lda _ | .ldx _ | .ldy _ | .adc _ | .sbc _ | .and _ | .ora _ | .eor _ | .cmp _ | .cpx _ | .cpy _ | .bit _
  | .sbcAlias | .lax _
  | .tax | .tay | .txa | .tya | .tsx | .txs | .inx | .iny | .dex | .dey
  | .bcc | .bcs | .beq | .bne | .bmi | .bpl | .bvc | .bvs | .jmp _ | .jsr | .rts | .rti
  | .pha | .pla | .php | .plp | .clc | .sec | .cli | .sei | .cld | .sed | .clv | .nop | .nopAlias _ | .brk => false

/-- The eight branches with the condition each tests (`43_control_flow.md` R231 to R238). -/
def branchCond (f : Flags) : List (Instr × Bool) :=
  [(.bcc, !f.c), (.bcs, f.c), (.beq, f.z), (.bne, !f.z), (.bmi, f.n), (.bpl, !f.n), (.bvc, !f.v), (.bvs, f.v)]

end Sys2Proof.Machine
end

