-- ==== Sys2Proof/Certificates/Slice0/Obligations.lean ====
section
/-! DEFINITION. The statements about the core. Each says in its docstring which rules of the spec it formalises. -/

open Sys2Proof Sys2Proof.Machine

/-! ### Reset, construction, run state, faults -/

/-- R331, R332: from every run state in which it is enabled, Reset zeroes every CPU register and flag, loads PC little-endian
from two Bus reads at the vector and leaves run state Running; a fault of either read commits none of it. With the vector at
0xFFFC it reads the RV cells without a cartridge, the last bytes but two of PRG-ROM with one, and changes nothing else; an
empty PRG-ROM makes it fault. -/
def Obligations.ResetZeroesCpuAndLoadsVector : Prop :=
  ∀ s : State, (s.run = .powerOn ∨ s.run = .running ∨ s.run = .halted) →
    let zeroed : State := { s with
      a := 0, x := 0, y := 0, sp := 0, run := .reset
      flags := ⟨false, false, false, false, false, false, false, false⟩ }
    let started (v : Addr) : State := { s with
      a := 0, x := 0, y := 0, sp := 0, pc := v, run := .running
      flags := ⟨false, false, false, false, false, false, false, false⟩ }
    (∀ lo hi t u, busRead s.cfg.resetVector zeroed = .ok lo t → busRead (s.cfg.resetVector + 1) t = .ok hi u →
      hostReset s = .next { u with pc := hi ++ lo, run := .running }) ∧
    (∀ f, (busRead s.cfg.resetVector zeroed = .fault f ∨
        ∃ lo t, busRead s.cfg.resetVector zeroed = .ok lo t ∧ busRead (s.cfg.resetVector + 1) t = .fault f) →
      hostReset s = .fault f ∧ settle s (hostReset s) = { s with run := .faulted f }) ∧
    (s.cfg.resetVector = 0xFFFC →
      (s.cfg.cart = none → hostReset s = .next (started (s.rv1 ++ s.rv0))) ∧
      (∀ c lo hi, s.cfg.cart = some c →
        c.prg[if c.prg.length = 16384 then 0x3FFC else 0x7FFC]? = some lo →
        c.prg[if c.prg.length = 16384 then 0x3FFD else 0x7FFD]? = some hi →
        hostReset s = .next (started (hi ++ lo))) ∧
      (∀ c, s.cfg.cart = some c → c.prg = [] →
        settle s (hostReset s) = { s with run := .faulted (.addressCpu 0xFFFC .read) }))

/-- `State.reset` is what Reset makes of a machine constructed with the standard configuration whose stores and vector cells
hold 0x00, whatever its CPU registers held. The contents 0x00 are the model's choice (log entries 1 and 2). -/
def Obligations.StateResetIsResetOfPowerOn : Prop :=
  ∀ (a x y sp : Byte) (pc : Addr) (f : Flags),
    hostReset (powerOn Config.standard ⟨[], 0, 0, [], [], [], a, x, y, sp, pc, f⟩) = .next State.reset

/-- The invariant holds right after reset. -/
def Obligations.InvariantHoldsAtReset : Prop := State.reset.Inv

/-- Every step keeps the invariant: the byte stores stay in canonical form within their sizes, the cartridge stays one the
loader can have made. -/
def Obligations.EveryStepKeepsInvariant : Prop :=
  ∀ s t : State, s.Inv → step s = .next t → t.Inv

/-- R333, the complete list of run-state transitions: what Reset, Load, the host's read and the step do to the run state where
they succeed and where they fault, that each is enabled in the run states the list gives it, and that nothing is enabled in
Faulted and no step outside Running. -/
def Obligations.RunStateTransitionsAreTheList : Prop :=
  ∀ s : State,
    (∀ t, hostReset s = .next t → (s.run = .powerOn ∨ s.run = .running ∨ s.run = .halted) ∧ t.run = .running) ∧
    (∀ base image t, hostLoad base image s = .next t →
      (s.run = .powerOn ∨ s.run = .running ∨ s.run = .halted) ∧ t.run = s.run) ∧
    (∀ a v t, hostRead a s = .next (v, t) →
      (s.run = .powerOn ∨ s.run = .running ∨ s.run = .halted) ∧ t.run = s.run) ∧
    (∀ t, step s = .next t → s.run = .running ∧
      (((∃ u, busRead s.pc s = .ok 0x00 u) ∧ t.run = .halted ∧ signalOf t = .halted) ∨
        ((¬∃ u, busRead s.pc s = .ok 0x00 u) ∧ t.run = .running ∧ signalOf t = .continue))) ∧
    (∀ f, step s = .fault f → s.run = .running ∧ settle s (step s) = { s with run := .faulted f }) ∧
    (∀ f, hostReset s = .fault f → settle s (hostReset s) = { s with run := .faulted f }) ∧
    (∀ base image f, hostLoad base image s = .fault f →
      settle s (hostLoad base image s) = { s with run := .faulted f }) ∧
    (∀ a f, hostRead a s = .fault f → settleRead s (hostRead a s) = { s with run := .faulted f }) ∧
    ((s.run = .powerOn ∨ s.run = .running ∨ s.run = .halted) → ∀ q,
      hostReset s ≠ .refused q ∧ (s.cfg.cart = none → ∀ base image, hostLoad base image s ≠ .refused q) ∧
      ∀ a, hostRead a s ≠ .refused q) ∧
    (s.run = .running → ∀ q, step s ≠ .refused q) ∧
    (s.run ≠ .running → step s = .refused (.notEnabled .step s.run)) ∧
    (∀ f, s.run = .faulted f →
      hostReset s = .refused (.notEnabled .reset s.run) ∧
      (∀ base image, hostLoad base image s = .refused (.notEnabled .load s.run)) ∧
      (∀ a, hostRead a s = .refused (.notEnabled .memoryRead s.run)))

/-- R301: whatever operation of the host surface faults, the state afterwards is the state before it, but for the run state,
which records the fault; the registers can still be inspected, and a later step changes nothing. -/
def Obligations.FaultCommitsNothing : Prop :=
  ∀ (s : State) (f : Fault),
    (step s = .fault f → hostStep s = { s with run := .faulted f }) ∧
    (hostReset s = .fault f → settle s (hostReset s) = { s with run := .faulted f }) ∧
    (∀ base image, hostLoad base image s = .fault f →
      settle s (hostLoad base image s) = { s with run := .faulted f }) ∧
    (∀ a, hostRead a s = .fault f → settleRead s (hostRead a s) = { s with run := .faulted f }) ∧
    (inspect { s with run := .faulted f } = ⟨s.a, s.x, s.y, s.sp, s.pc, s.flags, .faulted f⟩ ∧
      hostStep { s with run := .faulted f } = { s with run := .faulted f })

/-! ### Encoding and the opcode table -/

/-- For every well-formed instruction, with every operand byte, and every level that registers its byte: decoding what it
encodes to, followed by any bytes, gives it back and leaves those bytes. -/
def Obligations.DecodeOfEncodeGivesInstructionBack : Prop :=
  ∀ (c : Code) (rest : List Byte), c.wf = true →
    ∃ op, encode c = some (op :: c.operand) ∧
      ∀ level : UndocLevel, minLevel op ≤ level → decode level (op :: c.operand ++ rest) = .ok (c, rest)

/-- The other direction: whatever bytes decode at whatever level, they decode to a well-formed instruction, and its encoding
followed by the rest is those bytes, so that no two byte sequences decode to the same instruction and rest. -/
def Obligations.DecodedBytesEncodeBack : Prop :=
  ∀ (level : UndocLevel) (bytes rest : List Byte) (c : Code), decode level bytes = .ok (c, rest) →
    c.wf = true ∧ ∃ op, encode c = some (op :: c.operand) ∧ bytes = op :: c.operand ++ rest ∧ minLevel op ≤ level

/-- R167: 0x00 is the halt at every level; the 25 bytes never registered are unknown at every level; the NOP alias bytes and
0xEB are registered exactly from level 1; each other byte that level 2 registers and level 0 does not is registered at level
2 only; and of the 256 bytes 151 are known at level 0 (the halt among them), 179 at level 1 and 231 at level 2. -/
def Obligations.OpcodeBytesAreClassified : Prop :=
  (∀ level, decodeOpcode level 0x00 = some .brk) ∧
  (∀ level, ∀ op ∈ ([0x02, 0x0B, 0x12, 0x22, 0x2B, 0x32, 0x42, 0x4B, 0x52, 0x62, 0x6B, 0x72, 0x8B, 0x92, 0x93, 0x9B, 0x9C,
      0x9E, 0x9F, 0xAB, 0xB2, 0xBB, 0xCB, 0xD2, 0xF2] : List Byte), decodeOpcode level op = none) ∧
  (∀ op ∈ nopAliasBytes, decodeOpcode 0 op = none ∧ decodeOpcode 1 op = some (.nopAlias op) ∧
      decodeOpcode 2 op = some (.nopAlias op)) ∧
  (decodeOpcode 0 0xEB = none ∧ decodeOpcode 1 0xEB = some .sbcAlias ∧ decodeOpcode 2 0xEB = some .sbcAlias) ∧
  (∀ e ∈ tableCombined, decodeOpcode 0 e.opcode = none ∧ decodeOpcode 1 e.opcode = none ∧
      decodeOpcode 2 e.opcode = some e.instr) ∧
  (((List.range 256).filter fun k => (decodeOpcode 0 (BitVec.ofNat 8 k)).isSome).length = 151) ∧
  (((List.range 256).filter fun k => (decodeOpcode 1 (BitVec.ofNat 8 k)).isSome).length = 179) ∧
  (((List.range 256).filter fun k => (decodeOpcode 2 (BitVec.ofNat 8 k)).isSome).length = 231)

/-- R309: registering a list of entries succeeds with exactly that list when no two entries share a byte, and otherwise fails
with DuplicateOpcodeRegistration of the first byte registered a second time; the table of this spec registers at every
level. -/
def Obligations.RegistrationFailsExactlyOnDuplicates : Prop :=
  (∀ es : List Entry, (es.Pairwise fun d e => d.opcode ≠ e.opcode) → registerTable [] es = .ok es) ∧
  (∀ (before after : List Entry) (e : Entry), (before.Pairwise fun d e => d.opcode ≠ e.opcode) →
    (∃ d ∈ before, d.opcode = e.opcode) →
    registerTable [] (before ++ e :: after) = .error (.duplicateOpcodeRegistration e.opcode)) ∧
  (∀ level, registerTable [] (tableAt level) = .ok (tableAt level))

/-- Words written out from the rows of R159 to R161, a few of every family. -/
def Obligations.WrittenOutWordsDecode : Prop :=
  decode 0 [0b10101001, 0xC0, 0xAA] = .ok (⟨.lda .immediate, [0xC0]⟩, [0xAA]) ∧
  decode 0 [0b10101010] = .ok (⟨.tax, []⟩, []) ∧
  decode 0 [0b11101000] = .ok (⟨.inx, []⟩, []) ∧
  decode 0 [0b01101001, 0x90] = .ok (⟨.adc .immediate, [0x90]⟩, []) ∧
  decode 0 [0b00011110, 0xFF, 0x02] = .ok (⟨.asl .absoluteX, [0xFF, 0x02]⟩, []) ∧
  decode 0 [0b01101100, 0xFF, 0x02] = .ok (⟨.jmp .indirect, [0xFF, 0x02]⟩, []) ∧
  decode 0 [0b10010000, 0x03] = .ok (⟨.bcc, [0x03]⟩, []) ∧
  decode 0 [0b00001000] = .ok (⟨.php, []⟩, []) ∧
  decode 0 [0b00000000] = .ok (⟨.brk, []⟩, []) ∧
  decode 1 [0b00011100, 0x00, 0x40] = .ok (⟨.nopAlias 0x1C, [0x00, 0x40]⟩, []) ∧
  decode 2 [0b11011011, 0x00, 0x03] = .ok (⟨.dcp .absoluteY, [0x00, 0x03]⟩, []) ∧
  decode 1 [0b10100111, 0x10] = .error (.unknownOpcode 0xA7)

/-! ### The step -/

/-- R164: when the byte at PC selects the instruction `i`, the step is `exec i` with PC one past the opcode, and then PC is
advanced by the length minus one if and only if it still has that value; a fault of `exec i` is the step's. -/
def Obligations.StepRunsDecodedInstruction : Prop :=
  ∀ (s t : State) (op : Byte) (i : Instr), s.run = .running → busRead s.pc s = .ok op t →
    decodeOpcode s.cfg.undoc op = some i →
    (∀ u, exec i { t with pc := s.pc + 1 } = .next u →
      step s = .next (if u.pc = s.pc + 1 then { u with pc := u.pc + BitVec.ofNat 16 (instrLength i - 1) } else u)) ∧
    (∀ f, exec i { t with pc := s.pc + 1 } = .fault f → step s = .fault f)

/-- R163 and the fetch of R162: a fault of the fetch is the step's; the byte 0x00 sets both Break sub-flags and halts, with PC
one past it and nothing else changed but by the fetch's read, and reports halted; a byte that is not registered is
UnknownOpcode. -/
def Obligations.StepTestsHaltThenLooksUp : Prop :=
  ∀ s : State, s.run = .running →
    (∀ f, busRead s.pc s = .fault f → step s = .fault f) ∧
    (∀ t, busRead s.pc s = .ok 0x00 t →
      ∃ u : State, u = { t with pc := s.pc + 1, flags := { s.flags with bhi := true, blo := true }, run := .halted } ∧
        step s = .next u ∧ signalOf u = .halted) ∧
    (∀ op t, busRead s.pc s = .ok op t → decodeOpcode s.cfg.undoc op = none →
      step s = .fault (.unknownOpcode op s.pc))

/-- R21, R47: no step changes the configuration (cartridge, table level, parameters) or any byte of OAM. -/
def Obligations.StepKeepsConfigurationAndOam : Prop :=
  ∀ s t : State, step s = .next t → t.cfg = s.cfg ∧ t.oam = s.oam

/-- The pair of Break sub-flags: if they are equal before a step they are equal after it, and only the halt sets one of
them. -/
def Obligations.BreakBitsMoveTogether : Prop :=
  ∀ s t : State, step s = .next t →
    (s.flags.bhi = s.flags.blo → t.flags.bhi = t.flags.blo) ∧
    (t.flags.bhi = true → s.flags.bhi = true ∨ t.run = .halted) ∧
    (t.flags.blo = true → s.flags.blo = true ∨ t.run = .halted)

/-- R155: the resolver raises ResolverMisuse for Accumulator and NoneAddressing, and no well-formed instruction and no step
ever raises it. -/
def Obligations.ResolverMisuseIsUnreachable : Prop :=
  (∀ s, addr .accumulator s = .fault (.resolverMisuse .accumulator)) ∧
  (∀ s, addr .noneAddressing s = .fault (.resolverMisuse .noneAddressing)) ∧
  (∀ i s m, i.wf = true → exec i s ≠ .fault (.resolverMisuse m)) ∧
  (∀ s m, step s ≠ .fault (.resolverMisuse m))

/-- A step faults only with AddressFault (code 3), ReadOnlyViolation (code 4) or UnknownOpcode (code 5), and a running machine
is never refused a step. -/
def Obligations.StepFaultsOnlyByAddressRomOrOpcode : Prop :=
  ∀ s : State,
    (∀ f, step s = .fault f → faultCode f = 3 ∨ faultCode f = 4 ∨ faultCode f = 5) ∧
    (s.run = .running → ∀ q, step s ≠ .refused q)

/-- ReadOnlyViolation comes only from the instructions that write memory at their operand; with the stack page at 0x0100 the
stack instructions and the register-only instructions never fault at all. -/
def Obligations.ReadOnlyViolationOnlyFromMemoryWriters : Prop :=
  (∀ i s, s.cfg.stackBase = 0x0100 →
    ((∃ a, exec i s = .fault (.readOnlyCpu a)) ∨ ∃ a, exec i s = .fault (.readOnlyPpu a)) → writesOperand i = true) ∧
  (∀ i s f, s.cfg.stackBase = 0x0100 → i.wf = true → instrMode i = .noneAddressing ∨ instrMode i = .accumulator →
    exec i s ≠ .fault f)

/-- R304, inside a handler: the first fault met is the instruction's. The resolver's fault comes first, then that of the data
read, then that of the data write, whatever the write would have stored. -/
def Obligations.FirstFaultOfTheAccessesIsReported : Prop :=
  ∀ (m : Mode) (s : State) (f : Fault),
    let reads := [Instr.lda m, .ldx m, .ldy m, .lax m, .adc m, .sbc m, .and m, .ora m, .eor m, .cmp m, .cpx m, .cpy m, .bit m]
    let writes := [(Instr.sta m, s.a), (.stx m, s.x), (.sty m, s.y), (.sax m, s.a &&& s.x)]
    let modifies := [Instr.inc m, .dec m, .asl m, .lsr m, .rol m, .ror m, .dcp m, .isb m, .slo m, .rla m, .sre m, .rra m]
    (addr m s = .fault f →
      (∀ i ∈ reads, exec i s = .fault f) ∧ (∀ p ∈ writes, exec p.1 s = .fault f) ∧
      (m ≠ .accumulator → ∀ i ∈ modifies, exec i s = .fault f) ∧ exec (.jmp m) s = .fault f ∧
      (m = .absolute → exec .jsr s = .fault f) ∧
      (m = .relative → ∀ b ∈ branchCond s.flags, b.2 = true → exec b.1 s = .fault f)) ∧
    (∀ a t, addr m s = .ok a t →
      (busRead a t = .fault f → (∀ i ∈ reads, exec i s = .fault f) ∧ ∀ i ∈ modifies, exec i s = .fault f) ∧
      (∀ p ∈ writes, busWrite a p.2 t = .fault f → exec p.1 s = .fault f) ∧
      (∀ v u, busRead a t = .ok v u → (∀ r, busWrite a r u = .fault f) → ∀ i ∈ modifies, exec i s = .fault f))

/-- With the stack page at 0x0100, every well-formed instruction whose operand bytes, pointer bytes and operand lie in RAM
answers a next state. -/
def Obligations.EveryInstructionCompletesInRam : Prop :=
  ∀ (i : Instr) (s : State), i.wf = true → s.cfg.stackBase = 0x0100 → ResolvesInRam (instrMode i) s →
    (accessesOperand i = true → InRam (ramEffective (instrMode i) s)) → ∃ t, exec i s = .next t

/-! ### The resolver and the Bus -/

/-- R146 to R154: the operand address of each mode, when the bytes the resolver reads lie in RAM: zero-page indexing wraps in
page 0, absolute indexing in 16 bits, the JMP pointer's high byte comes from the same page, a zero-page pointer stays in page
0, a branch is relative to the byte after the offset. Nothing is changed. -/
def Obligations.ResolverComputesOperandAddress : Prop :=
  ∀ (s : State) (m : Mode), ResolvesInRam m s →
    let b0 := s.ram.read (s.pc.toNat % 0x800)
    let b1 := s.ram.read ((s.pc + 1).toNat % 0x800)
    let word : Addr := b1 ++ b0
    let zp (k : Byte) := s.ram.read k.toNat
    (m = .immediate → addr m s = .ok s.pc s) ∧
    (m = .zeroPage → addr m s = .ok (b0.zeroExtend 16) s) ∧
    (m = .zeroPageX → addr m s = .ok ((b0 + s.x).zeroExtend 16) s) ∧
    (m = .zeroPageY → addr m s = .ok ((b0 + s.y).zeroExtend 16) s) ∧
    (m = .absolute → addr m s = .ok word s) ∧
    (m = .absoluteX → addr m s = .ok (word + s.x.zeroExtend 16) s) ∧
    (m = .absoluteY → addr m s = .ok (word + s.y.zeroExtend 16) s) ∧
    (m = .indirect → addr m s = .ok
      (s.ram.read (((b1 ++ (b0 + 1) : Addr)).toNat % 0x800) ++ s.ram.read (word.toNat % 0x800)) s) ∧
    (m = .indirectX → addr m s = .ok (zp (b0 + s.x + 1) ++ zp (b0 + s.x)) s) ∧
    (m = .indirectY → addr m s = .ok ((zp (b0 + 1) ++ zp b0 : Addr) + s.y.zeroExtend 16) s) ∧
    (m = .relative → addr m s = .ok (s.pc + 1 + b0.signExtend 16) s)

/-- R62, R64, R66, R67, R68, R72: what a Bus read does at every address. -/
def Obligations.BusReadFollowsAddressMap : Prop :=
  ∀ (a : Addr) (s : State),
    (a.toNat < 0x2000 → busRead a s = .ok (s.ram.read (a.toNat % 0x800)) s) ∧
    (0x2000 ≤ a.toNat → a.toNat < 0x4000 → a.toNat % 8 = 7 → busRead a s = readData a s) ∧
    (0x2000 ≤ a.toNat → a.toNat < 0x4000 → a.toNat % 8 ≠ 7 → busRead a s = .fault (.addressCpu a .read)) ∧
    (0x4000 ≤ a.toNat → a.toNat < 0x8000 → busRead a s = .fault (.addressCpu a .read)) ∧
    (∀ c, 0x8000 ≤ a.toNat → s.cfg.cart = some c →
      let off := if c.prg.length = 16384 then (a.toNat - 0x8000) % 16384 else a.toNat - 0x8000
      (∀ b, c.prg[off]? = some b → busRead a s = .ok b s) ∧
        (c.prg.length ≤ off → busRead a s = .fault (.addressCpu a .read))) ∧
    (0x8000 ≤ a.toNat → s.cfg.cart = none →
      (a = s.cfg.resetVector → busRead a s = .ok s.rv0 s) ∧
      (a = s.cfg.resetVector + 1 → busRead a s = .ok s.rv1 s) ∧
      (a ≠ s.cfg.resetVector → a ≠ s.cfg.resetVector + 1 → busRead a s = .fault (.addressCpu a .read)))

/-- R63, R69, R70, R71, R91: what a Bus write does at every address. -/
def Obligations.BusWriteFollowsAddressMap : Prop :=
  ∀ (a : Addr) (v : Byte) (s : State),
    (a.toNat < 0x2000 → busWrite a v s = .ok () { s with ram := s.ram.write (a.toNat % 0x800) v }) ∧
    (0x2000 ≤ a.toNat → a.toNat < 0x4000 →
      (a.toNat % 8 = 0 → busWrite a v s = .ok () { s with ppuCtrl := v }) ∧
      (a.toNat % 8 = 6 → busWrite a v s = .ok () (writeAddressLatch v s)) ∧
      (a.toNat % 8 = 7 → busWrite a v s = writeData a v s) ∧
      (1 ≤ a.toNat % 8 → a.toNat % 8 ≤ 5 → busWrite a v s = .fault (.addressCpu a .write))) ∧
    (0x4000 ≤ a.toNat → a.toNat < 0x8000 → busWrite a v s = .fault (.addressCpu a .write)) ∧
    (0x8000 ≤ a.toNat → s.cfg.cart ≠ none → busWrite a v s = .fault (.readOnlyCpu a)) ∧
    (0x8000 ≤ a.toNat → s.cfg.cart = none →
      (a = s.cfg.resetVector → busWrite a v s = .ok () { s with rv0 := v }) ∧
      (a = s.cfg.resetVector + 1 → busWrite a v s = .ok () { s with rv1 := v }) ∧
      (a ≠ s.cfg.resetVector → a ≠ s.cfg.resetVector + 1 → busWrite a v s = .fault (.addressCpu a .write)))

/-- R64, R112: after a write to RAM, a read through any alias of the same cell returns the value written, and every other RAM
address reads as before. -/
def Obligations.RamReadReturnsLastWriteThroughAliases : Prop :=
  ∀ (a b : Addr) (v : Byte) (s t : State), s.Inv → a.toNat < 0x2000 → b.toNat < 0x2000 → busWrite a v s = .ok () t →
    (a.toNat % 0x800 = b.toNat % 0x800 → busRead b t = .ok v t) ∧
    (a.toNat % 0x800 ≠ b.toNat % 0x800 → ∃ w, busRead b s = .ok w s ∧ busRead b t = .ok w t)

/-! ### The PPU register model -/

/-- R94, R95, R96, R97, R99: the data port in each region of the PPU address space. A read returns the old buffer and refills
it, but in the palette range returns the byte at once and leaves the buffer; a write stores; both then add 1 or 32 to the
address. -/
def Obligations.PpuDataPortByRegion : Prop :=
  ∀ (reg : Addr) (s : State) (v : Byte),
    let next : PpuAddr := s.ppuAddr + (if s.ppuCtrl.getLsbD 2 then 32 else 1)
    (s.ppuAddr.toNat ≤ 0x1FFF →
      (∀ c b, s.cfg.cart = some c → c.chr[s.ppuAddr.toNat]? = some b →
        readData reg s = .ok s.ppuBuf { s with ppuBuf := b, ppuAddr := next }) ∧
      ((∀ c, s.cfg.cart = some c → c.chr.length ≤ s.ppuAddr.toNat) →
        readData reg s = .fault (.addressPpu reg s.ppuAddr .read)) ∧
      writeData reg v s = .fault (.readOnlyPpu s.ppuAddr)) ∧
    (0x2000 ≤ s.ppuAddr.toNat → s.ppuAddr.toNat ≤ 0x2FFF →
      (∀ i, mirror s.cfg.cart s.ppuAddr = some i →
        readData reg s = .ok s.ppuBuf { s with ppuBuf := s.vram.read i, ppuAddr := next } ∧
        writeData reg v s = .ok () { s with vram := s.vram.write i v, ppuAddr := next }) ∧
      (mirror s.cfg.cart s.ppuAddr = none →
        readData reg s = .fault (.addressPpu reg s.ppuAddr .read) ∧
        writeData reg v s = .fault (.addressPpu reg s.ppuAddr .write))) ∧
    (0x3000 ≤ s.ppuAddr.toNat → s.ppuAddr.toNat ≤ 0x3EFF →
      readData reg s = .fault (.addressPpu reg s.ppuAddr .read) ∧
      writeData reg v s = .fault (.addressPpu reg s.ppuAddr .write)) ∧
    (0x3F00 ≤ s.ppuAddr.toNat →
      readData reg s = .ok (s.palette.read (palIndex s.ppuAddr)) { s with ppuAddr := next } ∧
      writeData reg v s = .ok () { s with palette := s.palette.write (palIndex s.ppuAddr) v, ppuAddr := next })

/-- R92: the two-write protocol through any alias of the address register: the first write sets the high six bits and keeps
the low byte, the second sets the low byte and keeps the high bits, and the latch toggles each time. -/
def Obligations.AddressLatchTakesHighThenLow : Prop :=
  ∀ (a b : Addr) (hi lo : Byte) (s : State), s.ppuLatchHi = true →
    0x2000 ≤ a.toNat → a.toNat < 0x4000 → a.toNat % 8 = 6 → 0x2000 ≤ b.toNat → b.toNat < 0x4000 → b.toNat % 8 = 6 →
    busWrite a hi s = .ok () { s with
      ppuLatchHi := false, ppuAddr := BitVec.ofNat 14 (hi.toNat % 64 * 256 + s.ppuAddr.toNat % 256) } ∧
    busWrite b lo { s with
      ppuLatchHi := false, ppuAddr := BitVec.ofNat 14 (hi.toNat % 64 * 256 + s.ppuAddr.toNat % 256) } =
      .ok () { s with ppuLatchHi := true, ppuAddr := BitVec.ofNat 14 (hi.toNat % 64 * 256 + lo.toNat) }

/-- R98, R100: the nametable index under each mirroring mode, and the palette index, which is never one of 0x10, 0x14, 0x18,
0x1C. -/
def Obligations.NametableAndPaletteMirroring : Prop :=
  (∀ (c : Cartridge) (a : PpuAddr), 0x2000 ≤ a.toNat → a.toNat ≤ 0x2FFF →
    (c.mirroring = .vertical → mirror (some c) a = some (a.toNat % 0x800)) ∧
    (c.mirroring = .horizontal → mirror (some c) a = some ((a.toNat - 0x2000) / 0x800 * 0x400 + a.toNat % 0x400)) ∧
    (c.mirroring = .fourScreen → a.toNat ≤ 0x27FF → mirror (some c) a = some (a.toNat - 0x2000)) ∧
    (c.mirroring = .fourScreen → 0x2800 ≤ a.toNat → mirror (some c) a = none) ∧
    mirror none a = none) ∧
  (∀ a : PpuAddr, 0x3F00 ≤ a.toNat →
    (a.toNat % 4 = 0 → palIndex a = a.toNat % 16) ∧ (a.toNat % 4 ≠ 0 → palIndex a = a.toNat % 32))

/-- R103, for the nametables: store the two bytes of a PPU address to 0x2006 and a byte to 0x2007; store the address again and
load 0x2007 twice: the second load returns the byte. -/
def Obligations.PpuStoreThenLoadReturnsByte : Prop :=
  ∀ (s : State) (hi lo v : Byte) (i : Nat), s.Inv → s.ppuLatchHi = true → 0x20 ≤ hi.toNat → hi.toNat ≤ 0x2F →
    mirror s.cfg.cart (BitVec.ofNat 14 (hi.toNat * 256 + lo.toNat)) = some i →
    ∃ s1 s2 s3 s4 s5 s6 old,
      busWrite 0x2006 hi s = .ok () s1 ∧ busWrite 0x2006 lo s1 = .ok () s2 ∧ busWrite 0x2007 v s2 = .ok () s3 ∧
      busWrite 0x2006 hi s3 = .ok () s4 ∧ busWrite 0x2006 lo s4 = .ok () s5 ∧ busRead 0x2007 s5 = .ok old s6 ∧
      old = s.ppuBuf ∧ s6.ppuBuf = v ∧
      (∀ w s7, busRead 0x2007 s6 = .ok w s7 → s6.ppuAddr.toNat ≤ 0x2FFF → w = v)

/-! ### Results: load, store, transfer -/

/-- R171, R172, R173, R273: A, X, Y, or A and X, become the byte at the operand address, Z and N follow it, and nothing else
changes but what the reads change. -/
def Obligations.LoadResults : Prop :=
  ∀ (m : Mode) (s u t : State) (a : Addr) (v : Byte), addr m s = .ok a u → busRead a u = .ok v t →
    exec (.lda m) s = .next { t with a := v, flags := { t.flags with z := decide (v = 0), n := v.msb } } ∧
    exec (.ldx m) s = .next { t with x := v, flags := { t.flags with z := decide (v = 0), n := v.msb } } ∧
    exec (.ldy m) s = .next { t with y := v, flags := { t.flags with z := decide (v = 0), n := v.msb } } ∧
    exec (.lax m) s = .next { t with a := v, x := v, flags := { t.flags with z := decide (v = 0), n := v.msb } }

/-- R174, R175, R176, R274: the register is written at the operand address, and no flag changes. -/
def Obligations.StoreResults : Prop :=
  ∀ (m : Mode) (s u t : State) (a : Addr), addr m s = .ok a u →
    (busWrite a s.a u = .ok () t → exec (.sta m) s = .next t) ∧
    (busWrite a s.x u = .ok () t → exec (.stx m) s = .next t) ∧
    (busWrite a s.y u = .ok () t → exec (.sty m) s = .next t) ∧
    (busWrite a (s.a &&& s.x) u = .ok () t → exec (.sax m) s = .next t)

/-- R177 to R182: the transfers, TXS without flags. -/
def Obligations.TransferResults : Prop :=
  ∀ s : State,
    exec .tax s = .next { s with x := s.a, flags := { s.flags with z := decide (s.a = 0), n := s.a.msb } } ∧
    exec .tay s = .next { s with y := s.a, flags := { s.flags with z := decide (s.a = 0), n := s.a.msb } } ∧
    exec .txa s = .next { s with a := s.x, flags := { s.flags with z := decide (s.x = 0), n := s.x.msb } } ∧
    exec .tya s = .next { s with a := s.y, flags := { s.flags with z := decide (s.y = 0), n := s.y.msb } } ∧
    exec .tsx s = .next { s with x := s.sp, flags := { s.flags with z := decide (s.sp = 0), n := s.sp.msb } } ∧
    exec .txs s = .next { s with sp := s.x }

/-! ### Results: arithmetic and logic -/

/-- R191, R192, R195, R197, R272 as integer laws: ADC gives (A + m + C) mod 256 with C the carry out and V set exactly when
the signed sum leaves −128..127; SBC, and its alias, gives (A − m − 1 + C) mod 256 with C set exactly when there is no borrow
and V likewise; Z and N follow the result, whatever D holds. -/
def Obligations.AdcSbcFollowIntegerLaws : Prop :=
  ∀ (m : Mode) (s u t : State) (a : Addr) (v : Byte), addr m s = .ok a u → busRead a u = .ok v t →
    let sum : Nat := t.a.toNat + v.toNat + t.flags.c.toNat
    let ssum : Int := t.a.toInt + v.toInt + t.flags.c.toNat
    let diff : Int := (t.a.toNat : Int) - v.toNat - 1 + t.flags.c.toNat
    let sdiff : Int := t.a.toInt - v.toInt - 1 + t.flags.c.toNat
    exec (.adc m) s = .next { t with
      a := BitVec.ofNat 8 sum
      flags := { t.flags with
        c := decide (256 ≤ sum), v := decide (ssum < -128 ∨ 127 < ssum)
        z := decide (sum % 256 = 0), n := decide (128 ≤ sum % 256) } } ∧
    let subtracted : State := { t with
      a := BitVec.ofInt 8 diff
      flags := { t.flags with
        c := decide (0 ≤ diff), v := decide (sdiff < -128 ∨ 127 < sdiff)
        z := decide (diff % 256 = 0), n := decide (128 ≤ diff % 256) } }
    exec (.sbc m) s = .next subtracted ∧
    (m = .immediate → exec .sbcAlias s = .next subtracted)

/-- R193, R194, R196: AND, ORA, EOR with the accumulator. -/
def Obligations.LogicResults : Prop :=
  ∀ (m : Mode) (s u t : State) (a : Addr) (v : Byte), addr m s = .ok a u → busRead a u = .ok v t →
    exec (.and m) s = .next { t with
      a := t.a &&& v, flags := { t.flags with z := decide (t.a &&& v = 0), n := (t.a &&& v).msb } } ∧
    exec (.ora m) s = .next { t with
      a := t.a ||| v, flags := { t.flags with z := decide (t.a ||| v = 0), n := (t.a ||| v).msb } } ∧
    exec (.eor m) s = .next { t with
      a := t.a ^^^ v, flags := { t.flags with z := decide (t.a ^^^ v = 0), n := (t.a ^^^ v).msb } }

/-- R199, R200, R201, with R198: C is the unsigned "register ≥ operand", Z is equality, N is bit 7 of the difference modulo
256; V, the registers and memory do not change. -/
def Obligations.CompareResults : Prop :=
  ∀ (m : Mode) (s u t : State) (a : Addr) (v : Byte), addr m s = .ok a u → busRead a u = .ok v t →
    let cmp (r : Byte) : Flags := { t.flags with
      c := decide (v.toNat ≤ r.toNat), z := decide (r = v), n := decide (128 ≤ (256 + r.toNat - v.toNat) % 256) }
    exec (.cmp m) s = .next { t with flags := cmp t.a } ∧
    exec (.cpx m) s = .next { t with flags := cmp t.x } ∧
    exec (.cpy m) s = .next { t with flags := cmp t.y }

/-- R202: BIT. -/
def Obligations.BitTestResult : Prop :=
  ∀ (m : Mode) (s u t : State) (a : Addr) (v : Byte), addr m s = .ok a u → busRead a u = .ok v t →
    exec (.bit m) s = .next { t with
      flags := { t.flags with z := decide (t.a &&& v = 0), n := v.getLsbD 7, v := v.getLsbD 6 } }

/-- R203, R204: one read, one write of the byte plus or minus one modulo 256 at the same address, Z and N from it. -/
def Obligations.IncDecMemoryResults : Prop :=
  ∀ (m : Mode) (s u w t : State) (a : Addr) (v : Byte), addr m s = .ok a u → busRead a u = .ok v w →
    (busWrite a (BitVec.ofNat 8 (v.toNat + 1)) w = .ok () t →
      exec (.inc m) s = .next { t with
        flags := { t.flags with z := decide (v = 0xFF), n := decide (128 ≤ (v.toNat + 1) % 256) } }) ∧
    (busWrite a (BitVec.ofNat 8 (v.toNat + 255)) w = .ok () t →
      exec (.dec m) s = .next { t with
        flags := { t.flags with z := decide (v = 1), n := decide (128 ≤ (v.toNat + 255) % 256) } })

/-- R205 to R208: INX, INY, DEX, DEY. -/
def Obligations.IncDecRegisterResults : Prop :=
  ∀ s : State,
    exec .inx s = .next { s with
      x := s.x + 1, flags := { s.flags with z := decide (s.x = 0xFF), n := decide (128 ≤ (s.x.toNat + 1) % 256) } } ∧
    exec .iny s = .next { s with
      y := s.y + 1, flags := { s.flags with z := decide (s.y = 0xFF), n := decide (128 ≤ (s.y.toNat + 1) % 256) } } ∧
    exec .dex s = .next { s with
      x := s.x - 1, flags := { s.flags with z := decide (s.x = 1), n := decide (128 ≤ (s.x.toNat + 255) % 256) } } ∧
    exec .dey s = .next { s with
      y := s.y - 1, flags := { s.flags with z := decide (s.y = 1), n := decide (128 ≤ (s.y.toNat + 255) % 256) } }

/-! ### Results: shift and rotate -/

/-- R221 to R224 on the accumulator, as arithmetic on the 9 bits of the byte and C: ASL doubles, LSR halves, ROL doubles and
adds C, ROR halves and puts C in bit 7; the bit shifted out becomes C; Z and N follow the result. -/
def Obligations.ShiftAccumulatorResults : Prop :=
  ∀ s : State,
    let a := s.a.toNat
    let c := s.flags.c.toNat
    let out (r : Nat) (carry : Bool) : State := { s with
      a := BitVec.ofNat 8 r, flags := { s.flags with c := carry, z := decide (r % 256 = 0), n := decide (128 ≤ r % 256) } }
    exec (.asl .accumulator) s = .next (out (2 * a) (decide (128 ≤ a))) ∧
    exec (.lsr .accumulator) s = .next (out (a / 2) (decide (a % 2 = 1))) ∧
    exec (.rol .accumulator) s = .next (out (2 * a + c) (decide (128 ≤ a))) ∧
    exec (.ror .accumulator) s = .next (out (a / 2 + 128 * c) (decide (a % 2 = 1)))

/-- R220 to R224 in memory: one read, one write of the shifted byte at the same address, the same C, Z and N; A does not
change. -/
def Obligations.ShiftMemoryResults : Prop :=
  ∀ (m : Mode) (s u w t : State) (a : Addr) (v : Byte), addr m s = .ok a u → busRead a u = .ok v w →
    let c := s.flags.c.toNat
    let out (r : Nat) (carry : Bool) : State := { t with
      flags := { t.flags with c := carry, z := decide (r % 256 = 0), n := decide (128 ≤ r % 256) } }
    (busWrite a (BitVec.ofNat 8 (2 * v.toNat)) w = .ok () t →
      exec (.asl m) s = .next (out (2 * v.toNat) (decide (128 ≤ v.toNat)))) ∧
    (busWrite a (BitVec.ofNat 8 (v.toNat / 2)) w = .ok () t →
      exec (.lsr m) s = .next (out (v.toNat / 2) (decide (v.toNat % 2 = 1)))) ∧
    (busWrite a (BitVec.ofNat 8 (2 * v.toNat + c)) w = .ok () t →
      exec (.rol m) s = .next (out (2 * v.toNat + c) (decide (128 ≤ v.toNat)))) ∧
    (busWrite a (BitVec.ofNat 8 (v.toNat / 2 + 128 * c)) w = .ok () t →
      exec (.ror m) s = .next (out (v.toNat / 2 + 128 * c) (decide (v.toNat % 2 = 1))))

/-- R275 to R280: the read-modify-write of the memory operand, then the compare, subtraction, logic operation or addition with
its result; RRA adds with the carry out of its rotate. Arithmetic is that of ADC and SBC. -/
def Obligations.CombinedOperationResults : Prop :=
  ∀ (m : Mode) (s u w t : State) (a : Addr) (v r : Byte), addr m s = .ok a u → busRead a u = .ok v w →
    busWrite a r w = .ok () t →
    let c := s.flags.c.toNat
    let logic (x : Byte) (carry : Bool) : State := { t with
      a := x, flags := { t.flags with c := carry, z := decide (x = 0), n := x.msb } }
    let add (y : Byte) (k : Bool) : State :=
      let sum := t.a.toNat + y.toNat + k.toNat
      let ssum : Int := t.a.toInt + y.toInt + k.toNat
      { t with
        a := BitVec.ofNat 8 sum
        flags := { t.flags with
          c := decide (256 ≤ sum), v := decide (ssum < -128 ∨ 127 < ssum)
          z := decide (sum % 256 = 0), n := decide (128 ≤ sum % 256) } }
    (r = v - 1 → exec (.dcp m) s = .next { t with
      flags := { t.flags with c := decide (r.toNat ≤ t.a.toNat), z := decide (t.a = r), n := (t.a - r).msb } }) ∧
    (r = v + 1 → exec (.isb m) s = .next (add (r ^^^ 0xFF) t.flags.c)) ∧
    (r = BitVec.ofNat 8 (2 * v.toNat) → exec (.slo m) s = .next (logic (t.a ||| r) (decide (128 ≤ v.toNat)))) ∧
    (r = BitVec.ofNat 8 (2 * v.toNat + c) → exec (.rla m) s = .next (logic (t.a &&& r) (decide (128 ≤ v.toNat)))) ∧
    (r = BitVec.ofNat 8 (v.toNat / 2) → exec (.sre m) s = .next (logic (t.a ^^^ r) (decide (v.toNat % 2 = 1)))) ∧
    (r = BitVec.ofNat 8 (v.toNat / 2 + 128 * c) → exec (.rra m) s = .next (add r (decide (v.toNat % 2 = 1))))

/-! ### Results: control flow -/

/-- R231 to R238: each branch with the condition it tests. When it holds PC becomes the byte after the offset plus the signed
offset; when not, nothing happens and the offset byte is not read. -/
def Obligations.BranchResults : Prop :=
  ∀ (s t : State) (o : Byte),
    ∀ b ∈ [(Instr.bcc, s.flags.c = false), (.bcs, s.flags.c = true), (.beq, s.flags.z = true), (.bne, s.flags.z = false),
      (.bmi, s.flags.n = true), (.bpl, s.flags.n = false), (.bvc, s.flags.v = false), (.bvs, s.flags.v = true)],
      (b.2 → busRead s.pc s = .ok o t → exec b.1 s = .next { t with pc := s.pc + 1 + o.signExtend 16 }) ∧
      (¬b.2 → exec b.1 s = .next s)

/-- R230, the table of final PCs: a step over a branch in RAM ends at the next instruction when the condition is false or the
offset is 0xFF, and otherwise at the address after the offset byte plus the signed offset; only PC changes. -/
def Obligations.BranchStepEndsWhereTableSays : Prop :=
  ∀ (s : State), s.run = .running → InRam s.pc → InRam (s.pc + 1) →
    ∀ b ∈ branchCond s.flags, decodeOpcode s.cfg.undoc (s.ram.read (s.pc.toNat % 0x800)) = some b.1 →
      let o := s.ram.read ((s.pc + 1).toNat % 0x800)
      step s = .next { s with
        pc := if b.2 = true ∧ o ≠ 0xFF then s.pc + 2 + o.signExtend 16 else s.pc + 2 }

/-- R239, R165: JMP sets PC to the resolved target and nothing else; in a step, a JMP whose target is its own second byte
continues after the instruction. -/
def Obligations.JmpResults : Prop :=
  (∀ (m : Mode) (s t : State) (a : Addr), addr m s = .ok a t → exec (.jmp m) s = .next { t with pc := a }) ∧
  (∀ (m : Mode) (s t u : State) (op : Byte) (a : Addr), s.run = .running → busRead s.pc s = .ok op t →
    decodeOpcode s.cfg.undoc op = some (.jmp m) → addr m { t with pc := s.pc + 1 } = .ok a u →
    step s = .next { u with pc := if a = s.pc + 1 then s.pc + 3 else a })

/-- R240, R241, R242 with the stack page at 0x0100: JSR resolves its target, pushes the address of its own last byte, high
byte first at SP, low byte at SP − 1, and goes to the target; RTS pops low then high and adds 1; RTI pops the status byte as
PLP does and then PC, with no 1 added. Where JSR's pushes overwrite its own operand bytes, the target stated here, that of the
bytes before the pushes, is the model's choice (log entry 6, after decision D27): R240 calls that case unspecified and
`93_implementation_defined.md` U9 says that no claim may depend on it. -/
def Obligations.CallAndReturnResults : Prop :=
  ∀ (s : State), s.cfg.stackBase = 0x0100 →
    let cell (k : Byte) : Nat := 0x100 + k.toNat
    let top (k : Byte) : Byte := s.ram.read (cell (s.sp + k))
    (∀ a t, addr .absolute s = .ok a t → exec .jsr s = .next { t with
      ram := (s.ram.write (cell s.sp) ((s.pc + 1).extractLsb' 8 8)).write (cell (s.sp - 1)) ((s.pc + 1).extractLsb' 0 8)
      sp := s.sp - 2, pc := a }) ∧
    exec .rts s = .next { s with sp := s.sp + 2, pc := (top 2 ++ top 1 : Addr) + 1 } ∧
    exec .rti s = .next { s with
      sp := s.sp + 3, pc := top 3 ++ top 2
      flags :=
        { n := (top 1).getLsbD 7, v := (top 1).getLsbD 6, d := (top 1).getLsbD 3, i := (top 1).getLsbD 2
          z := (top 1).getLsbD 1, c := (top 1).getLsbD 0, bhi := false, blo := false } }

/-- R243: the pairing is exact. After a JSR, an RTS executed in any state with the same SP, the same two stack bytes and the
same configuration returns to the instruction after the JSR with SP restored, for every SP. -/
def Obligations.RtsReturnsAfterJsr : Prop :=
  ∀ (s t u v : State), s.Inv → s.cfg.stackBase = 0x0100 → exec .jsr s = .next t → u.cfg = t.cfg → u.sp = t.sp →
    ramRead (0x0100 + (t.sp + 1).zeroExtend 16) u = ramRead (0x0100 + (t.sp + 1).zeroExtend 16) t →
    ramRead (0x0100 + (t.sp + 2).zeroExtend 16) u = ramRead (0x0100 + (t.sp + 2).zeroExtend 16) t →
    exec .rts u = .next v → v.pc = s.pc + 2 ∧ v.sp = s.sp

/-! ### Results: stack, flags, system -/

/-- R250 to R253 with the stack page at 0x0100: PHA and PHP write at SP and then decrement it, PLA and PLP increment it and
then read; PHP pushes N V 1 1 D I Z C and keeps the live flags; PLA sets Z and N; PLP takes six flags and zeroes Break. -/
def Obligations.PushPullResults : Prop :=
  ∀ (s : State), s.cfg.stackBase = 0x0100 →
    let top := s.ram.read (0x100 + (s.sp + 1).toNat)
    let bit (b : Bool) (k : Nat) : Nat := if b then 2 ^ k else 0
    let f := s.flags
    exec .pha s = .next { s with ram := s.ram.write (0x100 + s.sp.toNat) s.a, sp := s.sp - 1 } ∧
    exec .pla s = .next { s with
      a := top, sp := s.sp + 1, flags := { s.flags with z := decide (top = 0), n := top.msb } } ∧
    exec .php s = .next { s with
      ram := s.ram.write (0x100 + s.sp.toNat)
        (BitVec.ofNat 8 (bit f.n 7 + bit f.v 6 + 0x30 + bit f.d 3 + bit f.i 2 + bit f.z 1 + bit f.c 0))
      sp := s.sp - 1 } ∧
    exec .plp s = .next { s with
      sp := s.sp + 1
      flags :=
        { n := top.getLsbD 7, v := top.getLsbD 6, d := top.getLsbD 3, i := top.getLsbD 2
          z := top.getLsbD 1, c := top.getLsbD 0, bhi := false, blo := false } }

/-- The stack round trip of `00_scope.md` R12 with the stack page at 0x0100: for every value and every SP, popping a pushed
16-bit value returns it with SP restored. -/
def Obligations.PopReturnsPushedWord : Prop :=
  ∀ (s : State) (v : Addr), s.Inv → s.cfg.stackBase = 0x0100 →
    ∃ t u, push16 v s = .ok () t ∧ pop16 t = .ok v u ∧ u.sp = s.sp ∧ t.sp = s.sp - 2

/-- R261: PHP then PLP restores the six flags and leaves both Break sub-flags 0; PHP then PLA gives A the pushed byte with bits
5 and 4 set; PHA then PLP takes the flags from A and leaves both Break sub-flags 0. -/
def Obligations.StatusRoundTripAsymmetry : Prop :=
  ∀ (s t u : State), s.Inv → s.cfg.stackBase = 0x0100 →
    (exec .php s = .next t → exec .plp t = .next u →
      u.flags = { s.flags with bhi := false, blo := false } ∧ u.sp = s.sp) ∧
    (exec .php s = .next t → exec .pla t = .next u →
      u.a.getLsbD 5 = true ∧ u.a.getLsbD 4 = true ∧ 0x30 ≤ u.a.toNat ∧ u.sp = s.sp) ∧
    (exec .pha s = .next t → exec .plp t = .next u →
      u.flags.bhi = false ∧ u.flags.blo = false ∧ u.flags.n = s.a.msb ∧ u.flags.v = s.a.getLsbD 6 ∧
      u.flags.d = s.a.getLsbD 3 ∧ u.flags.i = s.a.getLsbD 2 ∧ u.flags.z = s.a.getLsbD 1 ∧ u.flags.c = s.a.getLsbD 0)

/-- R254 to R260: each flag instruction writes its one flag and nothing else. -/
def Obligations.FlagInstructionResults : Prop :=
  ∀ s : State,
    exec .clc s = .next { s with flags := { s.flags with c := false } } ∧
    exec .sec s = .next { s with flags := { s.flags with c := true } } ∧
    exec .cli s = .next { s with flags := { s.flags with i := false } } ∧
    exec .sei s = .next { s with flags := { s.flags with i := true } } ∧
    exec .cld s = .next { s with flags := { s.flags with d := false } } ∧
    exec .sed s = .next { s with flags := { s.flags with d := true } } ∧
    exec .clv s = .next { s with flags := { s.flags with v := false } }

/-- R262, R271, R263: NOP and every NOP alias change nothing; in a step NOP goes to the next byte and a NOP alias skips its
operand bytes without reading them, wherever they lie; the halt sets both Break sub-flags and the run state and nothing else. -/
def Obligations.NopAndHaltResults : Prop :=
  (∀ s, exec .nop s = .next s) ∧
  (∀ op s, exec (.nopAlias op) s = .next s) ∧
  (∀ s, exec .brk s = .next { s with flags := { s.flags with bhi := true, blo := true }, run := .halted }) ∧
  (∀ (s t : State) (op : Byte), s.run = .running → busRead s.pc s = .ok op t →
    decodeOpcode s.cfg.undoc op = some .nop → step s = .next { t with pc := s.pc + 1 }) ∧
  (∀ (s t : State) (op : Byte), s.run = .running → busRead s.pc s = .ok op t →
    decodeOpcode s.cfg.undoc op = some (.nopAlias op) →
    let length := if op ∈ ([0x1A, 0x3A, 0x5A, 0x7A, 0xDA, 0xFA] : List Byte) then 1
      else if op ∈ ([0x0C, 0x1C, 0x3C, 0x5C, 0x7C, 0xDC, 0xFC] : List Byte) then 3 else 2
    step s = .next { t with pc := s.pc + BitVec.ofNat 16 length })

/-! ### Frames -/

/-- What the read instructions leave unchanged: all but the named destination registers and flags, and but the PPU address and
data buffer, which a read of the PPU data register changes; every byte of memory; and the PPU too when neither the operand
bytes nor the operand lie in the PPU window. -/
def Obligations.ReadInstructionFrames : Prop :=
  ∀ (m : Mode) (s t : State),
    (∀ i ∈ [Instr.lda m, .ldx m, .ldy m, .lax m, .adc m, .sbc m, .and m, .ora m, .eor m, .cmp m, .cpx m, .cpy m, .bit m],
      exec i s = .next t →
      SameBytes s t ∧
      (windowOf s.pc ≠ .ppu → windowOf (s.pc + 1) ≠ .ppu → m ≠ .indirect →
        (∀ a u, addr m s = .ok a u → windowOf a ≠ .ppu) → t.ppuAddr = s.ppuAddr ∧ t.ppuBuf = s.ppuBuf)) ∧
    (exec (.lda m) s = .next t → t = { s with
      a := t.a, flags := { s.flags with z := t.flags.z, n := t.flags.n }, ppuAddr := t.ppuAddr, ppuBuf := t.ppuBuf }) ∧
    (exec (.ldx m) s = .next t → t = { s with
      x := t.x, flags := { s.flags with z := t.flags.z, n := t.flags.n }, ppuAddr := t.ppuAddr, ppuBuf := t.ppuBuf }) ∧
    (exec (.ldy m) s = .next t → t = { s with
      y := t.y, flags := { s.flags with z := t.flags.z, n := t.flags.n }, ppuAddr := t.ppuAddr, ppuBuf := t.ppuBuf }) ∧
    (exec (.lax m) s = .next t → t = { s with
      a := t.a, x := t.x, flags := { s.flags with z := t.flags.z, n := t.flags.n }
      ppuAddr := t.ppuAddr, ppuBuf := t.ppuBuf }) ∧
    (∀ i ∈ [Instr.adc m, .sbc m], exec i s = .next t → t = { s with
      a := t.a, flags := { s.flags with c := t.flags.c, z := t.flags.z, v := t.flags.v, n := t.flags.n }
      ppuAddr := t.ppuAddr, ppuBuf := t.ppuBuf }) ∧
    (∀ i ∈ [Instr.and m, .ora m, .eor m], exec i s = .next t → t = { s with
      a := t.a, flags := { s.flags with z := t.flags.z, n := t.flags.n }, ppuAddr := t.ppuAddr, ppuBuf := t.ppuBuf }) ∧
    (∀ i ∈ [Instr.cmp m, .cpx m, .cpy m], exec i s = .next t → t = { s with
      flags := { s.flags with c := t.flags.c, z := t.flags.z, n := t.flags.n }
      ppuAddr := t.ppuAddr, ppuBuf := t.ppuBuf }) ∧
    (exec (.bit m) s = .next t → t = { s with
      flags := { s.flags with z := t.flags.z, v := t.flags.v, n := t.flags.n }
      ppuAddr := t.ppuAddr, ppuBuf := t.ppuBuf })

/-- What the stores leave unchanged: every CPU register, flag, the run state, OAM and the configuration; every byte of memory
but the one the write to the resolved address goes to; the PPU control and latch unless their register is written, the PPU
address and buffer unless the operand bytes or the operand lie in the PPU window. -/
def Obligations.StoreInstructionFrames : Prop :=
  ∀ (m : Mode) (s u t : State) (a : Addr), addr m s = .ok a u →
    ∀ i ∈ [Instr.sta m, .stx m, .sty m, .sax m], exec i s = .next t →
      t = { s with
        ram := t.ram, rv0 := t.rv0, rv1 := t.rv1, vram := t.vram, palette := t.palette
        ppuAddr := t.ppuAddr, ppuBuf := t.ppuBuf, ppuCtrl := t.ppuCtrl, ppuLatchHi := t.ppuLatchHi } ∧
      SameBytesBut a u s t ∧
      (¬(windowOf a = .ppu ∧ regIndex a = 0) → t.ppuCtrl = s.ppuCtrl) ∧
      (¬(windowOf a = .ppu ∧ regIndex a = 6) → t.ppuLatchHi = s.ppuLatchHi) ∧
      (t.ppuBuf = u.ppuBuf) ∧ (windowOf a ≠ .ppu → t.ppuAddr = u.ppuAddr)

/-- What the read-modify-write instructions in memory leave unchanged: as the stores, with A and the flags each instruction
writes excepted; the written byte is the one the write goes to after the read at the same address. -/
def Obligations.ModifyInstructionFrames : Prop :=
  ∀ (m : Mode) (s u w t : State) (a : Addr) (v : Byte), m ≠ .accumulator → addr m s = .ok a u →
    busRead a u = .ok v w →
    (∀ i ∈ [Instr.inc m, .dec m, .asl m, .lsr m, .rol m, .ror m, .dcp m, .isb m, .slo m, .rla m, .sre m, .rra m],
      exec i s = .next t →
      SameBytesBut a w s t ∧
      t = { s with
        a := t.a, flags := { s.flags with c := t.flags.c, z := t.flags.z, v := t.flags.v, n := t.flags.n }
        ram := t.ram, rv0 := t.rv0, rv1 := t.rv1, vram := t.vram, palette := t.palette
        ppuAddr := t.ppuAddr, ppuBuf := t.ppuBuf } ∧
      (windowOf a ≠ .ppu → t.ppuAddr = w.ppuAddr ∧ t.ppuBuf = w.ppuBuf)) ∧
    (∀ i ∈ [Instr.inc m, .dec m], exec i s = .next t →
      t.a = s.a ∧ t.flags.c = s.flags.c ∧ t.flags.v = s.flags.v) ∧
    (∀ i ∈ [Instr.asl m, .lsr m, .rol m, .ror m, .dcp m], exec i s = .next t → t.a = s.a ∧ t.flags.v = s.flags.v) ∧
    (∀ i ∈ [Instr.slo m, .rla m, .sre m], exec i s = .next t → t.flags.v = s.flags.v)

/-- What the control-flow instructions leave unchanged, for every stack page: branches and JMP change PC and at most the PPU
address and buffer; RTS changes SP too, RTI SP and the flags; JSR, SP and what its two stack writes store to; with the stack
page at 0x0100 those are the two stack bytes in RAM, and the returns change no PPU state. -/
def Obligations.ControlFlowFrames : Prop :=
  ∀ (s t : State),
    (∀ i ∈ [Instr.bcc, .bcs, .beq, .bne, .bmi, .bpl, .bvc, .bvs, .jmp .absolute, .jmp .indirect], exec i s = .next t →
      t = { s with pc := t.pc, ppuAddr := t.ppuAddr, ppuBuf := t.ppuBuf } ∧ SameBytes s t) ∧
    (exec .rts s = .next t →
      t = { s with pc := t.pc, sp := t.sp, ppuAddr := t.ppuAddr, ppuBuf := t.ppuBuf } ∧ SameBytes s t ∧
      (s.cfg.stackBase = 0x0100 → t = { s with pc := t.pc, sp := s.sp + 2 })) ∧
    (exec .rti s = .next t →
      t = { s with pc := t.pc, sp := t.sp, flags := t.flags, ppuAddr := t.ppuAddr, ppuBuf := t.ppuBuf } ∧
      SameBytes s t ∧ (s.cfg.stackBase = 0x0100 → t = { s with pc := t.pc, sp := s.sp + 3, flags := t.flags })) ∧
    (s.cfg.stackBase = 0x0100 → exec .jsr s = .next t →
      t = { s with pc := t.pc, sp := s.sp - 2, ram := t.ram, ppuAddr := t.ppuAddr, ppuBuf := t.ppuBuf } ∧
      (∀ c, storeTarget (stackCell s) s ≠ some c → storeTarget (stackCell (s.setSp (s.sp - 1))) s ≠ some c →
        readCell c t = readCell c s))

/-- What the push and pull instructions leave unchanged with the stack page at 0x0100: a push changes SP and one stack byte, a
pull SP and its destination (A with Z and N, or the flags), and nothing else. -/
def Obligations.PushPullFrames : Prop :=
  ∀ (s t : State), s.cfg.stackBase = 0x0100 →
    (∀ i ∈ [Instr.pha, .php], exec i s = .next t →
      t = { s with sp := t.sp, ram := t.ram } ∧ SameBytesBut (stackCell s) s s t) ∧
    (exec .pla s = .next t →
      t = { s with a := t.a, sp := t.sp, flags := { s.flags with z := t.flags.z, n := t.flags.n } } ∧ SameBytes s t) ∧
    (exec .plp s = .next t → t = { s with sp := t.sp, flags := t.flags } ∧ SameBytes s t)

/-! ### The host surface and the loader -/

/-- R336 with the vector at 0xFFFC: loading an image that lies in RAM and does not wrap onto itself, then resetting, gives a
running machine with PC at the load base, and reading the image's addresses gives its bytes. -/
def Obligations.LoadThenResetStartsTheImage : Prop :=
  ∀ (s : State) (base : Addr) (image : List Byte), s.Inv → s.run = .powerOn → s.cfg.cart = none →
    s.cfg.resetVector = 0xFFFC → base.toNat + image.length ≤ 0x2000 → image.length ≤ 2048 →
    ∃ t u, hostLoad base image s = .next t ∧ hostReset t = .next u ∧ u.run = .running ∧ u.pc = base ∧
      t = { s with ram := t.ram, rv0 := base.extractLsb' 0 8, rv1 := base.extractLsb' 8 8 } ∧
      ∀ k (hk : k < image.length), busRead (base + BitVec.ofNat 16 k) u = .ok image[k] u

/-- R82, R83, R84, R88, R90: the loader's failures, in the order of its checks. -/
def Obligations.LoaderRejectsInOrder : Prop :=
  ∀ (buf : List Byte),
    (buf.take 4 ≠ [0x4E, 0x45, 0x53, 0x1A] → parseCartridge buf = .error (.invalidFormat .badMagic)) ∧
    (buf.take 4 = [0x4E, 0x45, 0x53, 0x1A] → buf.length < 8 →
      parseCartridge buf = .error (.invalidFormat .sliceOutOfRange)) ∧
    (∀ b4 b5 b6 b7 rest, buf = 0x4E :: 0x45 :: 0x53 :: 0x1A :: b4 :: b5 :: b6 :: b7 :: rest →
      let mapper := b7.toNat / 16 * 16 + b6.toNat / 16
      let version := b7.toNat / 4 % 4
      let need := 16 + (if b6.getLsbD 2 then 512 else 0) + b4.toNat * 16384 + b5.toNat * 8192
      (mapper ≠ 0 → parseCartridge buf = .error (.unsupportedMapper (BitVec.ofNat 8 mapper))) ∧
      (mapper = 0 → version ≠ 0 → parseCartridge buf = .error (.invalidFormat (.badVersion (BitVec.ofNat 2 version)))) ∧
      (mapper = 0 → version = 0 → buf.length < need → parseCartridge buf = .error (.invalidFormat .sliceOutOfRange)) ∧
      (mapper = 0 → version = 0 → need ≤ buf.length → ∃ c, parseCartridge buf = .ok c))

/-- R85, R86, R87, R88: a buffer that parses gives PRG-ROM and CHR-ROM of the sizes its header states, taken from the buffer
after the header and the trainer, the mirroring mode of byte 6, mapper 0; every such value is one the invariant admits. -/
def Obligations.LoaderSlicesTheBuffer : Prop :=
  ∀ (b4 b5 b6 b7 : Byte) (rest : List Byte) (c : Cartridge),
    let buf := 0x4E :: 0x45 :: 0x53 :: 0x1A :: b4 :: b5 :: b6 :: b7 :: rest
    let start := 16 + (if b6.getLsbD 2 then 512 else 0)
    parseCartridge buf = .ok c →
    c.prg.length = b4.toNat * 16384 ∧ c.chr.length = b5.toNat * 8192 ∧
    (∀ k, k < c.prg.length → c.prg[k]? = buf[start + k]?) ∧
    (∀ k, k < c.chr.length → c.chr[k]? = buf[start + c.prg.length + k]?) ∧
    c.mirroring = (if b6.getLsbD 3 then .fourScreen else if b6.getLsbD 0 then .vertical else .horizontal) ∧
    c.mapper = 0 ∧ cartOk (some c) = true
end

