-- ==== Sys2Proof/Laws/Memory.lean ====
section
/-! SUPPORT. The laws of a byte store: read after write, and that a write keeps the canonical form. -/

namespace Sys2Proof.Machine

theorem Memory.read_nil (k : Nat) : Memory.read [] k = Config.unwritten := rfl

theorem Memory.wfFrom_cons {lo size : Nat} {c : Host.Cell} {rest : Memory} :
    Memory.wfFrom lo size (c :: rest) = true ↔
      lo ≤ c.1 ∧ c.1 < size ∧ c.2 ≠ Config.unwritten ∧ Memory.wfFrom (c.1 + 1) size rest = true := by
  simp [Memory.wfFrom, and_assoc]

theorem Memory.wfFrom_mono {lo lo' size : Nat} (h : lo' ≤ lo) {m : Memory} (hm : Memory.wfFrom lo size m = true) :
    Memory.wfFrom lo' size m = true := by
  cases m with
  | nil => rfl
  | cons c rest =>
    rw [Memory.wfFrom_cons] at *
    exact ⟨h.trans hm.1, hm.2⟩

/-- A cell below the first listed index reads as unwritten. -/
theorem Memory.read_below {lo size k : Nat} {m : Memory} (hm : Memory.wfFrom lo size m = true) (hk : k < lo) :
    m.read k = Config.unwritten := by
  induction m generalizing lo with
  | nil => rfl
  | cons c rest ih =>
    obtain ⟨h1, -, -, h4⟩ := Memory.wfFrom_cons.mp hm
    have : c.1 ≠ k := by omega
    simpa [Memory.read, this] using ih h4 (by omega)

theorem Memory.write_wfFrom {lo size k : Nat} {v : Byte} {m : Memory} (hm : Memory.wfFrom lo size m = true)
    (hlo : lo ≤ k) (hk : k < size) : Memory.wfFrom lo size (m.write k v) = true := by
  induction m generalizing lo with
  | nil => by_cases hv : v = Config.unwritten <;> simp_all [Memory.write, Memory.wfFrom]
  | cons c rest ih =>
    obtain ⟨h1, h2, h3, h4⟩ := Memory.wfFrom_cons.mp hm
    unfold Memory.write
    rcases Nat.lt_trichotomy k c.1 with h | h | h
    · by_cases hv : v = Config.unwritten
      · simpa [h, hv] using hm
      · simp only [h, hv, if_true, if_false]
        exact Memory.wfFrom_cons.mpr ⟨hlo, hk, hv, Memory.wfFrom_cons.mpr ⟨h, h2, h3, h4⟩⟩
    · by_cases hv : v = Config.unwritten
      · simpa [h, hv] using Memory.wfFrom_mono (by omega) h4
      · simp only [h, lt_irrefl, hv, if_true, if_false]
        exact Memory.wfFrom_cons.mpr ⟨h1, h2, hv, h4⟩
    · have h5 : ¬k < c.1 := by omega
      have h6 : k ≠ c.1 := by omega
      simp only [h5, h6, if_false]
      exact Memory.wfFrom_cons.mpr ⟨h1, h2, h3, ih h4 (by omega)⟩

/-- A write inside the store keeps the canonical form. -/
theorem Memory.write_wf {size k : Nat} {v : Byte} {m : Memory} (hm : m.wf size = true) (hk : k < size) :
    (m.write k v).wf size = true :=
  Memory.write_wfFrom hm (Nat.zero_le _) hk

/-- A write leaves every other cell alone, in any store. -/
theorem Memory.read_write_ne {k j : Nat} {v : Byte} (m : Memory) (hj : j ≠ k) : (m.write k v).read j = m.read j := by
  have hkj : k ≠ j := fun h => hj h.symm
  induction m with
  | nil => by_cases hv : v = Config.unwritten <;> simp [Memory.write, Memory.read, hv, hkj]
  | cons c rest ih =>
    unfold Memory.write
    rcases Nat.lt_trichotomy k c.1 with h | h | h
    · by_cases hv : v = Config.unwritten <;> simp [Memory.read, h, hv, hkj]
    · have h7 : c.1 ≠ j := fun e => hkj (h.trans e)
      by_cases hv : v = Config.unwritten <;> simp [Memory.read, h, hv, h7]
    · have h5 : ¬k < c.1 := by omega
      have h6 : k ≠ c.1 := by omega
      simp only [h5, h6, if_false, Memory.read, ih]

theorem Memory.read_write_eq_from {lo size k : Nat} {v : Byte} {m : Memory} (hm : Memory.wfFrom lo size m = true) :
    (m.write k v).read k = v := by
  induction m generalizing lo with
  | nil => by_cases hv : v = Config.unwritten <;> simp [Memory.write, Memory.read, hv]
  | cons c rest ih =>
    obtain ⟨h1, h2, h3, h4⟩ := Memory.wfFrom_cons.mp hm
    unfold Memory.write
    rcases Nat.lt_trichotomy k c.1 with h | h | h
    · by_cases hv : v = Config.unwritten
      · simp only [h, hv, if_true]
        exact Memory.read_below (Memory.wfFrom_cons.mpr ⟨le_refl _, h2, h3, h4⟩) h
      · simp [Memory.read, h, hv]
    · by_cases hv : v = Config.unwritten
      · simp only [h, hv, lt_irrefl, if_true, if_false]
        exact Memory.read_below h4 (by omega)
      · simp [Memory.read, h, hv]
    · have h5 : ¬k < c.1 := by omega
      have h6 : k ≠ c.1 := by omega
      simp only [h5, h6, h6.symm, if_false, Memory.read, ih h4]

/-- A read after a write to the same cell of a store in its canonical form gives the value written. -/
theorem Memory.read_write_eq {size k : Nat} {v : Byte} {m : Memory} (hm : m.wf size = true) : (m.write k v).read k = v :=
  Memory.read_write_eq_from hm

end Sys2Proof.Machine
end

