-- ==== Sys2Proof/Laws/State.lean ====
section
/-! SUPPORT. One lemma per field per update of the state, so that no later proof unfolds a record update. -/

namespace Sys2Proof.Machine

@[simp] theorem State.setA_a (s : State) (v : Byte) : (s.setA v).a = v := rfl
@[simp] theorem State.setA_x (s : State) (v : Byte) : (s.setA v).x = s.x := rfl
@[simp] theorem State.setA_y (s : State) (v : Byte) : (s.setA v).y = s.y := rfl
@[simp] theorem State.setA_sp (s : State) (v : Byte) : (s.setA v).sp = s.sp := rfl
@[simp] theorem State.setA_pc (s : State) (v : Byte) : (s.setA v).pc = s.pc := rfl
@[simp] theorem State.setA_flags (s : State) (v : Byte) : (s.setA v).flags = s.flags := rfl
@[simp] theorem State.setA_run (s : State) (v : Byte) : (s.setA v).run = s.run := rfl
@[simp] theorem State.setA_ram (s : State) (v : Byte) : (s.setA v).ram = s.ram := rfl
@[simp] theorem State.setA_rv0 (s : State) (v : Byte) : (s.setA v).rv0 = s.rv0 := rfl
@[simp] theorem State.setA_rv1 (s : State) (v : Byte) : (s.setA v).rv1 = s.rv1 := rfl
@[simp] theorem State.setA_ppuAddr (s : State) (v : Byte) : (s.setA v).ppuAddr = s.ppuAddr := rfl
@[simp] theorem State.setA_ppuLatchHi (s : State) (v : Byte) : (s.setA v).ppuLatchHi = s.ppuLatchHi := rfl
@[simp] theorem State.setA_ppuCtrl (s : State) (v : Byte) : (s.setA v).ppuCtrl = s.ppuCtrl := rfl
@[simp] theorem State.setA_ppuBuf (s : State) (v : Byte) : (s.setA v).ppuBuf = s.ppuBuf := rfl
@[simp] theorem State.setA_vram (s : State) (v : Byte) : (s.setA v).vram = s.vram := rfl
@[simp] theorem State.setA_palette (s : State) (v : Byte) : (s.setA v).palette = s.palette := rfl
@[simp] theorem State.setA_oam (s : State) (v : Byte) : (s.setA v).oam = s.oam := rfl
@[simp] theorem State.setA_cfg (s : State) (v : Byte) : (s.setA v).cfg = s.cfg := rfl

@[simp] theorem State.setX_a (s : State) (v : Byte) : (s.setX v).a = s.a := rfl
@[simp] theorem State.setX_x (s : State) (v : Byte) : (s.setX v).x = v := rfl
@[simp] theorem State.setX_y (s : State) (v : Byte) : (s.setX v).y = s.y := rfl
@[simp] theorem State.setX_sp (s : State) (v : Byte) : (s.setX v).sp = s.sp := rfl
@[simp] theorem State.setX_pc (s : State) (v : Byte) : (s.setX v).pc = s.pc := rfl
@[simp] theorem State.setX_flags (s : State) (v : Byte) : (s.setX v).flags = s.flags := rfl
@[simp] theorem State.setX_run (s : State) (v : Byte) : (s.setX v).run = s.run := rfl
@[simp] theorem State.setX_ram (s : State) (v : Byte) : (s.setX v).ram = s.ram := rfl
@[simp] theorem State.setX_rv0 (s : State) (v : Byte) : (s.setX v).rv0 = s.rv0 := rfl
@[simp] theorem State.setX_rv1 (s : State) (v : Byte) : (s.setX v).rv1 = s.rv1 := rfl
@[simp] theorem State.setX_ppuAddr (s : State) (v : Byte) : (s.setX v).ppuAddr = s.ppuAddr := rfl
@[simp] theorem State.setX_ppuLatchHi (s : State) (v : Byte) : (s.setX v).ppuLatchHi = s.ppuLatchHi := rfl
@[simp] theorem State.setX_ppuCtrl (s : State) (v : Byte) : (s.setX v).ppuCtrl = s.ppuCtrl := rfl
@[simp] theorem State.setX_ppuBuf (s : State) (v : Byte) : (s.setX v).ppuBuf = s.ppuBuf := rfl
@[simp] theorem State.setX_vram (s : State) (v : Byte) : (s.setX v).vram = s.vram := rfl
@[simp] theorem State.setX_palette (s : State) (v : Byte) : (s.setX v).palette = s.palette := rfl
@[simp] theorem State.setX_oam (s : State) (v : Byte) : (s.setX v).oam = s.oam := rfl
@[simp] theorem State.setX_cfg (s : State) (v : Byte) : (s.setX v).cfg = s.cfg := rfl

@[simp] theorem State.setY_a (s : State) (v : Byte) : (s.setY v).a = s.a := rfl
@[simp] theorem State.setY_x (s : State) (v : Byte) : (s.setY v).x = s.x := rfl
@[simp] theorem State.setY_y (s : State) (v : Byte) : (s.setY v).y = v := rfl
@[simp] theorem State.setY_sp (s : State) (v : Byte) : (s.setY v).sp = s.sp := rfl
@[simp] theorem State.setY_pc (s : State) (v : Byte) : (s.setY v).pc = s.pc := rfl
@[simp] theorem State.setY_flags (s : State) (v : Byte) : (s.setY v).flags = s.flags := rfl
@[simp] theorem State.setY_run (s : State) (v : Byte) : (s.setY v).run = s.run := rfl
@[simp] theorem State.setY_ram (s : State) (v : Byte) : (s.setY v).ram = s.ram := rfl
@[simp] theorem State.setY_rv0 (s : State) (v : Byte) : (s.setY v).rv0 = s.rv0 := rfl
@[simp] theorem State.setY_rv1 (s : State) (v : Byte) : (s.setY v).rv1 = s.rv1 := rfl
@[simp] theorem State.setY_ppuAddr (s : State) (v : Byte) : (s.setY v).ppuAddr = s.ppuAddr := rfl
@[simp] theorem State.setY_ppuLatchHi (s : State) (v : Byte) : (s.setY v).ppuLatchHi = s.ppuLatchHi := rfl
@[simp] theorem State.setY_ppuCtrl (s : State) (v : Byte) : (s.setY v).ppuCtrl = s.ppuCtrl := rfl
@[simp] theorem State.setY_ppuBuf (s : State) (v : Byte) : (s.setY v).ppuBuf = s.ppuBuf := rfl
@[simp] theorem State.setY_vram (s : State) (v : Byte) : (s.setY v).vram = s.vram := rfl
@[simp] theorem State.setY_palette (s : State) (v : Byte) : (s.setY v).palette = s.palette := rfl
@[simp] theorem State.setY_oam (s : State) (v : Byte) : (s.setY v).oam = s.oam := rfl
@[simp] theorem State.setY_cfg (s : State) (v : Byte) : (s.setY v).cfg = s.cfg := rfl

@[simp] theorem State.setSp_a (s : State) (v : Byte) : (s.setSp v).a = s.a := rfl
@[simp] theorem State.setSp_x (s : State) (v : Byte) : (s.setSp v).x = s.x := rfl
@[simp] theorem State.setSp_y (s : State) (v : Byte) : (s.setSp v).y = s.y := rfl
@[simp] theorem State.setSp_sp (s : State) (v : Byte) : (s.setSp v).sp = v := rfl
@[simp] theorem State.setSp_pc (s : State) (v : Byte) : (s.setSp v).pc = s.pc := rfl
@[simp] theorem State.setSp_flags (s : State) (v : Byte) : (s.setSp v).flags = s.flags := rfl
@[simp] theorem State.setSp_run (s : State) (v : Byte) : (s.setSp v).run = s.run := rfl
@[simp] theorem State.setSp_ram (s : State) (v : Byte) : (s.setSp v).ram = s.ram := rfl
@[simp] theorem State.setSp_rv0 (s : State) (v : Byte) : (s.setSp v).rv0 = s.rv0 := rfl
@[simp] theorem State.setSp_rv1 (s : State) (v : Byte) : (s.setSp v).rv1 = s.rv1 := rfl
@[simp] theorem State.setSp_ppuAddr (s : State) (v : Byte) : (s.setSp v).ppuAddr = s.ppuAddr := rfl
@[simp] theorem State.setSp_ppuLatchHi (s : State) (v : Byte) : (s.setSp v).ppuLatchHi = s.ppuLatchHi := rfl
@[simp] theorem State.setSp_ppuCtrl (s : State) (v : Byte) : (s.setSp v).ppuCtrl = s.ppuCtrl := rfl
@[simp] theorem State.setSp_ppuBuf (s : State) (v : Byte) : (s.setSp v).ppuBuf = s.ppuBuf := rfl
@[simp] theorem State.setSp_vram (s : State) (v : Byte) : (s.setSp v).vram = s.vram := rfl
@[simp] theorem State.setSp_palette (s : State) (v : Byte) : (s.setSp v).palette = s.palette := rfl
@[simp] theorem State.setSp_oam (s : State) (v : Byte) : (s.setSp v).oam = s.oam := rfl
@[simp] theorem State.setSp_cfg (s : State) (v : Byte) : (s.setSp v).cfg = s.cfg := rfl

@[simp] theorem State.setPc_a (s : State) (v : Addr) : (s.setPc v).a = s.a := rfl
@[simp] theorem State.setPc_x (s : State) (v : Addr) : (s.setPc v).x = s.x := rfl
@[simp] theorem State.setPc_y (s : State) (v : Addr) : (s.setPc v).y = s.y := rfl
@[simp] theorem State.setPc_sp (s : State) (v : Addr) : (s.setPc v).sp = s.sp := rfl
@[simp] theorem State.setPc_pc (s : State) (v : Addr) : (s.setPc v).pc = v := rfl
@[simp] theorem State.setPc_flags (s : State) (v : Addr) : (s.setPc v).flags = s.flags := rfl
@[simp] theorem State.setPc_run (s : State) (v : Addr) : (s.setPc v).run = s.run := rfl
@[simp] theorem State.setPc_ram (s : State) (v : Addr) : (s.setPc v).ram = s.ram := rfl
@[simp] theorem State.setPc_rv0 (s : State) (v : Addr) : (s.setPc v).rv0 = s.rv0 := rfl
@[simp] theorem State.setPc_rv1 (s : State) (v : Addr) : (s.setPc v).rv1 = s.rv1 := rfl
@[simp] theorem State.setPc_ppuAddr (s : State) (v : Addr) : (s.setPc v).ppuAddr = s.ppuAddr := rfl
@[simp] theorem State.setPc_ppuLatchHi (s : State) (v : Addr) : (s.setPc v).ppuLatchHi = s.ppuLatchHi := rfl
@[simp] theorem State.setPc_ppuCtrl (s : State) (v : Addr) : (s.setPc v).ppuCtrl = s.ppuCtrl := rfl
@[simp] theorem State.setPc_ppuBuf (s : State) (v : Addr) : (s.setPc v).ppuBuf = s.ppuBuf := rfl
@[simp] theorem State.setPc_vram (s : State) (v : Addr) : (s.setPc v).vram = s.vram := rfl
@[simp] theorem State.setPc_palette (s : State) (v : Addr) : (s.setPc v).palette = s.palette := rfl
@[simp] theorem State.setPc_oam (s : State) (v : Addr) : (s.setPc v).oam = s.oam := rfl
@[simp] theorem State.setPc_cfg (s : State) (v : Addr) : (s.setPc v).cfg = s.cfg := rfl

@[simp] theorem State.setFlags_a (s : State) (v : Flags) : (s.setFlags v).a = s.a := rfl
@[simp] theorem State.setFlags_x (s : State) (v : Flags) : (s.setFlags v).x = s.x := rfl
@[simp] theorem State.setFlags_y (s : State) (v : Flags) : (s.setFlags v).y = s.y := rfl
@[simp] theorem State.setFlags_sp (s : State) (v : Flags) : (s.setFlags v).sp = s.sp := rfl
@[simp] theorem State.setFlags_pc (s : State) (v : Flags) : (s.setFlags v).pc = s.pc := rfl
@[simp] theorem State.setFlags_flags (s : State) (v : Flags) : (s.setFlags v).flags = v := rfl
@[simp] theorem State.setFlags_run (s : State) (v : Flags) : (s.setFlags v).run = s.run := rfl
@[simp] theorem State.setFlags_ram (s : State) (v : Flags) : (s.setFlags v).ram = s.ram := rfl
@[simp] theorem State.setFlags_rv0 (s : State) (v : Flags) : (s.setFlags v).rv0 = s.rv0 := rfl
@[simp] theorem State.setFlags_rv1 (s : State) (v : Flags) : (s.setFlags v).rv1 = s.rv1 := rfl
@[simp] theorem State.setFlags_ppuAddr (s : State) (v : Flags) : (s.setFlags v).ppuAddr = s.ppuAddr := rfl
@[simp] theorem State.setFlags_ppuLatchHi (s : State) (v : Flags) : (s.setFlags v).ppuLatchHi = s.ppuLatchHi := rfl
@[simp] theorem State.setFlags_ppuCtrl (s : State) (v : Flags) : (s.setFlags v).ppuCtrl = s.ppuCtrl := rfl
@[simp] theorem State.setFlags_ppuBuf (s : State) (v : Flags) : (s.setFlags v).ppuBuf = s.ppuBuf := rfl
@[simp] theorem State.setFlags_vram (s : State) (v : Flags) : (s.setFlags v).vram = s.vram := rfl
@[simp] theorem State.setFlags_palette (s : State) (v : Flags) : (s.setFlags v).palette = s.palette := rfl
@[simp] theorem State.setFlags_oam (s : State) (v : Flags) : (s.setFlags v).oam = s.oam := rfl
@[simp] theorem State.setFlags_cfg (s : State) (v : Flags) : (s.setFlags v).cfg = s.cfg := rfl

@[simp] theorem State.setRun_a (s : State) (v : RunState) : (s.setRun v).a = s.a := rfl
@[simp] theorem State.setRun_x (s : State) (v : RunState) : (s.setRun v).x = s.x := rfl
@[simp] theorem State.setRun_y (s : State) (v : RunState) : (s.setRun v).y = s.y := rfl
@[simp] theorem State.setRun_sp (s : State) (v : RunState) : (s.setRun v).sp = s.sp := rfl
@[simp] theorem State.setRun_pc (s : State) (v : RunState) : (s.setRun v).pc = s.pc := rfl
@[simp] theorem State.setRun_flags (s : State) (v : RunState) : (s.setRun v).flags = s.flags := rfl
@[simp] theorem State.setRun_run (s : State) (v : RunState) : (s.setRun v).run = v := rfl
@[simp] theorem State.setRun_ram (s : State) (v : RunState) : (s.setRun v).ram = s.ram := rfl
@[simp] theorem State.setRun_rv0 (s : State) (v : RunState) : (s.setRun v).rv0 = s.rv0 := rfl
@[simp] theorem State.setRun_rv1 (s : State) (v : RunState) : (s.setRun v).rv1 = s.rv1 := rfl
@[simp] theorem State.setRun_ppuAddr (s : State) (v : RunState) : (s.setRun v).ppuAddr = s.ppuAddr := rfl
@[simp] theorem State.setRun_ppuLatchHi (s : State) (v : RunState) : (s.setRun v).ppuLatchHi = s.ppuLatchHi := rfl
@[simp] theorem State.setRun_ppuCtrl (s : State) (v : RunState) : (s.setRun v).ppuCtrl = s.ppuCtrl := rfl
@[simp] theorem State.setRun_ppuBuf (s : State) (v : RunState) : (s.setRun v).ppuBuf = s.ppuBuf := rfl
@[simp] theorem State.setRun_vram (s : State) (v : RunState) : (s.setRun v).vram = s.vram := rfl
@[simp] theorem State.setRun_palette (s : State) (v : RunState) : (s.setRun v).palette = s.palette := rfl
@[simp] theorem State.setRun_oam (s : State) (v : RunState) : (s.setRun v).oam = s.oam := rfl
@[simp] theorem State.setRun_cfg (s : State) (v : RunState) : (s.setRun v).cfg = s.cfg := rfl

@[simp] theorem State.setRam_a (s : State) (v : Memory) : (s.setRam v).a = s.a := rfl
@[simp] theorem State.setRam_x (s : State) (v : Memory) : (s.setRam v).x = s.x := rfl
@[simp] theorem State.setRam_y (s : State) (v : Memory) : (s.setRam v).y = s.y := rfl
@[simp] theorem State.setRam_sp (s : State) (v : Memory) : (s.setRam v).sp = s.sp := rfl
@[simp] theorem State.setRam_pc (s : State) (v : Memory) : (s.setRam v).pc = s.pc := rfl
@[simp] theorem State.setRam_flags (s : State) (v : Memory) : (s.setRam v).flags = s.flags := rfl
@[simp] theorem State.setRam_run (s : State) (v : Memory) : (s.setRam v).run = s.run := rfl
@[simp] theorem State.setRam_ram (s : State) (v : Memory) : (s.setRam v).ram = v := rfl
@[simp] theorem State.setRam_rv0 (s : State) (v : Memory) : (s.setRam v).rv0 = s.rv0 := rfl
@[simp] theorem State.setRam_rv1 (s : State) (v : Memory) : (s.setRam v).rv1 = s.rv1 := rfl
@[simp] theorem State.setRam_ppuAddr (s : State) (v : Memory) : (s.setRam v).ppuAddr = s.ppuAddr := rfl
@[simp] theorem State.setRam_ppuLatchHi (s : State) (v : Memory) : (s.setRam v).ppuLatchHi = s.ppuLatchHi := rfl
@[simp] theorem State.setRam_ppuCtrl (s : State) (v : Memory) : (s.setRam v).ppuCtrl = s.ppuCtrl := rfl
@[simp] theorem State.setRam_ppuBuf (s : State) (v : Memory) : (s.setRam v).ppuBuf = s.ppuBuf := rfl
@[simp] theorem State.setRam_vram (s : State) (v : Memory) : (s.setRam v).vram = s.vram := rfl
@[simp] theorem State.setRam_palette (s : State) (v : Memory) : (s.setRam v).palette = s.palette := rfl
@[simp] theorem State.setRam_oam (s : State) (v : Memory) : (s.setRam v).oam = s.oam := rfl
@[simp] theorem State.setRam_cfg (s : State) (v : Memory) : (s.setRam v).cfg = s.cfg := rfl

@[simp] theorem State.setRv0_a (s : State) (v : Byte) : (s.setRv0 v).a = s.a := rfl
@[simp] theorem State.setRv0_x (s : State) (v : Byte) : (s.setRv0 v).x = s.x := rfl
@[simp] theorem State.setRv0_y (s : State) (v : Byte) : (s.setRv0 v).y = s.y := rfl
@[simp] theorem State.setRv0_sp (s : State) (v : Byte) : (s.setRv0 v).sp = s.sp := rfl
@[simp] theorem State.setRv0_pc (s : State) (v : Byte) : (s.setRv0 v).pc = s.pc := rfl
@[simp] theorem State.setRv0_flags (s : State) (v : Byte) : (s.setRv0 v).flags = s.flags := rfl
@[simp] theorem State.setRv0_run (s : State) (v : Byte) : (s.setRv0 v).run = s.run := rfl
@[simp] theorem State.setRv0_ram (s : State) (v : Byte) : (s.setRv0 v).ram = s.ram := rfl
@[simp] theorem State.setRv0_rv0 (s : State) (v : Byte) : (s.setRv0 v).rv0 = v := rfl
@[simp] theorem State.setRv0_rv1 (s : State) (v : Byte) : (s.setRv0 v).rv1 = s.rv1 := rfl
@[simp] theorem State.setRv0_ppuAddr (s : State) (v : Byte) : (s.setRv0 v).ppuAddr = s.ppuAddr := rfl
@[simp] theorem State.setRv0_ppuLatchHi (s : State) (v : Byte) : (s.setRv0 v).ppuLatchHi = s.ppuLatchHi := rfl
@[simp] theorem State.setRv0_ppuCtrl (s : State) (v : Byte) : (s.setRv0 v).ppuCtrl = s.ppuCtrl := rfl
@[simp] theorem State.setRv0_ppuBuf (s : State) (v : Byte) : (s.setRv0 v).ppuBuf = s.ppuBuf := rfl
@[simp] theorem State.setRv0_vram (s : State) (v : Byte) : (s.setRv0 v).vram = s.vram := rfl
@[simp] theorem State.setRv0_palette (s : State) (v : Byte) : (s.setRv0 v).palette = s.palette := rfl
@[simp] theorem State.setRv0_oam (s : State) (v : Byte) : (s.setRv0 v).oam = s.oam := rfl
@[simp] theorem State.setRv0_cfg (s : State) (v : Byte) : (s.setRv0 v).cfg = s.cfg := rfl

@[simp] theorem State.setRv1_a (s : State) (v : Byte) : (s.setRv1 v).a = s.a := rfl
@[simp] theorem State.setRv1_x (s : State) (v : Byte) : (s.setRv1 v).x = s.x := rfl
@[simp] theorem State.setRv1_y (s : State) (v : Byte) : (s.setRv1 v).y = s.y := rfl
@[simp] theorem State.setRv1_sp (s : State) (v : Byte) : (s.setRv1 v).sp = s.sp := rfl
@[simp] theorem State.setRv1_pc (s : State) (v : Byte) : (s.setRv1 v).pc = s.pc := rfl
@[simp] theorem State.setRv1_flags (s : State) (v : Byte) : (s.setRv1 v).flags = s.flags := rfl
@[simp] theorem State.setRv1_run (s : State) (v : Byte) : (s.setRv1 v).run = s.run := rfl
@[simp] theorem State.setRv1_ram (s : State) (v : Byte) : (s.setRv1 v).ram = s.ram := rfl
@[simp] theorem State.setRv1_rv0 (s : State) (v : Byte) : (s.setRv1 v).rv0 = s.rv0 := rfl
@[simp] theorem State.setRv1_rv1 (s : State) (v : Byte) : (s.setRv1 v).rv1 = v := rfl
@[simp] theorem State.setRv1_ppuAddr (s : State) (v : Byte) : (s.setRv1 v).ppuAddr = s.ppuAddr := rfl
@[simp] theorem State.setRv1_ppuLatchHi (s : State) (v : Byte) : (s.setRv1 v).ppuLatchHi = s.ppuLatchHi := rfl
@[simp] theorem State.setRv1_ppuCtrl (s : State) (v : Byte) : (s.setRv1 v).ppuCtrl = s.ppuCtrl := rfl
@[simp] theorem State.setRv1_ppuBuf (s : State) (v : Byte) : (s.setRv1 v).ppuBuf = s.ppuBuf := rfl
@[simp] theorem State.setRv1_vram (s : State) (v : Byte) : (s.setRv1 v).vram = s.vram := rfl
@[simp] theorem State.setRv1_palette (s : State) (v : Byte) : (s.setRv1 v).palette = s.palette := rfl
@[simp] theorem State.setRv1_oam (s : State) (v : Byte) : (s.setRv1 v).oam = s.oam := rfl
@[simp] theorem State.setRv1_cfg (s : State) (v : Byte) : (s.setRv1 v).cfg = s.cfg := rfl

@[simp] theorem State.setPpuAddr_a (s : State) (v : PpuAddr) : (s.setPpuAddr v).a = s.a := rfl
@[simp] theorem State.setPpuAddr_x (s : State) (v : PpuAddr) : (s.setPpuAddr v).x = s.x := rfl
@[simp] theorem State.setPpuAddr_y (s : State) (v : PpuAddr) : (s.setPpuAddr v).y = s.y := rfl
@[simp] theorem State.setPpuAddr_sp (s : State) (v : PpuAddr) : (s.setPpuAddr v).sp = s.sp := rfl
@[simp] theorem State.setPpuAddr_pc (s : State) (v : PpuAddr) : (s.setPpuAddr v).pc = s.pc := rfl
@[simp] theorem State.setPpuAddr_flags (s : State) (v : PpuAddr) : (s.setPpuAddr v).flags = s.flags := rfl
@[simp] theorem State.setPpuAddr_run (s : State) (v : PpuAddr) : (s.setPpuAddr v).run = s.run := rfl
@[simp] theorem State.setPpuAddr_ram (s : State) (v : PpuAddr) : (s.setPpuAddr v).ram = s.ram := rfl
@[simp] theorem State.setPpuAddr_rv0 (s : State) (v : PpuAddr) : (s.setPpuAddr v).rv0 = s.rv0 := rfl
@[simp] theorem State.setPpuAddr_rv1 (s : State) (v : PpuAddr) : (s.setPpuAddr v).rv1 = s.rv1 := rfl
@[simp] theorem State.setPpuAddr_ppuAddr (s : State) (v : PpuAddr) : (s.setPpuAddr v).ppuAddr = v := rfl
@[simp] theorem State.setPpuAddr_ppuLatchHi (s : State) (v : PpuAddr) : (s.setPpuAddr v).ppuLatchHi = s.ppuLatchHi := rfl
@[simp] theorem State.setPpuAddr_ppuCtrl (s : State) (v : PpuAddr) : (s.setPpuAddr v).ppuCtrl = s.ppuCtrl := rfl
@[simp] theorem State.setPpuAddr_ppuBuf (s : State) (v : PpuAddr) : (s.setPpuAddr v).ppuBuf = s.ppuBuf := rfl
@[simp] theorem State.setPpuAddr_vram (s : State) (v : PpuAddr) : (s.setPpuAddr v).vram = s.vram := rfl
@[simp] theorem State.setPpuAddr_palette (s : State) (v : PpuAddr) : (s.setPpuAddr v).palette = s.palette := rfl
@[simp] theorem State.setPpuAddr_oam (s : State) (v : PpuAddr) : (s.setPpuAddr v).oam = s.oam := rfl
@[simp] theorem State.setPpuAddr_cfg (s : State) (v : PpuAddr) : (s.setPpuAddr v).cfg = s.cfg := rfl

@[simp] theorem State.setPpuLatchHi_a (s : State) (v : Bool) : (s.setPpuLatchHi v).a = s.a := rfl
@[simp] theorem State.setPpuLatchHi_x (s : State) (v : Bool) : (s.setPpuLatchHi v).x = s.x := rfl
@[simp] theorem State.setPpuLatchHi_y (s : State) (v : Bool) : (s.setPpuLatchHi v).y = s.y := rfl
@[simp] theorem State.setPpuLatchHi_sp (s : State) (v : Bool) : (s.setPpuLatchHi v).sp = s.sp := rfl
@[simp] theorem State.setPpuLatchHi_pc (s : State) (v : Bool) : (s.setPpuLatchHi v).pc = s.pc := rfl
@[simp] theorem State.setPpuLatchHi_flags (s : State) (v : Bool) : (s.setPpuLatchHi v).flags = s.flags := rfl
@[simp] theorem State.setPpuLatchHi_run (s : State) (v : Bool) : (s.setPpuLatchHi v).run = s.run := rfl
@[simp] theorem State.setPpuLatchHi_ram (s : State) (v : Bool) : (s.setPpuLatchHi v).ram = s.ram := rfl
@[simp] theorem State.setPpuLatchHi_rv0 (s : State) (v : Bool) : (s.setPpuLatchHi v).rv0 = s.rv0 := rfl
@[simp] theorem State.setPpuLatchHi_rv1 (s : State) (v : Bool) : (s.setPpuLatchHi v).rv1 = s.rv1 := rfl
@[simp] theorem State.setPpuLatchHi_ppuAddr (s : State) (v : Bool) : (s.setPpuLatchHi v).ppuAddr = s.ppuAddr := rfl
@[simp] theorem State.setPpuLatchHi_ppuLatchHi (s : State) (v : Bool) : (s.setPpuLatchHi v).ppuLatchHi = v := rfl
@[simp] theorem State.setPpuLatchHi_ppuCtrl (s : State) (v : Bool) : (s.setPpuLatchHi v).ppuCtrl = s.ppuCtrl := rfl
@[simp] theorem State.setPpuLatchHi_ppuBuf (s : State) (v : Bool) : (s.setPpuLatchHi v).ppuBuf = s.ppuBuf := rfl
@[simp] theorem State.setPpuLatchHi_vram (s : State) (v : Bool) : (s.setPpuLatchHi v).vram = s.vram := rfl
@[simp] theorem State.setPpuLatchHi_palette (s : State) (v : Bool) : (s.setPpuLatchHi v).palette = s.palette := rfl
@[simp] theorem State.setPpuLatchHi_oam (s : State) (v : Bool) : (s.setPpuLatchHi v).oam = s.oam := rfl
@[simp] theorem State.setPpuLatchHi_cfg (s : State) (v : Bool) : (s.setPpuLatchHi v).cfg = s.cfg := rfl

@[simp] theorem State.setPpuCtrl_a (s : State) (v : Byte) : (s.setPpuCtrl v).a = s.a := rfl
@[simp] theorem State.setPpuCtrl_x (s : State) (v : Byte) : (s.setPpuCtrl v).x = s.x := rfl
@[simp] theorem State.setPpuCtrl_y (s : State) (v : Byte) : (s.setPpuCtrl v).y = s.y := rfl
@[simp] theorem State.setPpuCtrl_sp (s : State) (v : Byte) : (s.setPpuCtrl v).sp = s.sp := rfl
@[simp] theorem State.setPpuCtrl_pc (s : State) (v : Byte) : (s.setPpuCtrl v).pc = s.pc := rfl
@[simp] theorem State.setPpuCtrl_flags (s : State) (v : Byte) : (s.setPpuCtrl v).flags = s.flags := rfl
@[simp] theorem State.setPpuCtrl_run (s : State) (v : Byte) : (s.setPpuCtrl v).run = s.run := rfl
@[simp] theorem State.setPpuCtrl_ram (s : State) (v : Byte) : (s.setPpuCtrl v).ram = s.ram := rfl
@[simp] theorem State.setPpuCtrl_rv0 (s : State) (v : Byte) : (s.setPpuCtrl v).rv0 = s.rv0 := rfl
@[simp] theorem State.setPpuCtrl_rv1 (s : State) (v : Byte) : (s.setPpuCtrl v).rv1 = s.rv1 := rfl
@[simp] theorem State.setPpuCtrl_ppuAddr (s : State) (v : Byte) : (s.setPpuCtrl v).ppuAddr = s.ppuAddr := rfl
@[simp] theorem State.setPpuCtrl_ppuLatchHi (s : State) (v : Byte) : (s.setPpuCtrl v).ppuLatchHi = s.ppuLatchHi := rfl
@[simp] theorem State.setPpuCtrl_ppuCtrl (s : State) (v : Byte) : (s.setPpuCtrl v).ppuCtrl = v := rfl
@[simp] theorem State.setPpuCtrl_ppuBuf (s : State) (v : Byte) : (s.setPpuCtrl v).ppuBuf = s.ppuBuf := rfl
@[simp] theorem State.setPpuCtrl_vram (s : State) (v : Byte) : (s.setPpuCtrl v).vram = s.vram := rfl
@[simp] theorem State.setPpuCtrl_palette (s : State) (v : Byte) : (s.setPpuCtrl v).palette = s.palette := rfl
@[simp] theorem State.setPpuCtrl_oam (s : State) (v : Byte) : (s.setPpuCtrl v).oam = s.oam := rfl
@[simp] theorem State.setPpuCtrl_cfg (s : State) (v : Byte) : (s.setPpuCtrl v).cfg = s.cfg := rfl

@[simp] theorem State.setPpuBuf_a (s : State) (v : Byte) : (s.setPpuBuf v).a = s.a := rfl
@[simp] theorem State.setPpuBuf_x (s : State) (v : Byte) : (s.setPpuBuf v).x = s.x := rfl
@[simp] theorem State.setPpuBuf_y (s : State) (v : Byte) : (s.setPpuBuf v).y = s.y := rfl
@[simp] theorem State.setPpuBuf_sp (s : State) (v : Byte) : (s.setPpuBuf v).sp = s.sp := rfl
@[simp] theorem State.setPpuBuf_pc (s : State) (v : Byte) : (s.setPpuBuf v).pc = s.pc := rfl
@[simp] theorem State.setPpuBuf_flags (s : State) (v : Byte) : (s.setPpuBuf v).flags = s.flags := rfl
@[simp] theorem State.setPpuBuf_run (s : State) (v : Byte) : (s.setPpuBuf v).run = s.run := rfl
@[simp] theorem State.setPpuBuf_ram (s : State) (v : Byte) : (s.setPpuBuf v).ram = s.ram := rfl
@[simp] theorem State.setPpuBuf_rv0 (s : State) (v : Byte) : (s.setPpuBuf v).rv0 = s.rv0 := rfl
@[simp] theorem State.setPpuBuf_rv1 (s : State) (v : Byte) : (s.setPpuBuf v).rv1 = s.rv1 := rfl
@[simp] theorem State.setPpuBuf_ppuAddr (s : State) (v : Byte) : (s.setPpuBuf v).ppuAddr = s.ppuAddr := rfl
@[simp] theorem State.setPpuBuf_ppuLatchHi (s : State) (v : Byte) : (s.setPpuBuf v).ppuLatchHi = s.ppuLatchHi := rfl
@[simp] theorem State.setPpuBuf_ppuCtrl (s : State) (v : Byte) : (s.setPpuBuf v).ppuCtrl = s.ppuCtrl := rfl
@[simp] theorem State.setPpuBuf_ppuBuf (s : State) (v : Byte) : (s.setPpuBuf v).ppuBuf = v := rfl
@[simp] theorem State.setPpuBuf_vram (s : State) (v : Byte) : (s.setPpuBuf v).vram = s.vram := rfl
@[simp] theorem State.setPpuBuf_palette (s : State) (v : Byte) : (s.setPpuBuf v).palette = s.palette := rfl
@[simp] theorem State.setPpuBuf_oam (s : State) (v : Byte) : (s.setPpuBuf v).oam = s.oam := rfl
@[simp] theorem State.setPpuBuf_cfg (s : State) (v : Byte) : (s.setPpuBuf v).cfg = s.cfg := rfl

@[simp] theorem State.setVram_a (s : State) (v : Memory) : (s.setVram v).a = s.a := rfl
@[simp] theorem State.setVram_x (s : State) (v : Memory) : (s.setVram v).x = s.x := rfl
@[simp] theorem State.setVram_y (s : State) (v : Memory) : (s.setVram v).y = s.y := rfl
@[simp] theorem State.setVram_sp (s : State) (v : Memory) : (s.setVram v).sp = s.sp := rfl
@[simp] theorem State.setVram_pc (s : State) (v : Memory) : (s.setVram v).pc = s.pc := rfl
@[simp] theorem State.setVram_flags (s : State) (v : Memory) : (s.setVram v).flags = s.flags := rfl
@[simp] theorem State.setVram_run (s : State) (v : Memory) : (s.setVram v).run = s.run := rfl
@[simp] theorem State.setVram_ram (s : State) (v : Memory) : (s.setVram v).ram = s.ram := rfl
@[simp] theorem State.setVram_rv0 (s : State) (v : Memory) : (s.setVram v).rv0 = s.rv0 := rfl
@[simp] theorem State.setVram_rv1 (s : State) (v : Memory) : (s.setVram v).rv1 = s.rv1 := rfl
@[simp] theorem State.setVram_ppuAddr (s : State) (v : Memory) : (s.setVram v).ppuAddr = s.ppuAddr := rfl
@[simp] theorem State.setVram_ppuLatchHi (s : State) (v : Memory) : (s.setVram v).ppuLatchHi = s.ppuLatchHi := rfl
@[simp] theorem State.setVram_ppuCtrl (s : State) (v : Memory) : (s.setVram v).ppuCtrl = s.ppuCtrl := rfl
@[simp] theorem State.setVram_ppuBuf (s : State) (v : Memory) : (s.setVram v).ppuBuf = s.ppuBuf := rfl
@[simp] theorem State.setVram_vram (s : State) (v : Memory) : (s.setVram v).vram = v := rfl
@[simp] theorem State.setVram_palette (s : State) (v : Memory) : (s.setVram v).palette = s.palette := rfl
@[simp] theorem State.setVram_oam (s : State) (v : Memory) : (s.setVram v).oam = s.oam := rfl
@[simp] theorem State.setVram_cfg (s : State) (v : Memory) : (s.setVram v).cfg = s.cfg := rfl

@[simp] theorem State.setPalette_a (s : State) (v : Memory) : (s.setPalette v).a = s.a := rfl
@[simp] theorem State.setPalette_x (s : State) (v : Memory) : (s.setPalette v).x = s.x := rfl
@[simp] theorem State.setPalette_y (s : State) (v : Memory) : (s.setPalette v).y = s.y := rfl
@[simp] theorem State.setPalette_sp (s : State) (v : Memory) : (s.setPalette v).sp = s.sp := rfl
@[simp] theorem State.setPalette_pc (s : State) (v : Memory) : (s.setPalette v).pc = s.pc := rfl
@[simp] theorem State.setPalette_flags (s : State) (v : Memory) : (s.setPalette v).flags = s.flags := rfl
@[simp] theorem State.setPalette_run (s : State) (v : Memory) : (s.setPalette v).run = s.run := rfl
@[simp] theorem State.setPalette_ram (s : State) (v : Memory) : (s.setPalette v).ram = s.ram := rfl
@[simp] theorem State.setPalette_rv0 (s : State) (v : Memory) : (s.setPalette v).rv0 = s.rv0 := rfl
@[simp] theorem State.setPalette_rv1 (s : State) (v : Memory) : (s.setPalette v).rv1 = s.rv1 := rfl
@[simp] theorem State.setPalette_ppuAddr (s : State) (v : Memory) : (s.setPalette v).ppuAddr = s.ppuAddr := rfl
@[simp] theorem State.setPalette_ppuLatchHi (s : State) (v : Memory) : (s.setPalette v).ppuLatchHi = s.ppuLatchHi := rfl
@[simp] theorem State.setPalette_ppuCtrl (s : State) (v : Memory) : (s.setPalette v).ppuCtrl = s.ppuCtrl := rfl
@[simp] theorem State.setPalette_ppuBuf (s : State) (v : Memory) : (s.setPalette v).ppuBuf = s.ppuBuf := rfl
@[simp] theorem State.setPalette_vram (s : State) (v : Memory) : (s.setPalette v).vram = s.vram := rfl
@[simp] theorem State.setPalette_palette (s : State) (v : Memory) : (s.setPalette v).palette = v := rfl
@[simp] theorem State.setPalette_oam (s : State) (v : Memory) : (s.setPalette v).oam = s.oam := rfl
@[simp] theorem State.setPalette_cfg (s : State) (v : Memory) : (s.setPalette v).cfg = s.cfg := rfl

end Sys2Proof.Machine
end

