-- ==== Sys2Proof/Laws/Ops.lean ====
section
/-! SUPPORT. The laws of the result type and of the word helpers. -/

namespace Sys2Proof.Machine

variable {α β : Type}

@[simp] theorem Res.andThen_ok (v : α) (s : State) (k : α → State → Res β) : (Res.ok v s).andThen k = k v s := rfl
@[simp] theorem Res.andThen_fault (f : Fault) (k : α → State → Res β) : (Res.fault f : Res α).andThen k = .fault f := rfl
@[simp] theorem Res.run_ok (v : α) (s : State) (k : α → State → State) : (Res.ok v s).run k = .next (k v s) := rfl
@[simp] theorem Res.run_fault (f : Fault) (k : α → State → State) : (Res.fault f : Res α).run k = .fault f := rfl

theorem Res.andThen_eq_ok {r : Res α} {k : α → State → Res β} {v : β} {t : State} :
    r.andThen k = .ok v t ↔ ∃ a u, r = .ok a u ∧ k a u = .ok v t := by
  cases r <;> simp

theorem Res.andThen_eq_fault {r : Res α} {k : α → State → Res β} {f : Fault} :
    r.andThen k = .fault f ↔ r = .fault f ∨ ∃ a u, r = .ok a u ∧ k a u = .fault f := by
  cases r <;> simp

theorem Res.run_eq_next {r : Res α} {k : α → State → State} {t : State} :
    r.run k = .next t ↔ ∃ v u, r = .ok v u ∧ k v u = t := by
  cases r <;> simp

theorem Res.run_eq_fault {r : Res α} {k : α → State → State} {f : Fault} :
    r.run k = .fault f ↔ r = .fault f := by
  cases r <;> simp

@[simp] theorem Res.run_ne_refused (r : Res α) (k : α → State → State) (q : Refusal) : r.run k ≠ .refused q := by
  cases r <;> simp

theorem hiLo_toNat (hi lo : Byte) : (hiLo hi lo).toNat = hi.toNat * 256 + lo.toNat := by
  have h := lo.isLt
  have e : (hiLo hi lo).toNat = hi.toNat <<< 8 ||| lo.toNat := BitVec.toNat_append hi lo
  rw [e, ← Nat.shiftLeft_add_eq_or_of_lt h, Nat.shiftLeft_eq]

theorem highByte_toNat (v : Addr) : (highByte v).toNat = v.toNat / 256 := by
  have := v.isLt
  simp [highByte, Nat.shiftRight_eq_div_pow]
  omega

theorem lowByte_toNat (v : Addr) : (lowByte v).toNat = v.toNat % 256 := by
  simp [lowByte]

@[simp] theorem hiLo_highByte_lowByte (v : Addr) : hiLo (highByte v) (lowByte v) = v := by
  apply BitVec.eq_of_toNat_eq
  rw [hiLo_toNat, highByte_toNat, lowByte_toNat]
  omega

@[simp] theorem zext16_toNat (v : Byte) : (zext16 v).toNat = v.toNat := by
  have := v.isLt
  simp [zext16]
  omega

end Sys2Proof.Machine
end

