-- ==== Sys2Proof/Laws/Bus.lean ====
section
/-! SUPPORT. What a Bus access can do, said once: a read changes at most the PPU address and data buffer, a write changes at
most the stores and the PPU address, latch and control registers; and where a write goes. -/

namespace Sys2Proof.Machine

/-- `t` is `s` but for what a PPU data read changes. -/
def OnlyReads (s t : State) : Prop := t = { s with ppuAddr := t.ppuAddr, ppuBuf := t.ppuBuf }

/-- `t` is `s` but for what a Bus write can change. -/
def OnlyStores (s t : State) : Prop :=
  t = { s with
    ram := t.ram, rv0 := t.rv0, rv1 := t.rv1, vram := t.vram, palette := t.palette
    ppuAddr := t.ppuAddr, ppuLatchHi := t.ppuLatchHi, ppuCtrl := t.ppuCtrl }

theorem OnlyReads.refl (s : State) : OnlyReads s s := rfl

theorem OnlyReads.trans {s t u : State} (h : OnlyReads s t) (k : OnlyReads t u) : OnlyReads s u := by
  unfold OnlyReads at *; rw [k, h]

theorem OnlyReads.same_bytes {s t : State} (h : OnlyReads s t) : SameBytes s t := by
  intro c; rw [h]; cases c <;> rfl

/-! ### The windows -/

theorem ramIndex_eq (a : Addr) : ramIndex a = a.toNat % 0x800 := by
  simp only [ramIndex, BitVec.toNat_and]
  exact Nat.and_two_pow_sub_one_eq_mod a.toNat 11

theorem ramIndex_lt (a : Addr) : ramIndex a < 0x800 := by rw [ramIndex_eq]; omega

theorem regIndex_eq (a : Addr) : regIndex a = a.toNat % 8 := by
  simp only [regIndex, BitVec.toNat_and]
  exact Nat.and_two_pow_sub_one_eq_mod a.toNat 3

theorem windowOf_ram {a : Addr} : windowOf a = .ram ↔ a.toNat < 0x2000 := by
  unfold windowOf; split_ifs <;> simp_all

theorem windowOf_ppu {a : Addr} : windowOf a = .ppu ↔ 0x2000 ≤ a.toNat ∧ a.toNat < 0x4000 := by
  unfold windowOf; split_ifs <;> simp <;> omega

theorem windowOf_unmapped {a : Addr} : windowOf a = .unmapped ↔ 0x4000 ≤ a.toNat ∧ a.toNat < 0x8000 := by
  unfold windowOf; split_ifs <;> simp <;> omega

theorem windowOf_prg {a : Addr} : windowOf a = .prg ↔ 0x8000 ≤ a.toNat := by
  unfold windowOf; split_ifs <;> simp <;> omega

@[simp] theorem busRead_ram {a : Addr} (s : State) (h : windowOf a = .ram) : busRead a s = .ok (ramRead a s) s := by
  simp [busRead, h]

@[simp] theorem busWrite_ram {a : Addr} (v : Byte) (s : State) (h : windowOf a = .ram) :
    busWrite a v s = .ok () (ramWrite a v s) := by
  simp [busWrite, h]

/-! ### Palette and nametable indices -/

theorem palIndex_lt (a : PpuAddr) : palIndex a < 32 := by
  have h : (a.toNat - 0x3F00) &&& 0x1F < 32 := by
    rw [Nat.and_two_pow_sub_one_eq_mod _ 5]; omega
  unfold palIndex; dsimp only; split_ifs <;> omega

theorem mirror_lt {cart : Option Cartridge} {a : PpuAddr} {i : Nat} (hr : ppuRegion a = .nametable)
    (h : mirror cart a = some i) : i < 0x800 := by
  have ha : 0x2000 ≤ a.toNat ∧ a.toNat ≤ 0x2FFF := by
    unfold ppuRegion at hr; split_ifs at hr; omega
  unfold mirror at h
  simp only [Nat.shiftRight_eq_div_pow] at h
  split at h
  · split_ifs at h <;> (simp at h; omega)
  · split_ifs at h <;> (simp at h; omega)
  · split_ifs at h; simp at h; omega
  · simp at h

/-! ### PPU data port -/

theorem refillBuffer_onlyReads {reg : Addr} {s t : State} {v : Option Byte} {r : Byte}
    (h : refillBuffer reg s v = .ok r t) : OnlyReads s t := by
  cases v <;> simp [refillBuffer, OnlyReads] at *
  obtain ⟨-, rfl⟩ := h; rfl

theorem readData_onlyReads {reg : Addr} {s t : State} {v : Byte} (h : readData reg s = .ok v t) : OnlyReads s t := by
  unfold readData at h
  split at h
  · exact refillBuffer_onlyReads h
  · exact refillBuffer_onlyReads h
  · simp at h
  · simp at h; obtain ⟨-, rfl⟩ := h; rfl

theorem readData_fault {reg : Addr} {s : State} {f : Fault} (h : readData reg s = .fault f) :
    f = .addressPpu reg s.ppuAddr .read := by
  unfold readData refillBuffer at h
  split at h
  · split at h <;> simp_all
  · split at h <;> simp_all
  · simpa using h.symm
  · simp at h

theorem writeData_onlyStores {reg : Addr} {s t : State} {v : Byte} (h : writeData reg v s = .ok () t) :
    OnlyStores s t := by
  unfold writeData at h
  split at h
  · simp at h
  · split at h <;> simp at h
    subst h; rfl
  · simp at h
  · simp at h; subst h; rfl

/-- Every fault a PPU data write raises. -/
theorem writeData_fault {reg : Addr} {s : State} {v : Byte} {f : Fault} (h : writeData reg v s = .fault f) :
    f = .readOnlyPpu s.ppuAddr ∨ f = .addressPpu reg s.ppuAddr .write := by
  unfold writeData at h
  split at h
  · left; simpa using h.symm
  · split at h <;> simp_all
  · right; simpa using h.symm
  · simp at h

/-! ### Reads -/

/-- A Bus read changes at most the PPU address and data buffer. -/
theorem busRead_onlyReads {a : Addr} {s t : State} {v : Byte} (h : busRead a s = .ok v t) : OnlyReads s t := by
  unfold busRead at h
  split at h
  · simp at h; obtain ⟨-, rfl⟩ := h; rfl
  · unfold ppuRegRead at h; split_ifs at h; exact readData_onlyReads h
  · simp at h
  · split at h
    · unfold prgRead at h; split at h <;> simp at h
      obtain ⟨-, rfl⟩ := h; rfl
    · unfold vectorRead at h; split_ifs at h <;> simp at h <;> obtain ⟨-, rfl⟩ := h <;> rfl

/-- Outside the PPU window a Bus read changes nothing (`20_memory.md` R109). -/
theorem busRead_pure {a : Addr} {s t : State} {v : Byte} (hw : windowOf a ≠ .ppu) (h : busRead a s = .ok v t) :
    t = s := by
  unfold busRead at h
  split at h
  · simp at h; exact h.2.symm
  · exact absurd ‹_› hw
  · simp at h
  · split at h
    · unfold prgRead at h; split at h <;> simp at h; exact h.2.symm
    · unfold vectorRead at h; split_ifs at h <;> simp at h <;> exact h.2.symm

/-- Every fault a Bus read raises is an AddressFault of a read. -/
theorem busRead_fault {a : Addr} {s : State} {f : Fault} (h : busRead a s = .fault f) :
    f = .addressCpu a .read ∨ f = .addressPpu a s.ppuAddr .read := by
  unfold busRead at h
  split at h
  · simp at h
  · unfold ppuRegRead at h; split_ifs at h
    · exact .inr (readData_fault h)
    · left; simpa using h.symm
  · left; simpa using h.symm
  · split at h
    · unfold prgRead at h; split at h <;> simp at h; exact .inl h.symm
    · unfold vectorRead at h; split_ifs at h; left; simpa using h.symm

/-! ### Writes -/

/-- A Bus write changes at most the stores and the PPU address, latch and control registers. -/
theorem busWrite_onlyStores {a : Addr} {v : Byte} {s t : State} (h : busWrite a v s = .ok () t) : OnlyStores s t := by
  unfold busWrite at h
  split at h
  · simp at h; subst h; rfl
  · unfold ppuRegWrite at h; split_ifs at h
    · simp at h; subst h; rfl
    · simp at h; subst h; unfold writeAddressLatch; split <;> rfl
    · exact writeData_onlyStores h
  · simp at h
  · split at h
    · simp at h
    · unfold vectorWrite at h; split_ifs at h <;> simp at h <;> subst h <;> rfl

/-- Every fault a Bus write raises. -/
theorem busWrite_fault {a : Addr} {v : Byte} {s : State} {f : Fault} (h : busWrite a v s = .fault f) :
    f = .addressCpu a .write ∨ f = .addressPpu a s.ppuAddr .write ∨ f = .readOnlyCpu a ∨ f = .readOnlyPpu s.ppuAddr := by
  unfold busWrite at h
  split at h
  · simp at h
  · unfold ppuRegWrite at h; split_ifs at h
    · rcases writeData_fault h with h | h <;> simp [h]
    · simp at h; simp [h]
  · simp at h; simp [h]
  · split at h
    · simp at h; simp [h]
    · unfold vectorWrite at h; split_ifs at h; simp at h; simp [h]

/-- A Bus write leaves every byte but its target as it was. -/
theorem busWrite_same_bytes {a : Addr} {v : Byte} {s t : State} (h : busWrite a v s = .ok () t) :
    SameBytesBut a s s t := by
  intro c hc
  unfold busWrite at h
  unfold storeTarget at hc
  split at h
  · rename_i hw
    simp at h; subst h
    simp only [hw, ne_eq, Option.some.injEq] at hc
    cases c <;> simp [readCell, ramWrite] at hc ⊢
    exact Memory.read_write_ne _ (fun e => hc e.symm)
  · rename_i hw
    simp only [hw] at hc
    unfold ppuRegWrite at h; split_ifs at h with h0 h6 h7
    · simp at h; subst h; cases c <;> rfl
    · simp at h; subst h; unfold writeAddressLatch; cases c <;> split <;> rfl
    · simp only [h7, if_true] at hc
      unfold writeData at h
      split at h
      · simp at h
      · rename_i hr
        simp only [hr] at hc
        split at h <;> simp at h
        rename_i i hm
        subst h
        simp only [hm, Option.map_some, ne_eq, Option.some.injEq] at hc
        cases c <;> simp [readCell, incrementAddress] at hc ⊢
        exact Memory.read_write_ne _ (fun e => hc e.symm)
      · simp at h
      · rename_i hr
        simp only [hr, ne_eq, Option.some.injEq] at hc
        simp at h; subst h
        cases c <;> simp [readCell, incrementAddress] at hc ⊢
        exact Memory.read_write_ne _ (fun e => hc e.symm)
  · simp at h
  · rename_i hw
    simp only [hw] at hc
    split at h
    · simp at h
    · rename_i hcart
      simp only [hcart, Option.isSome_none, Bool.false_eq_true, if_false] at hc
      unfold vectorWrite at h; split_ifs at h with h1 h2
      · simp at h; subst h
        simp only [h1, if_true] at hc
        cases c <;> simp [readCell] at hc ⊢
      · simp at h; subst h
        simp only [h2] at hc
        cases c <;> simp_all [readCell]

/-- The PPU registers a Bus write leaves alone: control and latch unless their register is written, the buffer always, the
address outside the PPU window. -/
theorem busWrite_ppu {a : Addr} {v : Byte} {s t : State} (h : busWrite a v s = .ok () t) :
    (¬(windowOf a = .ppu ∧ regIndex a = 0) → t.ppuCtrl = s.ppuCtrl) ∧
    (¬(windowOf a = .ppu ∧ regIndex a = 6) → t.ppuLatchHi = s.ppuLatchHi) ∧
    t.ppuBuf = s.ppuBuf ∧ (windowOf a ≠ .ppu → t.ppuAddr = s.ppuAddr) := by
  unfold busWrite at h
  split at h
  · simp at h; subst h; simp [ramWrite]
  · rename_i hw
    unfold ppuRegWrite at h
    split_ifs at h with h0 h6 h7
    · simp at h; subst h; simp [*, writeControl]
    · simp at h; subst h; unfold writeAddressLatch; split <;> simp [*]
    · unfold writeData at h
      split at h
      · simp at h
      · split at h <;> simp at h; subst h; simp [*, incrementAddress]
      · simp at h
      · simp at h; subst h; simp [*, incrementAddress]
  · simp at h
  · split at h
    · simp at h
    · unfold vectorWrite at h; split_ifs at h <;> simp at h <;> subst h <;> simp

/-! ### The invariant -/

theorem busRead_inv {a : Addr} {v : Byte} {s t : State} (h : busRead a s = .ok v t) (hi : s.Inv) : t.Inv := by
  rw [busRead_onlyReads h]; exact hi

/-- A Bus write keeps every byte store in its canonical form within its size. -/
theorem busWrite_inv {a : Addr} {v : Byte} {s t : State} (h : busWrite a v s = .ok () t) (hi : s.Inv) : t.Inv := by
  obtain ⟨h1, h2, h3, h4, h5⟩ := hi
  unfold busWrite at h
  split at h
  · simp at h; subst h; exact ⟨Memory.write_wf h1 (ramIndex_lt _), h2, h3, h4, h5⟩
  · unfold ppuRegWrite at h
    split_ifs at h
    · simp at h; subst h; exact ⟨h1, h2, h3, h4, h5⟩
    · simp at h; subst h; unfold writeAddressLatch; split <;> exact ⟨h1, h2, h3, h4, h5⟩
    · unfold writeData at h
      split at h
      · simp at h
      · rename_i hr
        split at h <;> simp at h; subst h; rename_i hm
        exact ⟨h1, Memory.write_wf h2 (mirror_lt hr hm), h3, h4, h5⟩
      · simp at h
      · simp at h; subst h; exact ⟨h1, h2, Memory.write_wf h3 (palIndex_lt _), h4, h5⟩
  · simp at h
  · split at h
    · simp at h
    · unfold vectorWrite at h; split_ifs at h <;> simp at h <;> subst h <;> exact ⟨h1, h2, h3, h4, h5⟩

end Sys2Proof.Machine
end

