-- ==== Sys2Proof/Laws/Decode.lean ====
section
/-! SUPPORT. What a byte that decodes tells of the instruction it decodes to. -/

namespace Sys2Proof

/-- No two entries of the table share an opcode byte (`10_state.md` R49). -/
theorem opcodeTable_distinct : (opcodeTable.map Entry.opcode).Nodup := by
  decide +kernel

/-- An entry is found by its opcode byte alone. -/
theorem entry_eq_of_opcode {d e : Entry} (hd : d ∈ opcodeTable) (he : e ∈ opcodeTable) (h : d.opcode = e.opcode) : d = e :=
  List.inj_on_of_nodup_map opcodeTable_distinct hd he h

/-- What a byte selects at the level that registers every row, checked byte by byte. -/
theorem decodeOpcode_two (op : Byte) :
    (match decodeOpcode 2 op with | some i => i.wf && (opcodeOf i == some op) | none => true) = true := by
  revert op
  decide +kernel

/-- A byte that decodes at a level decodes to the same instruction at level 2, and its least level is not above that level. -/
theorem decodeOpcode_level {level : UndocLevel} {op : Byte} {i : Instr} (h : decodeOpcode level op = some i) :
    decodeOpcode 2 op = some i ∧ minLevel op ≤ level := by
  unfold decodeOpcode at *
  split at h
  · rename_i h0
    subst h0
    exact ⟨by simpa using h, by rw [show minLevel 0x00 = 0 by decide]; exact Fin.zero_le _⟩
  · rename_i h0
    simp only [lookup, Option.map_eq_some_iff] at h
    obtain ⟨e, he, rfl⟩ := h
    have hs := List.find?_some he
    have hm := List.mem_of_find?_eq_some he
    simp only [Bool.and_eq_true, beq_iff_eq, decide_eq_true_eq] at hs
    have found {p : Entry → Bool} (hp : p e = true) (ho : ∀ d, p d = true → d.opcode = op) :
        opcodeTable.find? p = some e := by
      cases hf : opcodeTable.find? p with
      | none => exact absurd hp (List.find?_eq_none.mp hf e hm)
      | some d =>
        rw [entry_eq_of_opcode (List.mem_of_find?_eq_some hf) hm ((ho d (List.find?_some hf)).trans hs.1.symm)]
    refine ⟨?_, ?_⟩
    · rw [if_neg h0, lookup, found (by simpa [hs.1] using Fin.le_last e.level) (by simp +contextual)]; rfl
    · rw [minLevel, found (by simpa using hs.1) (by simp)]; exact hs.2

/-- A byte that decodes selects a well-formed instruction, whose opcode byte it is. -/
theorem decodeOpcode_inv {level : UndocLevel} {op : Byte} {i : Instr} (h : decodeOpcode level op = some i) :
    i.wf = true ∧ opcodeOf i = some op ∧ minLevel op ≤ level := by
  obtain ⟨h2, hl⟩ := decodeOpcode_level h
  have h3 := decodeOpcode_two op
  rw [h2] at h3
  simp only [Bool.and_eq_true, beq_iff_eq] at h3
  exact ⟨h3.1, h3.2, hl⟩

/-- Every instruction has a length of at least one byte. -/
theorem one_le_instrLength (i : Instr) : 1 ≤ instrLength i := by
  unfold instrLength modeLength; split <;> omega

end Sys2Proof
end

