-- ==== Sys2Proof/Laws/Flags.lean ====
section
/-! SUPPORT. What each flag computation writes, as plain record equations. -/

namespace Sys2Proof.Machine

theorem setZN_eq (v : Byte) (s : State) :
    setZN v s = { s with flags := { s.flags with z := v == 0, n := v.getLsbD 7 } } := rfl

theorem compareReg_eq (r m : Byte) (s : State) :
    compareReg r m s =
      { s with flags := { s.flags with c := decide (m.toNat ≤ r.toNat), z := r - m == 0, n := (r - m).getLsbD 7 } } := rfl

theorem addWithCarry_eq (m : Byte) (s : State) :
    addWithCarry m s =
      { s with
        a := BitVec.ofNat 8 (addSum s.a m s.flags.c)
        flags := { s.flags with
          c := decide (0xFF < addSum s.a m s.flags.c)
          v := addOverflow s.a m (BitVec.ofNat 8 (addSum s.a m s.flags.c))
          z := BitVec.ofNat 8 (addSum s.a m s.flags.c) == 0
          n := (BitVec.ofNat 8 (addSum s.a m s.flags.c)).getLsbD 7 } } := rfl

theorem bitTest_eq (m : Byte) (s : State) :
    bitTest m s = { s with flags := { s.flags with z := (s.a &&& m) == 0, n := m.getLsbD 7, v := m.getLsbD 6 } } := rfl

theorem setCarry_eq (c : Bool) (s : State) : setCarry c s = { s with flags := { s.flags with c := c } } := rfl

theorem unpackP_eq (b : Byte) (s : State) : unpackP b s = { s with flags := unpackFlags b } := rfl

end Sys2Proof.Machine
end

