-- ==== Sys2Proof/Laws/Operands.lean ====
section
/-! SUPPORT. What the resolver, the operand accesses and the stack primitives can do, said once each. -/

namespace Sys2Proof.Machine

/-! ### The resolver -/

/-- Two reads in a row change at most what reads change. -/
theorem twoReads_onlyReads {a b : Addr} {s t : State} {w : Addr}
    (h : ((busRead a s).andThen fun lo u => (busRead b u).andThen fun hi x => Res.ok (hiLo hi lo) x) = .ok w t) :
    OnlyReads s t := by
  simp only [Res.andThen_eq_ok] at h
  obtain ⟨lo, u, h1, hi, x, h2, h3⟩ := h
  simp only [Res.ok.injEq] at h3
  exact h3.2 ▸ (busRead_onlyReads h1).trans (busRead_onlyReads h2)

theorem readWord_onlyReads {a : Addr} {s t : State} {w : Addr} (h : readWord a s = .ok w t) : OnlyReads s t :=
  twoReads_onlyReads h

theorem readPointer_onlyReads {a : Addr} {s t : State} {w : Addr} (h : readPointer a s = .ok w t) : OnlyReads s t :=
  twoReads_onlyReads h

theorem readZeroPagePointer_onlyReads {z : Byte} {s t : State} {w : Addr} (h : readZeroPagePointer z s = .ok w t) :
    OnlyReads s t :=
  twoReads_onlyReads h

/-- The resolver changes at most what reads change: no register, no flag, not PC (`30_encoding.md` R144). -/
theorem addr_onlyReads {m : Mode} {s t : State} {a : Addr} (h : addr m s = .ok a t) : OnlyReads s t := by
  cases m <;> simp only [addr, Res.andThen_eq_ok, Res.ok.injEq, reduceCtorEq] at h
  case immediate => exact h.2 ▸ OnlyReads.refl s
  case absolute => exact readWord_onlyReads h
  case zeroPage | zeroPageX | zeroPageY | relative =>
    obtain ⟨b, u, h1, -, rfl⟩ := h; exact busRead_onlyReads h1
  case absoluteX | absoluteY => obtain ⟨b, u, h1, -, rfl⟩ := h; exact readWord_onlyReads h1
  case indirect => obtain ⟨b, u, h1, h2⟩ := h; exact (readWord_onlyReads h1).trans (readPointer_onlyReads h2)
  case indirectX => obtain ⟨b, u, h1, h2⟩ := h; exact (busRead_onlyReads h1).trans (readZeroPagePointer_onlyReads h2)
  case indirectY =>
    obtain ⟨b, u, h1, w, x, h2, -, rfl⟩ := h
    exact (busRead_onlyReads h1).trans (readZeroPagePointer_onlyReads h2)

/-- A fault that is an AddressFault of a read. -/
def IsReadFault (f : Fault) : Prop := (∃ a, f = .addressCpu a .read) ∨ ∃ r a, f = .addressPpu r a .read

theorem busRead_isReadFault {a : Addr} {s : State} {f : Fault} (h : busRead a s = .fault f) : IsReadFault f := by
  rcases busRead_fault h with h | h
  · exact .inl ⟨_, h⟩
  · exact .inr ⟨_, _, h⟩

theorem twoReads_fault {a b : Addr} {s : State} {f : Fault}
    (h : ((busRead a s).andThen fun lo u => (busRead b u).andThen fun hi x => Res.ok (hiLo hi lo) x) = .fault f) :
    IsReadFault f := by
  simp only [Res.andThen_eq_fault, reduceCtorEq, and_false, exists_false, or_false] at h
  obtain h | ⟨_, _, -, h⟩ := h
  · exact busRead_isReadFault h
  · exact busRead_isReadFault h

/-- The resolver faults with a read's AddressFault, or with ResolverMisuse for the two modes without a memory operand. -/
theorem addr_fault {m : Mode} {s : State} {f : Fault} (h : addr m s = .fault f) :
    IsReadFault f ∨ ((m = .accumulator ∨ m = .noneAddressing) ∧ f = .resolverMisuse m) := by
  cases m <;>
    simp only [addr, Res.andThen_eq_fault, reduceCtorEq, and_false, exists_false, or_false, Res.fault.injEq] at h
  case accumulator | noneAddressing => exact .inr ⟨by simp, h.symm⟩
  case zeroPage | zeroPageX | zeroPageY | relative => exact .inl (busRead_isReadFault h)
  case absolute | absoluteX | absoluteY => exact .inl (twoReads_fault h)
  case indirect =>
    obtain h | ⟨_, _, -, h⟩ := h
    · exact .inl (twoReads_fault h)
    · exact .inl (twoReads_fault h)
  case indirectX | indirectY =>
    obtain h | ⟨_, _, -, h⟩ := h
    · exact .inl (busRead_isReadFault h)
    · exact .inl (twoReads_fault h)

/-- The second byte of a JMP pointer lies in the page of the first (`30_encoding.md` R151). -/
theorem samePageNext_hiLo (hi lo : Byte) : samePageNext (hiLo hi lo) = hiLo hi (lo + 1) := by
  apply BitVec.eq_of_toNat_eq
  have h1 : (hiLo hi lo &&& 0xFF00).toNat = hi.toNat * 256 := by
    have e : hiLo hi lo &&& 0xFF00 = hiLo hi 0 := by
      apply BitVec.eq_of_getLsbD_eq
      intro i hi'
      simp only [hiLo, BitVec.getLsbD_and, BitVec.getLsbD_append]
      interval_cases i <;> simp
    rw [e, hiLo_toNat]; simp
  have h2 : (hiLo hi lo + 1 &&& 0x00FF).toNat = (lo + 1).toNat := by
    rw [BitVec.toNat_and, BitVec.toNat_add, hiLo_toNat, BitVec.toNat_add]
    show (_ &&& (2 ^ 8 - 1)) = _
    rw [Nat.and_two_pow_sub_one_eq_mod]
    have := hi.isLt; simp; omega
  rw [samePageNext, BitVec.toNat_or, h1, h2, hiLo_toNat]
  have := (lo + 1).isLt
  rw [show hi.toNat * 256 = hi.toNat <<< 8 by rw [Nat.shiftLeft_eq], Nat.shiftLeft_add_eq_or_of_lt this]

/-- A zero-page address lies in RAM. -/
theorem windowOf_zext16 (z : Byte) : windowOf (zext16 z) = .ram := by
  rw [windowOf_ram, zext16_toNat]; have := z.isLt; omega

/-! ### Operand accesses -/

theorem readOperand_eq_ok {m : Mode} {s t : State} {v : Byte} :
    readOperand m s = .ok v t ↔ ∃ a u, addr m s = .ok a u ∧ busRead a u = .ok v t :=
  Res.andThen_eq_ok

theorem writeOperand_eq_ok {m : Mode} {s t : State} {v : Byte} :
    writeOperand m v s = .ok () t ↔ ∃ a u, addr m s = .ok a u ∧ busWrite a v u = .ok () t :=
  Res.andThen_eq_ok

theorem modifyOperand_eq_ok {m : Mode} {f : Byte → Byte} {s t : State} {v : Byte} :
    modifyOperand m f s = .ok v t ↔
      ∃ a u w, addr m s = .ok a u ∧ busRead a u = .ok v w ∧ busWrite a (f v) w = .ok () t := by
  simp only [modifyOperand, Res.andThen_eq_ok, Res.ok.injEq]
  constructor
  · rintro ⟨a, u, h1, v', w, h2, _, t', h3, rfl, rfl⟩; exact ⟨a, u, w, h1, h2, h3⟩
  · rintro ⟨a, u, w, h1, h2, h3⟩; exact ⟨a, u, h1, v, w, h2, (), t, h3, rfl, rfl⟩

theorem readOperand_onlyReads {m : Mode} {s t : State} {v : Byte} (h : readOperand m s = .ok v t) : OnlyReads s t := by
  obtain ⟨a, u, h1, h2⟩ := readOperand_eq_ok.mp h
  exact (addr_onlyReads h1).trans (busRead_onlyReads h2)

/-! ### The stack -/

theorem stackCell_ram {s : State} (h : s.cfg.stackBase = 0x0100) : windowOf (stackCell s) = .ram := by
  have := s.sp.isLt
  rw [windowOf_ram, stackCell, h, BitVec.toNat_add, zext16_toNat]
  simp; omega

/-- With the stack page at 0x0100 a push stores in RAM and cannot fault (`00_scope.md` R12). -/
theorem push_ram {s : State} (v : Byte) (h : s.cfg.stackBase = 0x0100) :
    push v s = .ok () ((s.setRam (s.ram.write (ramIndex (stackCell s)) v)).setSp (s.sp - 1)) := by
  simp [push, busWrite_ram v s (stackCell_ram h), ramWrite]

/-- With the stack page at 0x0100 a pop reads RAM and cannot fault (`00_scope.md` R12). -/
theorem pop_ram {s : State} (h : s.cfg.stackBase = 0x0100) :
    pop s = .ok (ramRead (stackCell (s.setSp (s.sp + 1))) s) (s.setSp (s.sp + 1)) := by
  have h' : (s.setSp (s.sp + 1)).cfg.stackBase = 0x0100 := h
  rw [pop, busRead_ram _ (stackCell_ram h')]
  rfl

/-- A pop moves SP and otherwise changes at most what reads change, for every stack page. -/
theorem pop_onlyReads {s t : State} {v : Byte} (h : pop s = .ok v t) : OnlyReads (s.setSp (s.sp + 1)) t :=
  busRead_onlyReads h

theorem pop16_onlyReads {s t : State} {v : Addr} (h : pop16 s = .ok v t) : OnlyReads (s.setSp (s.sp + 2)) t := by
  simp only [pop16, Res.andThen_eq_ok, Res.ok.injEq] at h
  obtain ⟨lo, u, h1, hi, w, h2, -, rfl⟩ := h
  have a1 := pop_onlyReads h1
  have a2 := pop_onlyReads h2
  have e : (s.sp + 1) + 1 = s.sp + 2 := by bv_omega
  rw [← e]
  unfold OnlyReads at *
  rw [a2, a1]; rfl

/-- A push moves SP and otherwise changes at most what a write changes, for every stack page. -/
theorem push_onlyStores {v : Byte} {s t : State} (h : push v s = .ok () t) : OnlyStores s { t with sp := s.sp } := by
  simp only [push, Res.andThen_eq_ok, Res.ok.injEq, true_and] at h
  obtain ⟨_, u, h1, rfl⟩ := h
  have := busWrite_onlyStores h1
  unfold OnlyStores at *; rw [this]; rfl

/-- With the stack page at 0x0100, `Pop16` reads the two cells above SP. -/
theorem pop16_ram {s : State} (h : s.cfg.stackBase = 0x0100) :
    pop16 s =
      .ok (hiLo (ramRead (stackCell (s.setSp (s.sp + 2))) s) (ramRead (stackCell (s.setSp (s.sp + 1))) s))
        (s.setSp (s.sp + 2)) := by
  have e : (s.sp + 1) + 1 = s.sp + 2 := by bv_omega
  rw [← e, pop16, pop_ram h]
  simp only [Res.andThen_ok]
  rw [pop_ram (by exact h)]
  rfl

/-- With the stack page at 0x0100, `Push16` stores the high byte at SP and the low byte at SP − 1. -/
theorem push16_ram {s : State} (v : Addr) (h : s.cfg.stackBase = 0x0100) :
    push16 v s = .ok () { s with
      ram := (s.ram.write (ramIndex (stackCell s)) (highByte v)).write (ramIndex (stackCell (s.setSp (s.sp - 1))))
        (lowByte v)
      sp := s.sp - 2 } := by
  have e : (s.sp - 1) - 1 = s.sp - 2 := by bv_omega
  rw [← e, push16, push_ram _ h]
  simp only [Res.andThen_ok]
  rw [push_ram _ (by exact h)]
  rfl

/-- The stack cell of SP value `k` is RAM cell 0x100 + k (`00_scope.md` R12). -/
theorem stackCell_index {s : State} (k : Byte) (h : s.cfg.stackBase = 0x0100) :
    ramIndex (s.cfg.stackBase + zext16 k) = 0x100 + k.toNat := by
  rw [ramIndex_eq, h, BitVec.toNat_add, zext16_toNat]
  have := k.isLt
  simp; omega

end Sys2Proof.Machine
end

