-- ==== Sys2Proof/Laws/PerInstr.lean ====
section
/-! SUPPORT. The round trip of the opcode byte, per instruction. -/

namespace Sys2Proof.Laws.RoundTrip

/-- A well-formed instruction has an opcode byte, and the table at the level that registers every row gives the instruction
back from it. -/
def Statement (i : Instr) : Prop := i.wf = true → (opcodeOf i).bind (decodeOpcode 2) = some i

theorem lda (m : Mode) : Statement (.lda m) := by cases m <;> unfold Statement <;> decide
theorem ldx (m : Mode) : Statement (.ldx m) := by cases m <;> unfold Statement <;> decide
theorem ldy (m : Mode) : Statement (.ldy m) := by cases m <;> unfold Statement <;> decide
theorem sta (m : Mode) : Statement (.sta m) := by cases m <;> unfold Statement <;> decide
theorem stx (m : Mode) : Statement (.stx m) := by cases m <;> unfold Statement <;> decide
theorem sty (m : Mode) : Statement (.sty m) := by cases m <;> unfold Statement <;> decide
theorem tax : Statement .tax := by unfold Statement; decide
theorem tay : Statement .tay := by unfold Statement; decide
theorem txa : Statement .txa := by unfold Statement; decide
theorem tya : Statement .tya := by unfold Statement; decide
theorem tsx : Statement .tsx := by unfold Statement; decide
theorem txs : Statement .txs := by unfold Statement; decide
theorem adc (m : Mode) : Statement (.adc m) := by cases m <;> unfold Statement <;> decide
theorem sbc (m : Mode) : Statement (.sbc m) := by cases m <;> unfold Statement <;> decide
theorem and (m : Mode) : Statement (.and m) := by cases m <;> unfold Statement <;> decide
theorem ora (m : Mode) : Statement (.ora m) := by cases m <;> unfold Statement <;> decide
theorem eor (m : Mode) : Statement (.eor m) := by cases m <;> unfold Statement <;> decide
theorem cmp (m : Mode) : Statement (.cmp m) := by cases m <;> unfold Statement <;> decide
theorem cpx (m : Mode) : Statement (.cpx m) := by cases m <;> unfold Statement <;> decide
theorem cpy (m : Mode) : Statement (.cpy m) := by cases m <;> unfold Statement <;> decide
theorem bit (m : Mode) : Statement (.bit m) := by cases m <;> unfold Statement <;> decide
theorem inc (m : Mode) : Statement (.inc m) := by cases m <;> unfold Statement <;> decide
theorem dec (m : Mode) : Statement (.dec m) := by cases m <;> unfold Statement <;> decide
theorem inx : Statement .inx := by unfold Statement; decide
theorem iny : Statement .iny := by unfold Statement; decide
theorem dex : Statement .dex := by unfold Statement; decide
theorem dey : Statement .dey := by unfold Statement; decide
theorem asl (m : Mode) : Statement (.asl m) := by cases m <;> unfold Statement <;> decide
theorem lsr (m : Mode) : Statement (.lsr m) := by cases m <;> unfold Statement <;> decide
theorem rol (m : Mode) : Statement (.rol m) := by cases m <;> unfold Statement <;> decide
theorem ror (m : Mode) : Statement (.ror m) := by cases m <;> unfold Statement <;> decide
theorem bcc : Statement .bcc := by unfold Statement; decide
theorem bcs : Statement .bcs := by unfold Statement; decide
theorem beq : Statement .beq := by unfold Statement; decide
theorem bne : Statement .bne := by unfold Statement; decide
theorem bmi : Statement .bmi := by unfold Statement; decide
theorem bpl : Statement .bpl := by unfold Statement; decide
theorem bvc : Statement .bvc := by unfold Statement; decide
theorem bvs : Statement .bvs := by unfold Statement; decide
theorem jmp (m : Mode) : Statement (.jmp m) := by cases m <;> unfold Statement <;> decide
theorem jsr : Statement .jsr := by unfold Statement; decide
theorem rts : Statement .rts := by unfold Statement; decide
theorem rti : Statement .rti := by unfold Statement; decide
theorem pha : Statement .pha := by unfold Statement; decide
theorem pla : Statement .pla := by unfold Statement; decide
theorem php : Statement .php := by unfold Statement; decide
theorem plp : Statement .plp := by unfold Statement; decide
theorem clc : Statement .clc := by unfold Statement; decide
theorem sec : Statement .sec := by unfold Statement; decide
theorem cli : Statement .cli := by unfold Statement; decide
theorem sei : Statement .sei := by unfold Statement; decide
theorem cld : Statement .cld := by unfold Statement; decide
theorem sed : Statement .sed := by unfold Statement; decide
theorem clv : Statement .clv := by unfold Statement; decide
theorem nop : Statement .nop := by unfold Statement; decide
theorem brk : Statement .brk := by unfold Statement; decide
theorem nopAlias (op : Byte) : Statement (.nopAlias op) := by
  intro h
  have key : ∀ b ∈ nopAliasBytes, decodeOpcode 2 b = some (.nopAlias b) := by decide
  have h' : nopAliasBytes.contains op = true := h
  rw [opcodeOf, if_pos h']
  exact key op (by simpa using h')
theorem sbcAlias : Statement .sbcAlias := by unfold Statement; decide
theorem lax (m : Mode) : Statement (.lax m) := by cases m <;> unfold Statement <;> decide
theorem sax (m : Mode) : Statement (.sax m) := by cases m <;> unfold Statement <;> decide
theorem dcp (m : Mode) : Statement (.dcp m) := by cases m <;> unfold Statement <;> decide
theorem isb (m : Mode) : Statement (.isb m) := by cases m <;> unfold Statement <;> decide
theorem slo (m : Mode) : Statement (.slo m) := by cases m <;> unfold Statement <;> decide
theorem rla (m : Mode) : Statement (.rla m) := by cases m <;> unfold Statement <;> decide
theorem sre (m : Mode) : Statement (.sre m) := by cases m <;> unfold Statement <;> decide
theorem rra (m : Mode) : Statement (.rra m) := by cases m <;> unfold Statement <;> decide

end Sys2Proof.Laws.RoundTrip
end

