-- ==== Sys2Proof/Laws/Step.lean ====
section
/-! SUPPORT. The fetch as one equation, and that no meaning refuses. -/

namespace Sys2Proof.Machine

/-- The fetch reads at PC and leaves PC one past it (`30_encoding.md` R162). -/
theorem fetchOpcode_eq (s : State) :
    fetchOpcode s = (busRead s.pc s).andThen fun op t => .ok op { t with pc := s.pc + 1 } := by
  unfold fetchOpcode
  cases h : busRead s.pc s with
  | fault f => rfl
  | ok op t => simp only [Res.andThen_ok]; rw [busRead_onlyReads h]; rfl

/-- Every instruction has a meaning: none is refused. -/
theorem exec_ne_refused (i : Instr) (s : State) (q : Refusal) : exec i s ≠ .refused q := by
  cases i
  case asl m | lsr m | rol m | ror m =>
    simp only [exec, execAsl, execLsr, execRol, execRor, shiftForm]; split <;> simp
  case bcc | bcs | beq | bne | bmi | bpl | bvc | bvs =>
    simp only [exec, execBcc, execBcs, execBeq, execBne, execBmi, execBpl, execBvc, execBvs, branchIf]; split <;> simp
  all_goals first | exact Res.run_ne_refused _ _ _ | (intro h; cases h)

end Sys2Proof.Machine
end

