-- ==== Sys2Proof/Tests/Slice0.lean ====
section
/-! SUPPORT. Tests. The expected results are those of the vectors of `95_test_vectors.md`, named in each docstring, and the
words are written out bit by bit from `opcode_table.json`. The second half shows, for each statement with hypotheses, concrete
states and operands that meet them. -/

namespace Sys2Proof.Tests

open Sys2Proof.Machine

/-! ### Small states -/

/-- The machine after reset. -/
def start : State := State.reset

/-- The machine after reset with every undocumented opcode registered. -/
def startAll : State := { State.reset with cfg := { Config.standard with undoc := 2 } }

/-- Code placed at 0x0600, with PC there. -/
def boot (code : List Byte) (s : State) : State := placeBytes code 0x0600 (s.setPc 0x0600)

/-- A machine with a small cartridge attached. -/
def withCart (c : Cartridge) : State := { State.reset with cfg := { Config.standard with cart := some c } }

/-- A cartridge without contents. -/
def emptyCart (m : Mirroring) : Cartridge := ⟨[], [], 0, m⟩

/-- What `f` says of the next state, if there is one. -/
def look {α : Type} (r : Result) (f : State → α) : Option α :=
  match r with
  | .next t => some (f t)
  | .fault _ | .refused _ => none

/-- The fault, if it is one. -/
def faultOf {σ : Type} (r : Host.Outcome σ Fault Refusal) : Option Fault :=
  match r with
  | .fault f => some f
  | .next _ | .refused _ => none

/-- The flags N, V, Z, C. -/
def nvzc (t : State) : List Bool := [t.flags.n, t.flags.v, t.flags.z, t.flags.c]

/-- The outcome is a next state. -/
def isNext {σ : Type} (r : Host.Outcome σ Fault Refusal) : Bool :=
  match r with
  | .next _ => true
  | .fault _ | .refused _ => false

theorem next_of_isNext {σ : Type} {r : Host.Outcome σ Fault Refusal} (h : isNext r = true) : ∃ t, r = .next t := by
  cases r <;> simp [isNext] at h ⊢

theorem fault_of_faultOf {σ : Type} {r : Host.Outcome σ Fault Refusal} {f : Fault} (h : faultOf r = some f) :
    r = .fault f := by
  cases r <;> simp_all [faultOf]

/-- The fault of the loader, if it is one. -/
def loaderFault (r : Except Fault Cartridge) : Option Fault :=
  match r with
  | .error f => some f
  | .ok _ => none

theorem error_of_loaderFault {r : Except Fault Cartridge} {f : Fault} (h : loaderFault r = some f) : r = .error f := by
  cases r <;> simp_all [loaderFault]

/-! ### Well-formedness refuses -/

/-- Check 1: a mode the mnemonic does not have. -/
theorem test_wf_refuses_mode :
    (Instr.sta .immediate).wf = false ∧ (Instr.ldx .zeroPageX).wf = false ∧ (Instr.jmp .absoluteX).wf = false ∧
    (Instr.inc .accumulator).wf = false ∧ (Instr.asl .immediate).wf = false ∧ (Instr.lax .zeroPageX).wf = false ∧
    (Instr.lda .noneAddressing).wf = false ∧ opcodeOf (.sta .immediate) = none := by decide

/-- Check 2: a byte that is no NOP alias. -/
theorem test_wf_refuses_alias :
    (Instr.nopAlias 0xEA).wf = false ∧ (Instr.nopAlias 0x02).wf = false ∧ opcodeOf (.nopAlias 0xEA) = none := by decide

/-- Check 3: a wrong number of operand bytes. -/
theorem test_wf_refuses_operand :
    Code.wf ⟨.lda .immediate, []⟩ = false ∧ Code.wf ⟨.tax, [0x00]⟩ = false ∧
    Code.wf ⟨.jmp .absolute, [0x00]⟩ = false ∧ Code.wf ⟨.nopAlias 0x1C, [0x00]⟩ = false := by decide

/-! ### Decoding of written-out words -/

theorem test_decode_load_store_transfer :
    decodeOpcode 2 0b10110001 = some (.lda .indirectY) ∧
    decodeOpcode 2 0b10110110 = some (.ldx .zeroPageY) ∧
    decodeOpcode 2 0b10111100 = some (.ldy .absoluteX) ∧
    decodeOpcode 2 0b10011001 = some (.sta .absoluteY) ∧
    decodeOpcode 2 0b10001110 = some (.stx .absolute) ∧
    decodeOpcode 2 0b10010100 = some (.sty .zeroPageX) ∧
    decodeOpcode 2 0b10101010 = some .tax ∧
    decodeOpcode 2 0b10101000 = some .tay ∧
    decodeOpcode 2 0b10001010 = some .txa ∧
    decodeOpcode 2 0b10011000 = some .tya ∧
    decodeOpcode 2 0b10111010 = some .tsx ∧
    decodeOpcode 2 0b10011010 = some .txs := by decide

theorem test_decode_arithmetic_logic :
    decodeOpcode 2 0b01100001 = some (.adc .indirectX) ∧
    decodeOpcode 2 0b11111101 = some (.sbc .absoluteX) ∧
    decodeOpcode 2 0b00100101 = some (.and .zeroPage) ∧
    decodeOpcode 2 0b00001101 = some (.ora .absolute) ∧
    decodeOpcode 2 0b01010101 = some (.eor .zeroPageX) ∧
    decodeOpcode 2 0b11011001 = some (.cmp .absoluteY) ∧
    decodeOpcode 2 0b11100000 = some (.cpx .immediate) ∧
    decodeOpcode 2 0b11001100 = some (.cpy .absolute) ∧
    decodeOpcode 2 0b00100100 = some (.bit .zeroPage) ∧
    decodeOpcode 2 0b11111110 = some (.inc .absoluteX) ∧
    decodeOpcode 2 0b11010110 = some (.dec .zeroPageX) ∧
    decodeOpcode 2 0b11101000 = some .inx ∧
    decodeOpcode 2 0b11001000 = some .iny ∧
    decodeOpcode 2 0b11001010 = some .dex ∧
    decodeOpcode 2 0b10001000 = some .dey := by decide

theorem test_decode_shift_rotate :
    decodeOpcode 2 0b00001010 = some (.asl .accumulator) ∧
    decodeOpcode 2 0b01001110 = some (.lsr .absolute) ∧
    decodeOpcode 2 0b00100110 = some (.rol .zeroPage) ∧
    decodeOpcode 2 0b01110110 = some (.ror .zeroPageX) := by decide

theorem test_decode_control_flow :
    decodeOpcode 2 0b10010000 = some .bcc ∧
    decodeOpcode 2 0b10110000 = some .bcs ∧
    decodeOpcode 2 0b11110000 = some .beq ∧
    decodeOpcode 2 0b11010000 = some .bne ∧
    decodeOpcode 2 0b00110000 = some .bmi ∧
    decodeOpcode 2 0b00010000 = some .bpl ∧
    decodeOpcode 2 0b01010000 = some .bvc ∧
    decodeOpcode 2 0b01110000 = some .bvs ∧
    decodeOpcode 2 0b01101100 = some (.jmp .indirect) ∧
    decodeOpcode 2 0b00100000 = some .jsr ∧
    decodeOpcode 2 0b01100000 = some .rts ∧
    decodeOpcode 2 0b01000000 = some .rti := by decide

theorem test_decode_stack_flags_system :
    decodeOpcode 2 0b01001000 = some .pha ∧
    decodeOpcode 2 0b01101000 = some .pla ∧
    decodeOpcode 2 0b00001000 = some .php ∧
    decodeOpcode 2 0b00101000 = some .plp ∧
    decodeOpcode 2 0b00011000 = some .clc ∧
    decodeOpcode 2 0b00111000 = some .sec ∧
    decodeOpcode 2 0b01011000 = some .cli ∧
    decodeOpcode 2 0b01111000 = some .sei ∧
    decodeOpcode 2 0b11011000 = some .cld ∧
    decodeOpcode 2 0b11111000 = some .sed ∧
    decodeOpcode 2 0b10111000 = some .clv ∧
    decodeOpcode 2 0b11101010 = some .nop ∧
    decodeOpcode 2 0b00000000 = some .brk := by decide

theorem test_decode_undocumented :
    decodeOpcode 2 0b10111111 = some (.lax .absoluteY) ∧
    decodeOpcode 2 0b10000011 = some (.sax .indirectX) ∧
    decodeOpcode 2 0b11010111 = some (.dcp .zeroPageX) ∧
    decodeOpcode 2 0b11101111 = some (.isb .absolute) ∧
    decodeOpcode 2 0b00010011 = some (.slo .indirectY) ∧
    decodeOpcode 2 0b00111111 = some (.rla .absoluteX) ∧
    decodeOpcode 2 0b01000111 = some (.sre .zeroPage) ∧
    decodeOpcode 2 0b01111011 = some (.rra .absoluteY) ∧
    decodeOpcode 2 0b01111100 = some (.nopAlias 0x7C) ∧
    decodeOpcode 2 0b11101011 = some .sbcAlias := by decide

/-! ### Steps -/

/-- LS4: LDA $FF,X -/
theorem test_lda_zeroPageX :
    look (step (boot [0xB5, 0xFF] { start with x := 0x01, ram := [(0x000, 0x5A)] }))
        (fun t => (t.a, t.pc, nvzc t)) =
      some (0x5A, 0x0602, [false, false, false, false]) := by decide

/-- LS9: LDA ($FF),Y -/
theorem test_lda_indirectY :
    look (step (boot [0xB1, 0xFF] { start with y := 0x04, ram := [(0x000, 0x02), (0x0FF, 0xFE), (0x302, 0x77)] }))
        (fun t => (t.a, t.pc, nvzc t)) =
      some (0x77, 0x0602, [false, false, false, false]) := by decide

/-- LS11: LDX $10,Y -/
theorem test_ldx :
    look (step (boot [0xB6, 0x10] { start with y := 0xF5, ram := [(0x005, 0x80)] }))
        (fun t => (t.x, t.pc, nvzc t)) =
      some (0x80, 0x0602, [true, false, false, false]) := by decide

/-- LS13: LDY $1234 -/
theorem test_ldy :
    look (step (boot [0xAC, 0x34, 0x12] { start with ram := [(0x234, 0x7F)] }))
        (fun t => (t.y, t.pc, nvzc t)) =
      some (0x7F, 0x0603, [false, false, false, false]) := by decide

/-- LS19: STA $0800 -/
theorem test_sta_mirror :
    look (step (boot [0x8D, 0x00, 0x08] { start with a := 0x42 }))
        (fun t => (t.pc, nvzc t, [t.ram.read 0x000])) =
      some (0x0603, [false, false, false, false], [0x42]) := by decide

/-- LS22: STA $8000 -/
theorem test_sta_fault :
    faultOf (step (boot [0x8D, 0x00, 0x80] { start with a := 0x01 })) = some (.addressCpu 0x8000 .write) := by decide

/-- LS20: STX $10,Y -/
theorem test_stx :
    look (step (boot [0x96, 0x10] { start with x := 0x07, y := 0x02 }))
        (fun t => (t.pc, nvzc t, [t.ram.read 0x012])) =
      some (0x0602, [false, false, false, false], [0x07]) := by decide

/-- LS21: STY $10,X -/
theorem test_sty :
    look (step (boot [0x94, 0x10] { start with x := 0xF0, y := 0x09 }))
        (fun t => (t.pc, nvzc t, [t.ram.read 0x000])) =
      some (0x0602, [false, false, false, false], [0x09]) := by decide

/-- LS24: TAX -/
theorem test_tax :
    look (step (boot [0xAA] { start with x := 0x05 }))
        (fun t => (t.x, t.pc, nvzc t)) =
      some (0x00, 0x0601, [false, false, true, false]) := by decide

/-- LS25: TAY -/
theorem test_tay :
    look (step (boot [0xA8] { start with a := 0x80 }))
        (fun t => (t.y, t.pc, nvzc t)) =
      some (0x80, 0x0601, [true, false, false, false]) := by decide

/-- LS26: TXA -/
theorem test_txa :
    look (step (boot [0x8A] { start with x := 0x7F, flags := { Flags.zero with n := true } }))
        (fun t => (t.a, t.pc, nvzc t)) =
      some (0x7F, 0x0601, [false, false, false, false]) := by decide

/-- LS27: TYA -/
theorem test_tya :
    look (step (boot [0x98] { start with y := 0xFF }))
        (fun t => (t.a, t.pc, nvzc t)) =
      some (0xFF, 0x0601, [true, false, false, false]) := by decide

/-- LS28: TSX -/
theorem test_tsx :
    look (step (boot [0xBA] { start with x := 0x09 }))
        (fun t => (t.x, t.pc, nvzc t)) =
      some (0x00, 0x0601, [false, false, true, false]) := by decide

/-- LS29: TXS -/
theorem test_txs :
    look (step (boot [0x9A] { start with sp := 0x55, flags := { Flags.zero with n := true } }))
        (fun t => (t.sp, t.pc, nvzc t)) =
      some (0x00, 0x0601, [true, false, false, false]) := by decide

/-- AR1: ADC #$90 -/
theorem test_adc :
    look (step (boot [0x69, 0x90] { start with a := 0xD0 }))
        (fun t => (t.a, t.pc, nvzc t)) =
      some (0x60, 0x0602, [false, true, false, true]) := by decide

/-- AR9: ADC #$09 -/
theorem test_adc_decimal :
    look (step (boot [0x69, 0x09] { start with a := 0x09, flags := { Flags.zero with d := true } }))
        (fun t => (t.a, t.pc, nvzc t)) =
      some (0x12, 0x0602, [false, false, false, false]) := by decide

/-- AR12: SBC #$01 -/
theorem test_sbc :
    look (step (boot [0xE9, 0x01] { start with flags := { Flags.zero with c := true } }))
        (fun t => (t.a, t.pc, nvzc t)) =
      some (0xFF, 0x0602, [true, false, false, false]) := by decide

/-- AR15: SBC #$FF -/
theorem test_sbc_overflow :
    look (step (boot [0xE9, 0xFF] { start with a := 0x7F, flags := { Flags.zero with c := true } }))
        (fun t => (t.a, t.pc, nvzc t)) =
      some (0x80, 0x0602, [true, true, false, false]) := by decide

/-- AR21: AND #$F0 -/
theorem test_and :
    look (step (boot [0x29, 0xF0] { start with a := 0xFF }))
        (fun t => (t.a, t.pc, nvzc t)) =
      some (0xF0, 0x0602, [true, false, false, false]) := by decide

/-- AR23: ORA #$81 -/
theorem test_ora :
    look (step (boot [0x09, 0x81] { start with a := 0x02 }))
        (fun t => (t.a, t.pc, nvzc t)) =
      some (0x83, 0x0602, [true, false, false, false]) := by decide

/-- AR24: EOR #$FF -/
theorem test_eor :
    look (step (boot [0x49, 0xFF] { start with a := 0xFF }))
        (fun t => (t.a, t.pc, nvzc t)) =
      some (0x00, 0x0602, [false, false, true, false]) := by decide

/-- AR28: CMP #$01 -/
theorem test_cmp :
    look (step (boot [0xC9, 0x01] { start with a := 0x80, flags := { Flags.zero with v := true } }))
        (fun t => (t.pc, nvzc t)) =
      some (0x0602, [false, true, false, true]) := by decide

/-- AR30: CPX #$05 -/
theorem test_cpx :
    look (step (boot [0xE0, 0x05] { start with x := 0x06 }))
        (fun t => (t.pc, nvzc t)) =
      some (0x0602, [false, false, false, true]) := by decide

/-- AR31: CPY #$80 -/
theorem test_cpy :
    look (step (boot [0xC0, 0x80] start))
        (fun t => (t.pc, nvzc t)) =
      some (0x0602, [true, false, false, false]) := by decide

/-- AR33: BIT $10 -/
theorem test_bit :
    look (step (boot [0x24, 0x10] { start with a := 0xFF, flags := { Flags.zero with n := true, v := true }, ram := [(0x010, 0x3F)] }))
        (fun t => (t.pc, nvzc t)) =
      some (0x0602, [false, false, false, false]) := by decide

/-- AR35: INC $10 -/
theorem test_inc :
    look (step (boot [0xE6, 0x10] { start with ram := [(0x010, 0xFF)] }))
        (fun t => (t.pc, nvzc t, [t.ram.read 0x010])) =
      some (0x0602, [false, false, true, false], [0x00]) := by decide

/-- AR39: DEC $0210,X -/
theorem test_dec :
    look (step (boot [0xDE, 0x10, 0x02] { start with x := 0x01, ram := [(0x211, 0x01)] }))
        (fun t => (t.pc, nvzc t, [t.ram.read 0x211])) =
      some (0x0603, [false, false, true, false], [0x00]) := by decide

/-- AR41: INX -/
theorem test_inx :
    look (step (boot [0xE8] { start with x := 0xFF }))
        (fun t => (t.x, t.pc, nvzc t)) =
      some (0x00, 0x0601, [false, false, true, false]) := by decide

/-- AR42: INY -/
theorem test_iny :
    look (step (boot [0xC8] { start with y := 0x7F }))
        (fun t => (t.y, t.pc, nvzc t)) =
      some (0x80, 0x0601, [true, false, false, false]) := by decide

/-- AR43: DEX -/
theorem test_dex :
    look (step (boot [0xCA] start))
        (fun t => (t.x, t.pc, nvzc t)) =
      some (0xFF, 0x0601, [true, false, false, false]) := by decide

/-- AR44: DEY -/
theorem test_dey :
    look (step (boot [0x88] { start with y := 0x01 }))
        (fun t => (t.y, t.pc, nvzc t)) =
      some (0x00, 0x0601, [false, false, true, false]) := by decide

/-- SH4: ASL A -/
theorem test_asl_accumulator :
    look (step (boot [0x0A] { start with a := 0x01, flags := { Flags.zero with c := true } }))
        (fun t => (t.a, t.pc, nvzc t)) =
      some (0x02, 0x0601, [false, false, false, false]) := by decide

/-- SH14: ASL $02FF,X -/
theorem test_asl :
    look (step (boot [0x1E, 0xFF, 0x02] { start with x := 0x01, ram := [(0x300, 0xC0)] }))
        (fun t => (t.pc, nvzc t, [t.ram.read 0x300])) =
      some (0x0603, [true, false, false, true], [0x80]) := by decide

/-- SH6: LSR $10 -/
theorem test_lsr :
    look (step (boot [0x46, 0x10] { start with ram := [(0x010, 0xFF)] }))
        (fun t => (t.pc, nvzc t, [t.ram.read 0x010])) =
      some (0x0602, [false, false, false, true], [0x7F]) := by decide

/-- SH9: ROL $10 -/
theorem test_rol :
    look (step (boot [0x26, 0x10] { start with flags := { Flags.zero with c := true }, ram := [(0x010, 0x40)] }))
        (fun t => (t.pc, nvzc t, [t.ram.read 0x010])) =
      some (0x0602, [true, false, false, false], [0x81]) := by decide

/-- SH12: ROR $0210 -/
theorem test_ror :
    look (step (boot [0x6E, 0x10, 0x02] { start with flags := { Flags.zero with c := true }, ram := [(0x210, 0x02)] }))
        (fun t => (t.pc, nvzc t, [t.ram.read 0x210])) =
      some (0x0603, [true, false, false, false], [0x81]) := by decide

/-- CF1: BCC *+5 -/
theorem test_bcc :
    look (step (boot [0x90, 0x03] start))
        (fun t => (t.pc, nvzc t)) =
      some (0x0605, [false, false, false, false]) := by decide

/-- CF3: BCS *+5 -/
theorem test_bcs :
    look (step (boot [0xB0, 0x03] { start with flags := { Flags.zero with c := true } }))
        (fun t => (t.pc, nvzc t)) =
      some (0x0605, [false, false, false, true]) := by decide

/-- CF5: BEQ *-2 -/
theorem test_beq :
    look (step (boot [0xF0, 0xFC] { start with flags := { Flags.zero with z := true } }))
        (fun t => (t.pc, nvzc t)) =
      some (0x05FE, [false, false, true, false]) := by decide

/-- CF7: BNE *+1 -/
theorem test_bne :
    look (step (boot [0xD0, 0xFF] start))
        (fun t => (t.pc, nvzc t)) =
      some (0x0602, [false, false, false, false]) := by decide

/-- CF9: BMI *+129 -/
theorem test_bmi :
    look (step (boot [0x30, 0x7F] { start with flags := { Flags.zero with n := true } }))
        (fun t => (t.pc, nvzc t)) =
      some (0x0681, [true, false, false, false]) := by decide

/-- CF10: BPL *-126 -/
theorem test_bpl :
    look (step (boot [0x10, 0x80] start))
        (fun t => (t.pc, nvzc t)) =
      some (0x0582, [false, false, false, false]) := by decide

/-- CF11: BVC *+4 -/
theorem test_bvc :
    look (step (boot [0x50, 0x02] start))
        (fun t => (t.pc, nvzc t)) =
      some (0x0604, [false, false, false, false]) := by decide

/-- CF12: BVS *+4 -/
theorem test_bvs :
    look (step (boot [0x70, 0x02] { start with flags := { Flags.zero with v := true } }))
        (fun t => (t.pc, nvzc t)) =
      some (0x0604, [false, true, false, false]) := by decide

/-- CF16: JMP $0601 -/
theorem test_jmp :
    look (step (boot [0x4C, 0x01, 0x06] start))
        (fun t => (t.pc, nvzc t)) =
      some (0x0603, [false, false, false, false]) := by decide

/-- CF18: JMP ($02FF) -/
theorem test_jmp_indirect :
    look (step (boot [0x6C, 0xFF, 0x02] { start with ram := [(0x200, 0x07), (0x2FF, 0x34), (0x300, 0x99)] }))
        (fun t => (t.pc, nvzc t)) =
      some (0x0734, [false, false, false, false]) := by decide

/-- CF19: JSR $0610 -/
theorem test_jsr :
    look (step (boot [0x20, 0x10, 0x06] start))
        (fun t => (t.sp, t.pc, nvzc t, [t.ram.read 0x100, t.ram.read 0x1FF])) =
      some (0xFE, 0x0610, [false, false, false, false], [0x06, 0x02]) := by decide

/-- CF21: JSR $0601 -/
theorem test_jsr_own_byte :
    look (step (boot [0x20, 0x01, 0x06] { start with sp := 0xFD }))
        (fun t => (t.sp, t.pc, nvzc t, [t.ram.read 0x1FC, t.ram.read 0x1FD])) =
      some (0xFB, 0x0603, [false, false, false, false], [0x02, 0x06]) := by decide

/-- CF23: RTS -/
theorem test_rts :
    look (step (boot [0x60] { start with sp := 0xFF, ram := [(0x100, 0xFF), (0x101, 0xFF)] }))
        (fun t => (t.sp, t.pc, nvzc t)) =
      some (0x01, 0x0000, [false, false, false, false]) := by decide

/-- CF24: RTI -/
theorem test_rti :
    look (step (boot [0x40] { start with sp := 0xFA, ram := [(0x1FB, 0xFF), (0x1FC, 0x34), (0x1FD, 0x12)] }))
        (fun t => (t.sp, t.pc, nvzc t, t.flags.d, t.flags.i)) =
      some (0xFD, 0x1234, [true, true, true, true], true, true) := by decide

/-- SF2: PHA -/
theorem test_pha :
    look (step (boot [0x48] { start with a := 0x42 }))
        (fun t => (t.sp, t.pc, nvzc t, [t.ram.read 0x100])) =
      some (0xFF, 0x0601, [false, false, false, false], [0x42]) := by decide

/-- SF4: PLA -/
theorem test_pla :
    look (step (boot [0x68] { start with a := 0x05, sp := 0xFF }))
        (fun t => (t.a, t.sp, t.pc, nvzc t)) =
      some (0x00, 0x00, 0x0601, [false, false, true, false]) := by decide

/-- SF6: PHP -/
theorem test_php :
    look (step (boot [0x08] { start with sp := 0xFF, flags := { Flags.zero with n := true, c := true } }))
        (fun t => (t.sp, t.pc, nvzc t, [t.ram.read 0x1FF])) =
      some (0xFE, 0x0601, [true, false, false, true], [0xB1]) := by decide

/-- SF9: PLP -/
theorem test_plp :
    look (step (boot [0x28] { start with sp := 0xFE, flags := { Flags.zero with n := true, c := true }, ram := [(0x1FF, 0x30)] }))
        (fun t => (t.sp, t.pc, nvzc t)) =
      some (0xFF, 0x0601, [false, false, false, false]) := by decide

/-- SF10: CLC -/
theorem test_clc :
    look (step (boot [0x18] { start with flags := { Flags.zero with c := true } }))
        (fun t => (t.pc, nvzc t)) =
      some (0x0601, [false, false, false, false]) := by decide

/-- SF11: SEC -/
theorem test_sec :
    look (step (boot [0x38] start))
        (fun t => (t.pc, nvzc t)) =
      some (0x0601, [false, false, false, true]) := by decide

/-- SF12: CLI -/
theorem test_cli :
    look (step (boot [0x58] { start with flags := { Flags.zero with i := true } }))
        (fun t => (t.pc, nvzc t, t.flags.i)) =
      some (0x0601, [false, false, false, false], false) := by decide

/-- SF13: SEI -/
theorem test_sei :
    look (step (boot [0x78] start))
        (fun t => (t.pc, nvzc t, t.flags.i)) =
      some (0x0601, [false, false, false, false], true) := by decide

/-- SF14: CLD -/
theorem test_cld :
    look (step (boot [0xD8] { start with flags := { Flags.zero with d := true } }))
        (fun t => (t.pc, nvzc t, t.flags.d)) =
      some (0x0601, [false, false, false, false], false) := by decide

/-- SF15: SED -/
theorem test_sed :
    look (step (boot [0xF8] start))
        (fun t => (t.pc, nvzc t, t.flags.d)) =
      some (0x0601, [false, false, false, false], true) := by decide

/-- SF16: CLV -/
theorem test_clv :
    look (step (boot [0xB8] { start with flags := { Flags.zero with v := true } }))
        (fun t => (t.pc, nvzc t)) =
      some (0x0601, [false, false, false, false]) := by decide

/-- SF17: NOP -/
theorem test_nop :
    look (step (boot [0xEA] { start with flags := { Flags.zero with n := true } }))
        (fun t => (t.pc, nvzc t)) =
      some (0x0601, [true, false, false, false]) := by decide

/-- SF18: BRK -/
theorem test_brk :
    look (step (boot [0x00] { start with flags := { Flags.zero with c := true } }))
        (fun t => (t.pc, nvzc t, t.flags.bhi, t.flags.blo, t.run)) =
      some (0x0601, [false, false, false, true], true, true, .halted) := by decide

/-- UD6: NOP $4000 (0C) -/
theorem test_nopAlias :
    look (step (boot [0x0C, 0x00, 0x40] start))
        (fun t => (t.pc, nvzc t)) =
      some (0x0603, [false, false, false, false]) := by decide

/-- UD9: SBC #$01 (EB) -/
theorem test_sbcAlias :
    look (step (boot [0xEB, 0x01] start))
        (fun t => (t.a, t.pc, nvzc t)) =
      some (0xFE, 0x0602, [true, false, false, false]) := by decide

/-- UD15: LAX $10,Y -/
theorem test_lax :
    look (step (boot [0xB7, 0x10] { startAll with y := 0xF5, ram := [(0x005, 0x33)] }))
        (fun t => (t.a, t.x, t.pc, nvzc t)) =
      some (0x33, 0x33, 0x0602, [false, false, false, false]) := by decide

/-- UD17: SAX ($10,X) -/
theorem test_sax :
    look (step (boot [0x83, 0x10] { startAll with a := 0xFF, x := 0x02, ram := [(0x013, 0x03)] }))
        (fun t => (t.pc, nvzc t, [t.ram.read 0x300])) =
      some (0x0602, [false, false, false, false], [0x02]) := by decide

/-- UD20: DCP $0300,Y -/
theorem test_dcp :
    look (step (boot [0xDB, 0x00, 0x03] { startAll with a := 0x05, y := 0x02, ram := [(0x302, 0x06)] }))
        (fun t => (t.pc, nvzc t, [t.ram.read 0x302])) =
      some (0x0603, [false, false, true, true], [0x05]) := by decide

/-- UD23: ISB $10 -/
theorem test_isb :
    look (step (boot [0xE7, 0x10] { startAll with a := 0x7F, ram := [(0x010, 0x7F)] }))
        (fun t => (t.a, t.pc, nvzc t, [t.ram.read 0x010])) =
      some (0xFE, 0x0602, [true, true, false, false], [0x80]) := by decide

/-- UD24: SLO $10 -/
theorem test_slo :
    look (step (boot [0x07, 0x10] { startAll with a := 0x01, ram := [(0x010, 0x81)] }))
        (fun t => (t.a, t.pc, nvzc t, [t.ram.read 0x010])) =
      some (0x03, 0x0602, [false, false, false, true], [0x02]) := by decide

/-- UD26: RLA $10 -/
theorem test_rla :
    look (step (boot [0x27, 0x10] { startAll with a := 0xFF, flags := { Flags.zero with c := true }, ram := [(0x010, 0x80)] }))
        (fun t => (t.a, t.pc, nvzc t, [t.ram.read 0x010])) =
      some (0x01, 0x0602, [false, false, false, true], [0x01]) := by decide

/-- UD28: SRE $10 -/
theorem test_sre :
    look (step (boot [0x47, 0x10] { startAll with a := 0x01, ram := [(0x010, 0x03)] }))
        (fun t => (t.a, t.pc, nvzc t, [t.ram.read 0x010])) =
      some (0x00, 0x0602, [false, false, true, true], [0x01]) := by decide

/-- UD31: RRA $10 -/
theorem test_rra :
    look (step (boot [0x67, 0x10] { startAll with a := 0x7F, flags := { Flags.zero with c := true }, ram := [(0x010, 0x02)] }))
        (fun t => (t.a, t.pc, nvzc t, [t.ram.read 0x010])) =
      some (0x00, 0x0602, [false, false, true, true], [0x81]) := by decide

/-- BU10: STA $3FFE -/
theorem test_ppu_address_low :
    look (step (boot [0x8D, 0xFE, 0x3F] { start with a := 0x21, ppuAddr := 0x3F00, ppuLatchHi := false }))
        (fun t => (t.pc, nvzc t, t.ppuAddr, t.ppuLatchHi)) =
      some (0x0603, [false, false, false, false], 0x3F21, true) := by decide

/-- BU20: LDA $2007 -/
theorem test_ppu_palette_read :
    look (step (boot [0xAD, 0x07, 0x20] { start with palette := [(0x01, 0x2A)], ppuAddr := 0x3F01, ppuBuf := 0x77 }))
        (fun t => (t.a, t.pc, nvzc t, t.ppuAddr)) =
      some (0x2A, 0x0603, [false, false, false, false], 0x3F02) := by decide

/-- BU24: STA $2007 -/
theorem test_ppu_palette_write :
    look (step (boot [0x8D, 0x07, 0x20] { start with a := 0x0F, ppuAddr := 0x3F10 }))
        (fun t => (t.pc, nvzc t, t.palette.read 0x00, t.ppuAddr)) =
      some (0x0603, [false, false, false, false], 0x0F, 0x3F11) := by decide

/-- The placed instruction is what the next step runs: JSR $0610 right after reset (CF19). -/
theorem test_withFetchWord :
    decodeTableWord 24 0x061020 = some .jsr ∧
    look (step (State.reset.withFetchWord 24 0x061020)) (fun t => (t.sp, t.pc)) = some (0xFE, 0x0610) ∧
    look (step (State.reset.withFetchWord 16 0x10A7)) (fun t => (t.a, t.pc)) = some (0x00, 0x0002) := by decide

/-! ### Hypotheses that are met: reset, run state, faults -/

/-- For `ResetZeroesCpuAndLoadsVector`, without a cartridge and with an empty PRG-ROM. -/
theorem witness_reset :
    start.cfg.resetVector = 0xFFFC ∧ start.run = .running ∧ start.cfg.cart = none ∧
    (withCart (emptyCart .vertical)).cfg.resetVector = 0xFFFC ∧ (withCart (emptyCart .vertical)).run = .running ∧
    (withCart (emptyCart .vertical)).cfg.cart = some (emptyCart .vertical) ∧ (emptyCart .vertical).prg = [] ∧
    busRead 0xFFFC start = .ok start.rv0 start ∧ busRead 0xFFFD start = .ok start.rv1 start ∧
    busRead 0xFFFC (withCart (emptyCart .vertical)) = .fault (.addressCpu 0xFFFC .read) := by decide

/-- For `ResetZeroesCpuAndLoadsVector`: a vector whose first byte can be read and whose second cannot. -/
theorem witness_reset_second :
    busRead 0x1FFF start = .ok 0x00 start ∧ (0x1FFF : Addr) + 1 = 0x2000 ∧
    busRead 0x2000 start = .fault (.addressCpu 0x2000 .read) := by decide

/-- For `ResetZeroesCpuAndLoadsVector`: a 16 KB bank and a 32 KB PRG-ROM have both vector bytes. -/
theorem witness_reset_prg :
    (List.replicate 16384 (0x80 : Byte)).length = 16384 ∧
    (List.replicate 16384 (0x80 : Byte))[0x3FFC]? = some 0x80 ∧ (List.replicate 16384 (0x80 : Byte))[0x3FFD]? = some 0x80 ∧
    (List.replicate 32768 (0x80 : Byte)).length ≠ 16384 ∧
    (List.replicate 32768 (0x80 : Byte))[0x7FFC]? = some 0x80 ∧
    (List.replicate 32768 (0x80 : Byte))[0x7FFD]? = some 0x80 := by
  exact ⟨List.length_replicate, List.getElem?_replicate_of_lt (by decide), List.getElem?_replicate_of_lt (by decide),
    by rw [List.length_replicate]; decide, List.getElem?_replicate_of_lt (by decide),
    List.getElem?_replicate_of_lt (by decide)⟩

/-- For `EveryStepKeepsInvariant`, `StepKeepsConfigurationAndOam` and `BreakBitsMoveTogether`: an ordinary step and the halt,
whose next state has the Break sub-flags set. -/
theorem witness_step :
    (∃ t, step (boot [0xEA] start) = .next t) ∧ (∃ t, step start = .next t) ∧ (boot [0xEA] start).Inv ∧ start.Inv ∧
    start.flags.bhi = start.flags.blo ∧ look (step start) (fun t => (t.flags.bhi, t.flags.blo)) = some (true, true) :=
  ⟨next_of_isNext (by decide), next_of_isNext (by decide), by decide, by decide, by decide, by decide⟩

/-- For `RunStateTransitionsAreTheList` and `FaultCommitsNothing`: every operation succeeds somewhere and faults somewhere. -/
theorem witness_transitions :
    (∃ t, hostReset start = .next t) ∧ (∃ t, hostLoad 0x0600 [0x00] start = .next t) ∧
    (∃ p, hostRead 0x0000 start = .next p) ∧ (∃ t, step (boot [0xEA] start) = .next t) ∧
    step (boot [0x02] start) = .fault (.unknownOpcode 0x02 0x0600) ∧
    hostReset (withCart (emptyCart .vertical)) = .fault (.addressCpu 0xFFFC .read) ∧
    hostLoad 0x4000 [0x00] start = .fault (.addressCpu 0x4000 .write) ∧
    hostRead 0x4000 start = .fault (.addressCpu 0x4000 .read) ∧
    ({ start with run := .halted } : State).run ≠ .running ∧
    ({ start with run := .faulted (.addressCpu 0x4000 .read) } : State).run = .faulted (.addressCpu 0x4000 .read) :=
  ⟨next_of_isNext (by decide), next_of_isNext (by decide), next_of_isNext (by decide), next_of_isNext (by decide),
    fault_of_faultOf (by decide), fault_of_faultOf (by decide), fault_of_faultOf (by decide), fault_of_faultOf (by decide),
    by decide, by decide⟩

/-- For `StepFaultsOnlyByAddressRomOrOpcode` and `ReadOnlyViolationOnlyFromMemoryWriters`: each of the three codes, and
ReadOnlyViolation from both its sources. -/
theorem witness_faults :
    step (start.setPc 0x4000) = .fault (.addressCpu 0x4000 .read) ∧
    step (boot [0x8D, 0x00, 0x80] (withCart (emptyCart .vertical))) = .fault (.readOnlyCpu 0x8000) ∧
    step (boot [0x02] start) = .fault (.unknownOpcode 0x02 0x0600) ∧
    exec (.sta .absolute) (boot [0x00, 0x80] (withCart (emptyCart .vertical))) = .fault (.readOnlyCpu 0x8000) ∧
    exec (.inc .absolute) (boot [0xFF, 0xFF] (withCart ⟨List.replicate 4 0xFF, [], 0, .vertical⟩)) =
      .fault (.addressCpu 0xFFFF .read) ∧
    exec (.sta .absolute) (boot [0x07, 0x20] start) = .fault (.readOnlyPpu 0x0000) ∧ start.cfg.stackBase = 0x0100 ∧
    instrMode .pha = .noneAddressing ∧ instrMode (.asl .accumulator) = .accumulator ∧
    (Instr.asl .accumulator).wf = true :=
  ⟨fault_of_faultOf (by decide), fault_of_faultOf (by decide), fault_of_faultOf (by decide), fault_of_faultOf (by decide),
    fault_of_faultOf (by decide), fault_of_faultOf (by decide), by decide, by decide, by decide, by decide⟩

/-! ### Hypotheses that are met: encoding and the step -/

/-- For `DecodeOfEncodeGivesInstructionBack`, `DecodedBytesEncodeBack` and `ResolverMisuseIsUnreachable`, at each level. -/
theorem witness_encoding :
    Code.wf ⟨.lda .absolute, [0x34, 0x12]⟩ = true ∧ minLevel 0xAD ≤ 0 ∧ decodeOpcode 0 0xAD = some (.lda .absolute) ∧
    Code.wf ⟨.nopAlias 0x80, [0x34]⟩ = true ∧ minLevel 0x80 ≤ 1 ∧ decodeOpcode 1 0x80 = some (.nopAlias 0x80) ∧
    Code.wf ⟨.lax .zeroPage, [0x10]⟩ = true ∧ minLevel 0xA7 ≤ 2 ∧ decodeOpcode 2 0xA7 = some (.lax .zeroPage) ∧
    Code.wf ⟨.brk, []⟩ = true ∧
    decode 0 [0xAD, 0x34, 0x12, 0xFF] = .ok (⟨.lda .absolute, [0x34, 0x12]⟩, [0xFF]) := by decide

/-- For `OpcodeBytesAreClassified` and `RegistrationFailsExactlyOnDuplicates`. -/
theorem witness_registration :
    (0x1A : Byte) ∈ nopAliasBytes ∧ (⟨0xA7, .lax .zeroPage, 2⟩ : Entry) ∈ tableCombined ∧
    ([⟨0xEA, .nop, 0⟩, ⟨0xAA, .tax, 0⟩] : List Entry).Pairwise (fun d e => d.opcode ≠ e.opcode) ∧
    (∃ d ∈ ([⟨0xEA, .nop, 0⟩, ⟨0xAA, .tax, 0⟩] : List Entry), d.opcode = (⟨0xAA, .txa, 0⟩ : Entry).opcode) := by decide

/-- For `StepRunsDecodedInstruction` and `StepTestsHaltThenLooksUp`: each clause, at the last byte of the RAM window too. -/
theorem witness_fetch :
    start.run = .running ∧ busRead start.pc start = .ok 0x00 start ∧
    busRead (boot [0xEA] start).pc (boot [0xEA] start) = .ok 0xEA (boot [0xEA] start) ∧
    decodeOpcode (boot [0xEA] start).cfg.undoc 0xEA = some .nop ∧
    exec .nop { boot [0xEA] start with pc := 0x0601 } = .next { boot [0xEA] start with pc := 0x0601 } ∧
    busRead (boot [0xAD, 0x00, 0x40] start).pc (boot [0xAD, 0x00, 0x40] start) =
      .ok 0xAD (boot [0xAD, 0x00, 0x40] start) ∧
    exec (.lda .absolute) { boot [0xAD, 0x00, 0x40] start with pc := 0x0601 } = .fault (.addressCpu 0x4000 .read) ∧
    busRead 0x4000 (start.setPc 0x4000) = .fault (.addressCpu 0x4000 .read) ∧
    busRead 0x1FFF ({ start with pc := 0x1FFF, ram := [(0x7FF, 0x02)] } : State) =
      .ok 0x02 { start with pc := 0x1FFF, ram := [(0x7FF, 0x02)] } ∧
    decodeOpcode start.cfg.undoc 0x02 = none :=
  ⟨by decide, by decide, by decide, by decide, rfl, by decide, fault_of_faultOf (by decide), by decide, by decide, by decide⟩

/-! ### Hypotheses that are met: operands in RAM -/

/-- The thirteen modes. -/
def allModes : List Mode :=
  [.immediate, .zeroPage, .zeroPageX, .zeroPageY, .absolute, .absoluteX, .absoluteY, .indirect, .indirectX, .indirectY,
    .relative, .accumulator, .noneAddressing]

/-- For `EveryInstructionCompletesInRam` and `ResolverComputesOperandAddress`: every mode, with the operand bytes at the two
last bytes of the RAM window. -/
theorem witness_inRam_last :
    ∀ m ∈ allModes, ResolvesInRam m (start.setPc 0x1FFE) ∧ InRam (ramEffective m (start.setPc 0x1FFE)) := by decide

/-- For the same: at the first two. -/
theorem witness_inRam_first :
    ∀ m ∈ allModes, ResolvesInRam m (start.setPc 0x0000) ∧ InRam (ramEffective m (start.setPc 0x0000)) ∧
      start.cfg.stackBase = 0x0100 := by decide

/-- For `EveryInstructionCompletesInRam`: a JMP pointer at the last byte of a page. -/
theorem witness_pointer :
    ResolvesInRam .indirect (boot [0xFF, 0x1F] start) ∧ (Instr.jmp .indirect).wf = true ∧
    accessesOperand (.jmp .indirect) = false ∧ accessesOperand (.lda .absolute) = true := by decide

/-- An operand in RAM: the pointer 0x0010 at 0x0600, the byte 0x81 at 0x0010. -/
def operand : State := { start with pc := 0x0600, ram := [(0x010, 0x81), (0x600, 0x10)] }

/-- For the result statements and frames over `addr` and `busRead`: a memory operand and an immediate one. -/
theorem witness_operand :
    addr .absolute operand = .ok 0x0010 operand ∧ busRead 0x0010 operand = .ok 0x81 operand ∧
    addr .immediate operand = .ok 0x0600 operand ∧ busRead 0x0600 operand = .ok 0x10 operand ∧
    windowOf operand.pc ≠ .ppu ∧ windowOf (operand.pc + 1) ≠ .ppu ∧ windowOf 0x0010 ≠ .ppu := by decide

/-- A machine with one byte of PRG-ROM. -/
def romByte : State := withCart ⟨[0x11], [], 0, .vertical⟩

/-- For the stores, and for the read-modify-write statements with each result they name. -/
theorem witness_write :
    (∀ v ∈ ([operand.a, operand.x, operand.y, operand.a &&& operand.x, 0x82, 0x80, 0x02, 0x40, 0x03, 0xC0] : List Byte),
      busWrite 0x0010 v operand = .ok () { operand with ram := operand.ram.write 0x10 v }) ∧
    (0x82 : Byte) = BitVec.ofNat 8 (0x81 + 1) ∧ (0x80 : Byte) = BitVec.ofNat 8 (0x81 + 255) ∧
    (0x80 : Byte) = 0x81 - 1 ∧ (0x82 : Byte) = 0x81 + 1 ∧ (0x02 : Byte) = BitVec.ofNat 8 (2 * 0x81) ∧
    (0x40 : Byte) = BitVec.ofNat 8 (0x81 / 2) ∧ (0x03 : Byte) = BitVec.ofNat 8 (2 * 0x81 + 1) ∧
    (0xC0 : Byte) = BitVec.ofNat 8 (0x81 / 2 + 128 * 1) := by decide

/-- For `FirstFaultOfTheAccessesIsReported`: a fault of the resolver, of the data read, of the data write, and of every write
where the read succeeds (the vector in PRG-ROM). -/
theorem witness_firstFault :
    addr .absolute (start.setPc 0x3FFF) = .fault (.addressPpu 0x3FFF 0x0000 .read) ∧
    addr .relative (start.setPc 0x4000) = .fault (.addressCpu 0x4000 .read) ∧
    addr .absolute (boot [0x00, 0x40] start) = .ok 0x4000 (boot [0x00, 0x40] start) ∧
    busRead 0x4000 (boot [0x00, 0x40] start) = .fault (.addressCpu 0x4000 .read) ∧
    busWrite 0x4000 0x00 (boot [0x00, 0x40] start) = .fault (.addressCpu 0x4000 .write) ∧
    addr .absolute (boot [0x00, 0x80] romByte) = .ok 0x8000 (boot [0x00, 0x80] romByte) ∧
    busRead 0x8000 (boot [0x00, 0x80] romByte) = .ok 0x11 (boot [0x00, 0x80] romByte) ∧
    (∀ r, busWrite 0x8000 r (boot [0x00, 0x80] romByte) = .fault (.readOnlyCpu 0x8000)) :=
  ⟨by decide, by decide, by decide, by decide, by decide, by decide, by decide, fun _ => rfl⟩

/-- For the frames: every instruction they name answers a next state on the operand. -/
theorem witness_frames :
    (∀ i ∈ [Instr.lda .absolute, .ldx .absolute, .ldy .absolute, .lax .absolute, .adc .absolute, .sbc .absolute,
      .and .absolute, .ora .absolute, .eor .absolute, .cmp .absolute, .cpx .absolute, .cpy .absolute, .bit .absolute,
      .sta .absolute, .stx .absolute, .sty .absolute, .sax .absolute, .inc .absolute, .dec .absolute, .asl .absolute,
      .lsr .absolute, .rol .absolute, .ror .absolute, .dcp .absolute, .isb .absolute, .slo .absolute, .rla .absolute,
      .sre .absolute, .rra .absolute], isNext (exec i operand) = true) ∧
    (∀ i ∈ [Instr.bcc, .bcs, .beq, .bne, .bmi, .bpl, .bvc, .bvs, .jmp .absolute, .jmp .indirect, .rts, .rti, .jsr, .pha,
      .php, .pla, .plp], isNext (exec i operand) = true) ∧
    operand.cfg.stackBase = 0x0100 := by decide

/-! ### Hypotheses that are met: the Bus and the PPU -/

/-- For `BusReadFollowsAddressMap`: the first and last address of every clause. -/
theorem witness_busRead :
    (0x0000 : Addr).toNat < 0x2000 ∧ (0x1FFF : Addr).toNat < 0x2000 ∧
    (0x2000 ≤ (0x2007 : Addr).toNat ∧ (0x2007 : Addr).toNat % 8 = 7) ∧
    ((0x3FFF : Addr).toNat < 0x4000 ∧ (0x3FFF : Addr).toNat % 8 = 7) ∧
    (0x2000 ≤ (0x2000 : Addr).toNat ∧ (0x2000 : Addr).toNat % 8 ≠ 7) ∧
    ((0x3FFE : Addr).toNat < 0x4000 ∧ (0x3FFE : Addr).toNat % 8 ≠ 7) ∧
    0x4000 ≤ (0x4000 : Addr).toNat ∧ (0x7FFF : Addr).toNat < 0x8000 ∧ 0x8000 ≤ (0x8000 : Addr).toNat ∧
    start.cfg.cart = none ∧ start.cfg.resetVector = 0xFFFC ∧ start.cfg.resetVector + 1 = 0xFFFD ∧
    (0xFFFB : Addr) ≠ 0xFFFC ∧ (0xFFFE : Addr) ≠ 0xFFFD := by decide

/-- For `BusReadFollowsAddressMap`: with a cartridge, a byte there and no byte there. -/
theorem witness_busRead_prg :
    busRead 0x8000 (withCart ⟨[0x11, 0x22], [], 0, .vertical⟩) =
      .ok 0x11 (withCart ⟨[0x11, 0x22], [], 0, .vertical⟩) ∧
    busRead 0x8001 (withCart ⟨[0x11, 0x22], [], 0, .vertical⟩) =
      .ok 0x22 (withCart ⟨[0x11, 0x22], [], 0, .vertical⟩) ∧
    busRead 0x8002 (withCart ⟨[0x11, 0x22], [], 0, .vertical⟩) = .fault (.addressCpu 0x8002 .read) := by decide

/-- For `BusWriteFollowsAddressMap`: the first and the last address of the RAM window. -/
theorem witness_busWrite_ram :
    (∃ t, busWrite 0x0000 0x33 start = .ok () t) ∧ ∃ t, busWrite 0x1FFF 0x33 start = .ok () t :=
  ⟨⟨_, rfl⟩, ⟨_, rfl⟩⟩

/-- For `BusWriteFollowsAddressMap`: each clause of the PPU window, with register indices 0, 1, 5, 6 and 7. -/
theorem witness_busWrite :
    busWrite 0x2000 0x84 start = .ok () { start with ppuCtrl := 0x84 } ∧
    busWrite 0x3FFE 0x21 start = .ok () { start with ppuAddr := 0x2100, ppuLatchHi := false } ∧
    (∃ t, busWrite 0x3FFF 0x0F { start with ppuAddr := 0x3FFF } = .ok () t) ∧
    busWrite 0x2001 0x01 start = .fault (.addressCpu 0x2001 .write) :=
  ⟨by decide, by decide, ⟨_, rfl⟩, by decide⟩

/-- For `BusWriteFollowsAddressMap`: the windows' boundaries. -/
theorem witness_busWrite_windows :
    busWrite 0x3FFD 0x01 start = .fault (.addressCpu 0x3FFD .write) ∧
    busWrite 0x4000 0x01 start = .fault (.addressCpu 0x4000 .write) ∧
    busWrite 0x7FFF 0x01 start = .fault (.addressCpu 0x7FFF .write) ∧
    busWrite 0x8000 0x01 (withCart (emptyCart .vertical)) = .fault (.readOnlyCpu 0x8000) := by decide

/-- For `BusWriteFollowsAddressMap`: around the reset-vector cells. -/
theorem witness_busWrite_vector :
    busWrite 0xFFFC 0x34 start = .ok () { start with rv0 := 0x34 } ∧
    busWrite 0xFFFD 0x12 start = .ok () { start with rv1 := 0x12 } ∧
    busWrite 0xFFFB 0x34 start = .fault (.addressCpu 0xFFFB .write) ∧
    busWrite 0xFFFE 0x34 start = .fault (.addressCpu 0xFFFE .write) := by decide

/-- For `RamReadReturnsLastWriteThroughAliases`: two aliases of the last cell, and two cells. -/
theorem witness_aliases :
    start.Inv ∧ (0x1FFF : Addr).toNat < 0x2000 ∧ (0x07FF : Addr).toNat < 0x2000 ∧
    (0x1FFF : Addr).toNat % 0x800 = (0x07FF : Addr).toNat % 0x800 ∧
    (0x1FFF : Addr).toNat % 0x800 ≠ (0x0000 : Addr).toNat % 0x800 ∧
    busWrite 0x1FFF 0x22 start = .ok () { start with ram := [(0x7FF, 0x22)] } := by decide

/-- For `PpuDataPortByRegion`: the boundaries of the four regions, and every outcome of the index functions. -/
theorem witness_dataPort :
    (0x1FFF : PpuAddr).toNat ≤ 0x1FFF ∧ (⟨[], [0x11], 0, .vertical⟩ : Cartridge).chr[(0x0000 : PpuAddr).toNat]? = some 0x11 ∧
    start.cfg.cart = none ∧ 0x2000 ≤ (0x2000 : PpuAddr).toNat ∧ (0x2FFF : PpuAddr).toNat ≤ 0x2FFF ∧
    mirror (some (emptyCart .vertical)) 0x2000 = some 0x000 ∧ mirror (some (emptyCart .vertical)) 0x2FFF = some 0x7FF ∧
    mirror none 0x2FFF = none ∧ 0x3000 ≤ (0x3000 : PpuAddr).toNat ∧ (0x3EFF : PpuAddr).toNat ≤ 0x3EFF ∧
    0x3F00 ≤ (0x3F00 : PpuAddr).toNat ∧ 0x3F00 ≤ (0x3FFF : PpuAddr).toNat := by decide

/-- For `AddressLatchTakesHighThenLow` and `PpuStoreThenLoadReturnsByte`: the first and the last nametable address. -/
theorem witness_latch :
    start.ppuLatchHi = true ∧ (0x2006 : Addr).toNat % 8 = 6 ∧ (0x3FFE : Addr).toNat % 8 = 6 ∧
    0x2000 ≤ (0x2006 : Addr).toNat ∧ (0x3FFE : Addr).toNat < 0x4000 ∧
    (withCart (emptyCart .vertical)).Inv ∧ (withCart (emptyCart .vertical)).ppuLatchHi = true ∧
    0x20 ≤ (0x20 : Byte).toNat ∧ (0x2F : Byte).toNat ≤ 0x2F ∧
    mirror (some (emptyCart .vertical)) (BitVec.ofNat 14 (0x20 * 256 + 0x00)) = some 0x000 ∧
    mirror (some (emptyCart .vertical)) (BitVec.ofNat 14 (0x2F * 256 + 0xFF)) = some 0x7FF := by decide

/-- For `NametableAndPaletteMirroring`: the rows of `95_test_vectors.md` 2.10. -/
theorem witness_mirroring :
    mirror (some (emptyCart .vertical)) 0x2BFF = some 0x3FF ∧ mirror (some (emptyCart .vertical)) 0x2C00 = some 0x400 ∧
    mirror (some (emptyCart .horizontal)) 0x2400 = some 0x000 ∧ mirror (some (emptyCart .horizontal)) 0x2800 = some 0x400 ∧
    mirror (some (emptyCart .horizontal)) 0x2C00 = some 0x400 ∧ mirror (some (emptyCart .horizontal)) 0x2FFF = some 0x7FF ∧
    mirror (some (emptyCart .fourScreen)) 0x27FF = some 0x7FF ∧ mirror (some (emptyCart .fourScreen)) 0x2800 = none ∧
    palIndex 0x3F0F = 0x0F ∧ palIndex 0x3F10 = 0x00 ∧ palIndex 0x3F14 = 0x04 ∧ palIndex 0x3F1F = 0x1F ∧
    palIndex 0x3F20 = 0x00 ∧ palIndex 0x3FFF = 0x1F := by decide

/-! ### Hypotheses that are met: control flow and the stack -/

/-- For `BranchResults`: with all flags 0 and with all flags 1, each condition holds once and fails once. -/
theorem witness_branch :
    (∀ b ∈ branchCond Flags.zero, b.2 = true ∨ b.2 = false) ∧
    (branchCond Flags.zero).map Prod.snd = [true, false, false, true, false, true, true, false] ∧
    (branchCond ⟨true, true, true, true, true, true, true, true⟩).map Prod.snd =
      [false, true, true, false, true, false, false, true] ∧
    busRead operand.pc operand = .ok 0x10 operand := by decide

/-- For `BranchStepEndsWhereTableSays`: each branch, placed before the offset 0xFF. -/
theorem witness_branchStep :
    ∀ op ∈ ([0x90, 0xB0, 0xF0, 0xD0, 0x30, 0x10, 0x50, 0x70] : List Byte), ∃ b ∈ branchCond Flags.zero,
      decodeOpcode 1 ((boot [op, 0xFF] start).ram.read ((0x0600 : Addr).toNat % 0x800)) = some b.1 ∧
      (boot [op, 0xFF] start).run = .running ∧ InRam (boot [op, 0xFF] start).pc ∧
      InRam ((boot [op, 0xFF] start).pc + 1) := by decide

/-- For `JmpResults`: an ordinary target, and the instruction's own second byte. -/
theorem witness_jmp :
    addr .absolute { boot [0x4C, 0x10, 0x06] start with pc := 0x0601 } =
      .ok 0x0610 { boot [0x4C, 0x10, 0x06] start with pc := 0x0601 } ∧
    addr .absolute { boot [0x4C, 0x01, 0x06] start with pc := 0x0600 + 1 } =
      .ok (0x0600 + 1) { boot [0x4C, 0x01, 0x06] start with pc := 0x0601 } ∧
    busRead 0x0600 (boot [0x4C, 0x01, 0x06] start) = .ok 0x4C (boot [0x4C, 0x01, 0x06] start) ∧
    decodeOpcode start.cfg.undoc 0x4C = some (.jmp .absolute) ∧ (boot [0x4C, 0x01, 0x06] start).run = .running := by decide

/-- For `CallAndReturnResults`, `RtsReturnsAfterJsr` and `PopReturnsPushedWord`: a call and its return with SP wrapping
between the two pushes. -/
theorem witness_call :
    ∃ t v, exec .jsr { operand with sp := 0x00 } = .next t ∧ exec .rts t = .next v ∧ ({ operand with sp := 0x00 } : State).Inv ∧
      ({ operand with sp := 0x00 } : State).cfg.stackBase = 0x0100 ∧
      addr .absolute { operand with sp := 0x00 } = .ok 0x0010 { operand with sp := 0x00 } :=
  ⟨_, _, rfl, rfl, by decide, by decide, by decide⟩

/-- For `StatusRoundTripAsymmetry`, `PushPullResults` and `PushPullFrames`: each pair of instructions runs. -/
theorem witness_status :
    start.Inv ∧ start.cfg.stackBase = 0x0100 ∧ (∃ t u, exec .php start = .next t ∧ exec .plp t = .next u) ∧
    (∃ t u, exec .php start = .next t ∧ exec .pla t = .next u) ∧
    (∃ t u, exec .pha start = .next t ∧ exec .plp t = .next u) :=
  ⟨by decide, by decide, ⟨_, _, rfl, rfl⟩, ⟨_, _, rfl, rfl⟩, ⟨_, _, rfl, rfl⟩⟩

/-- For `NopAndHaltResults`: NOP, and an alias of each length. -/
theorem witness_nopAlias :
    decodeOpcode 1 0xEA = some .nop ∧ busRead 0x0600 (boot [0xEA] start) = .ok 0xEA (boot [0xEA] start) ∧
    decodeOpcode 1 0x1A = some (.nopAlias 0x1A) ∧ decodeOpcode 1 0x80 = some (.nopAlias 0x80) ∧
    decodeOpcode 1 0x1C = some (.nopAlias 0x1C) ∧ start.run = .running ∧
    busRead 0x0600 (boot [0x1C, 0x00, 0x40] start) = .ok 0x1C (boot [0x1C, 0x00, 0x40] start) := by decide

/-! ### Hypotheses that are met: the loader -/

/-- For `LoadThenResetStartsTheImage`: one byte at the last RAM address, and an image of 2048 bytes. -/
theorem witness_load :
    ({ start with run := .powerOn } : State).Inv ∧ ({ start with run := .powerOn } : State).run = .powerOn ∧
    ({ start with run := .powerOn } : State).cfg.cart = none ∧
    ({ start with run := .powerOn } : State).cfg.resetVector = 0xFFFC ∧
    (0x1FFF : Addr).toNat + [(0xEA : Byte)].length ≤ 0x2000 ∧ [(0xEA : Byte)].length ≤ 2048 ∧
    (0x1800 : Addr).toNat + (List.replicate 2048 (0xEA : Byte)).length ≤ 0x2000 := by
  refine ⟨by decide, by decide, by decide, by decide, by decide, by decide, ?_⟩
  rw [List.length_replicate]; decide

/-- For `LoaderRejectsInOrder`: L3, L2, L5, L6, L9, L8 and a header alone. -/
theorem witness_rejects :
    parseCartridge [0x4E, 0x45, 0x53] = .error (.invalidFormat .badMagic) ∧
    parseCartridge [0x4E, 0x45, 0x53, 0x00, 0x01, 0x01, 0x00, 0x00] = .error (.invalidFormat .badMagic) ∧
    parseCartridge [0x4E, 0x45, 0x53, 0x1A, 0x01, 0x01, 0x00] = .error (.invalidFormat .sliceOutOfRange) ∧
    parseCartridge [0x4E, 0x45, 0x53, 0x1A, 0x01, 0x01, 0x10, 0x00] = .error (.unsupportedMapper 0x01) ∧
    parseCartridge [0x4E, 0x45, 0x53, 0x1A, 0x01, 0x01, 0x00, 0x48] = .error (.unsupportedMapper 0x40) ∧
    parseCartridge [0x4E, 0x45, 0x53, 0x1A, 0x01, 0x01, 0x00, 0x0C] = .error (.invalidFormat (.badVersion 0x3)) ∧
    parseCartridge [0x4E, 0x45, 0x53, 0x1A, 0x01, 0x01, 0x00, 0x00] = .error (.invalidFormat .sliceOutOfRange) :=
  ⟨error_of_loaderFault (by decide), error_of_loaderFault (by decide), error_of_loaderFault (by decide),
    error_of_loaderFault (by decide), error_of_loaderFault (by decide), error_of_loaderFault (by decide),
    error_of_loaderFault (by decide)⟩

/-- For `LoaderSlicesTheBuffer` and the last clause of `LoaderRejectsInOrder`: a header with one PRG bank and a trainer, whatever
follows it, if there is enough of it. -/
theorem parses_of_length (rest : List Byte) (h : 8 + 512 + 16384 ≤ rest.length) :
    ∃ c, parseCartridge (0x4E :: 0x45 :: 0x53 :: 0x1A :: 0x01 :: 0x00 :: 0x04 :: 0x00 :: rest) = .ok c := by
  have e : parseCartridge (0x4E :: 0x45 :: 0x53 :: 0x1A :: 0x01 :: 0x00 :: 0x04 :: 0x00 :: rest) =
      sliceCartridge (0x4E :: 0x45 :: 0x53 :: 0x1A :: 0x01 :: 0x00 :: 0x04 :: 0x00 :: rest) 0x01 0x00 0x04 := by
    simp [parseCartridge, inesMagic, mapperOf, versionOf]
  rw [e, sliceCartridge]
  have h2 : prgStart 0x04 = 528 := by decide
  simp only [h2, List.length_cons]
  rw [if_neg (by simp; omega)]
  exact ⟨_, rfl⟩

/-- For the same: enough of it, and not enough. -/
theorem witness_slices :
    8 + 512 + 16384 ≤ (List.replicate (8 + 512 + 16384) (0xFF : Byte)).length ∧
    loaderFault (parseCartridge [0x4E, 0x45, 0x53, 0x1A, 0x01, 0x00, 0x04, 0x00]) = some (.invalidFormat .sliceOutOfRange) ∧
    loaderFault (parseCartridge [0x4E, 0x45, 0x53, 0x1A, 0, 0, 0x09, 0x03, 0xFF, 0xFF, 0xFF, 0xFF, 0xFF, 0xFF, 0xFF, 0xFF]) =
      none := by
  refine ⟨by rw [List.length_replicate], by decide, by decide⟩

end Sys2Proof.Tests
end

