-- ==== Sys2Proof/Proofs/Stack.lean ====
section
/-! The 16-bit stack primitives of `00_scope.md` R12 with the stack page at 0x0100, by RAM cell, and their round trip. -/

namespace Sys2Proof.Machine

/-- `Push16` by RAM cell: the high byte goes to cell 0x100 + SP, the low byte to the cell of SP − 1. -/
theorem push16_cells {s : State} (v : Addr) (h : s.cfg.stackBase = 0x0100) :
    push16 v s = .ok () { s with
      ram := (s.ram.write (0x100 + s.sp.toNat) (highByte v)).write (0x100 + (s.sp - 1).toNat) (lowByte v)
      sp := s.sp - 2 } := by
  have hHigh : ramIndex (stackCell s) = 0x100 + s.sp.toNat := stackCell_index s.sp h
  have hLow : ramIndex (stackCell (s.setSp (s.sp - 1))) = 0x100 + (s.sp - 1).toNat := stackCell_index (s.sp - 1) h
  rw [push16_ram v h, hHigh, hLow]

/-- `Pop16` by RAM cell: the low byte comes from the cell of SP + 1, the high byte from the cell of SP + 2. -/
theorem pop16_cells {s : State} (h : s.cfg.stackBase = 0x0100) :
    pop16 s =
      .ok (hiLo (s.ram.read (0x100 + (s.sp + 2).toNat)) (s.ram.read (0x100 + (s.sp + 1).toNat))) (s.setSp (s.sp + 2)) := by
  have hHigh : ramIndex (stackCell (s.setSp (s.sp + 2))) = 0x100 + (s.sp + 2).toNat := stackCell_index (s.sp + 2) h
  have hLow : ramIndex (stackCell (s.setSp (s.sp + 1))) = 0x100 + (s.sp + 1).toNat := stackCell_index (s.sp + 1) h
  rw [pop16_ram h, ramRead, ramRead, hHigh, hLow]

/-- The two cells of a push are different ones, also where SP wraps between them. -/
theorem stackCells_ne (k : Byte) : 0x100 + k.toNat ≠ 0x100 + (k - 1).toNat := by bv_omega

/-- Popping what `Push16` pushed gives it back and changes nothing but SP, which it restores. -/
theorem pop16_of_push16 {s t : State} {v : Addr} (hi : s.Inv) (h : s.cfg.stackBase = 0x0100)
    (hp : push16 v s = .ok () t) : pop16 t = .ok v (t.setSp s.sp) := by
  obtain ⟨hram, -⟩ := hi
  have hHigh : (s.ram.write (0x100 + s.sp.toNat) (highByte v)).wf 0x800 = true :=
    Memory.write_wf hram (by have := s.sp.isLt; omega)
  have e1 : s.sp - 2 + 1 = s.sp - 1 := by bv_omega
  have e2 : s.sp - 2 + 2 = s.sp := by bv_omega
  rw [push16_cells v h] at hp
  cases hp
  rw [pop16_cells (by exact h)]
  simp only [e1, e2, Memory.read_write_eq hHigh, Memory.read_write_ne _ (stackCells_ne s.sp), Memory.read_write_eq hram,
    hiLo_highByte_lowByte]

/-- Settles O47: `Push16` cannot fault with the stack page at 0x0100, and `pop16_of_push16` reads its value back. -/
theorem popReturnsPushedWord : Obligations.PopReturnsPushedWord := by
  intro s v hi h
  have hp := push16_cells v h
  exact ⟨_, _, hp, pop16_of_push16 hi h hp, rfl, rfl⟩

end Sys2Proof.Machine
end

