-- ==== Sys2Proof/Proofs/StepKeeps.lean ====
section
/-! What every step keeps (`10_state.md` R21, R29, R36, R38, R45 to R47): one relation between the state before and the state
after, kept by every Bus access and every handler but the halt's, and the invariants that follow from it. -/

namespace Sys2Proof.Machine

/-- The Break sub-flags are as they were, or both 0 (`10_state.md` R29, `44_stack_flags_system.md` R253). -/
def BreakKeptOrCleared (f g : Flags) : Prop := (g.bhi = f.bhi ∧ g.blo = f.blo) ∨ (g.bhi = false ∧ g.blo = false)

/-- What an operation that leads from `s` to `t` keeps, unless it is the halt. -/
structure Kept (s t : State) : Prop where
  inv : s.Inv → t.Inv
  cfg : t.cfg = s.cfg
  oam : t.oam = s.oam
  breakBits : BreakKeptOrCleared s.flags t.flags

theorem Kept.refl (s : State) : Kept s s := ⟨id, rfl, rfl, .inl ⟨rfl, rfl⟩⟩

theorem BreakKeptOrCleared.trans {f g k : Flags} (h₁ : BreakKeptOrCleared f g) (h₂ : BreakKeptOrCleared g k) :
    BreakKeptOrCleared f k := by
  obtain ⟨hhi, hlo⟩ | h₂ := h₂
  · rw [BreakKeptOrCleared, hhi, hlo]; exact h₁
  · exact .inr h₂

theorem Kept.trans {s t u : State} (h₁ : Kept s t) (h₂ : Kept t u) : Kept s u :=
  ⟨h₂.inv ∘ h₁.inv, h₂.cfg.trans h₁.cfg, h₂.oam.trans h₁.oam, h₁.breakBits.trans h₂.breakBits⟩

/-- `t` is `s` but for the CPU registers and the flags, of which the Break sub-flags are as they were. -/
def OnlyRegisters (s t : State) : Prop :=
  t = { s with
    a := t.a, x := t.x, y := t.y, sp := t.sp, pc := t.pc
    flags := { t.flags with bhi := s.flags.bhi, blo := s.flags.blo } }

theorem OnlyRegisters.kept {s t : State} (h : OnlyRegisters s t) : Kept s t := by
  rw [h]; exact ⟨id, rfl, rfl, .inl ⟨rfl, rfl⟩⟩

theorem setSp_kept (v : Byte) (s : State) : Kept s (s.setSp v) := OnlyRegisters.kept rfl

theorem unpackP_kept (b : Byte) (s : State) : Kept s (unpackP b s) := ⟨id, rfl, rfl, .inr ⟨rfl, rfl⟩⟩

/-! ### Bus accesses, operand accesses, stack -/

theorem OnlyReads.kept {s t : State} (h : OnlyReads s t) : Kept s t := by
  rw [h]; exact ⟨id, rfl, rfl, .inl ⟨rfl, rfl⟩⟩

theorem busWrite_kept {a : Addr} {v : Byte} {s t : State} (h : busWrite a v s = .ok () t) : Kept s t := by
  have hs := busWrite_onlyStores h
  refine ⟨busWrite_inv h, ?_, ?_, ?_⟩ <;> rw [hs]
  exact .inl ⟨rfl, rfl⟩

theorem writeOperand_kept {m : Mode} {v : Byte} {s t : State} (h : writeOperand m v s = .ok () t) : Kept s t := by
  obtain ⟨a, u, haddr, hwrite⟩ := writeOperand_eq_ok.mp h
  exact (addr_onlyReads haddr).kept.trans (busWrite_kept hwrite)

theorem modifyOperand_kept {m : Mode} {f : Byte → Byte} {v : Byte} {s t : State} (h : modifyOperand m f s = .ok v t) :
    Kept s t := by
  obtain ⟨a, u, w, haddr, hread, hwrite⟩ := modifyOperand_eq_ok.mp h
  exact ((addr_onlyReads haddr).trans (busRead_onlyReads hread)).kept.trans (busWrite_kept hwrite)

theorem push_kept {v : Byte} {s t : State} (h : push v s = .ok () t) : Kept s t := by
  obtain ⟨_, u, hwrite, hsp⟩ := Res.andThen_eq_ok.mp h
  cases hsp
  exact (busWrite_kept hwrite).trans (setSp_kept _ u)

theorem push16_kept {v : Addr} {s t : State} (h : push16 v s = .ok () t) : Kept s t := by
  obtain ⟨_, u, hhigh, hlow⟩ := Res.andThen_eq_ok.mp h
  exact (push_kept hhigh).trans (push_kept hlow)

theorem pop_kept {v : Byte} {s t : State} (h : pop s = .ok v t) : Kept s t :=
  (setSp_kept (s.sp + 1) s).trans (pop_onlyReads h).kept

theorem pop16_kept {v : Addr} {s t : State} (h : pop16 s = .ok v t) : Kept s t :=
  (setSp_kept (s.sp + 2) s).trans (pop16_onlyReads h).kept

/-! ### Handlers -/

/-- A handler keeps what its accesses keep and its ending keeps. -/
theorem Res.run_kept {α : Type} {r : Res α} {k : α → State → State} {s t : State}
    (h : r.run k = .next t) (hr : ∀ {v u}, r = .ok v u → Kept s u) (hk : ∀ v u, Kept u (k v u)) : Kept s t := by
  obtain ⟨v, u, hok, rfl⟩ := Res.run_eq_next.mp h
  exact (hr hok).trans (hk v u)

theorem branchIf_kept {cond : Bool} {s t : State} (h : branchIf cond s = .next t) : Kept s t := by
  unfold branchIf at h
  split at h
  · exact Res.run_kept h (fun hok => (addr_onlyReads hok).kept) (fun _ _ => OnlyRegisters.kept rfl)
  · cases h; exact .refl s

theorem shiftForm_kept {m : Mode} {f : Byte → Byte × Bool} {s t : State} (h : shiftForm m f s = .next t) : Kept s t := by
  unfold shiftForm at h
  split at h
  · cases h; exact OnlyRegisters.kept rfl
  · exact Res.run_kept h modifyOperand_kept (fun _ _ => OnlyRegisters.kept rfl)

theorem execJsr_kept {s t : State} (h : execJsr s = .next t) : Kept s t := by
  refine Res.run_kept h (fun hok => ?_) (fun _ _ => OnlyRegisters.kept rfl)
  obtain ⟨target, u, haddr, hrest⟩ := Res.andThen_eq_ok.mp hok
  obtain ⟨_, w, hpush, hw⟩ := Res.andThen_eq_ok.mp hrest
  cases hw
  exact (addr_onlyReads haddr).kept.trans (push16_kept hpush)

theorem execRti_kept {s t : State} (h : execRti s = .next t) : Kept s t := by
  refine Res.run_kept h (fun hok => ?_) (fun _ _ => OnlyRegisters.kept rfl)
  obtain ⟨b, u, hpop, hpop16⟩ := Res.andThen_eq_ok.mp hok
  exact ((pop_kept hpop).trans (unpackP_kept b u)).trans (pop16_kept hpop16)

/-- Every instruction but the halt keeps the invariant, the configuration, OAM and, unless it clears both, the Break
sub-flags. -/
theorem exec_kept {i : Instr} {s t : State} (hi : i ≠ .brk) (h : exec i s = .next t) : Kept s t := by
  cases i
  case brk => exact absurd rfl hi
  case lda | ldx | ldy | adc | sbc | and | ora | eor | cmp | cpx | cpy | bit | sbcAlias | lax =>
    exact Res.run_kept h (fun hok => (readOperand_onlyReads hok).kept) (fun _ _ => OnlyRegisters.kept rfl)
  case sta | stx | sty | sax => exact Res.run_kept h writeOperand_kept (fun _ u => .refl u)
  case inc | dec | dcp | isb | slo | rla | sre | rra =>
    exact Res.run_kept h modifyOperand_kept (fun _ _ => OnlyRegisters.kept rfl)
  case asl | lsr | rol | ror => exact shiftForm_kept h
  case bcc | bcs | beq | bne | bmi | bpl | bvc | bvs => exact branchIf_kept h
  case jmp => exact Res.run_kept h (fun hok => (addr_onlyReads hok).kept) (fun _ _ => OnlyRegisters.kept rfl)
  case jsr => exact execJsr_kept h
  case rts => exact Res.run_kept h pop16_kept (fun _ _ => OnlyRegisters.kept rfl)
  case rti => exact execRti_kept h
  case pha | php => exact Res.run_kept h push_kept (fun _ u => .refl u)
  case pla => exact Res.run_kept h pop_kept (fun _ _ => OnlyRegisters.kept rfl)
  case plp => exact Res.run_kept h pop_kept unpackP_kept
  case tax | tay | txa | tya | tsx | txs | inx | iny | dex | dey | clc | sec | cli | sei | cld | sed | clv | nop | nopAlias =>
    cases h; exact OnlyRegisters.kept rfl

/-! ### The step -/

theorem mapNext_eq_next {f : State → State} {r : Result} {t : State} :
    mapNext f r = .next t ↔ ∃ u, r = .next u ∧ f u = t := by
  cases r <;> simp [mapNext]

/-- A step that answers a next state fetched a byte, decoded it, executed the instruction and advanced PC
(`30_encoding.md` R162 to R164). -/
theorem step_eq_next {s t : State} :
    step s = .next t ↔ s.run = .running ∧ ∃ op u i w,
      fetchOpcode s = .ok op u ∧ decodeOpcode u.cfg.undoc op = some i ∧ exec i u = .next w ∧ advancePc i u.pc w = t := by
  cases hrun : s.run with
  | powerOn | reset | halted | faulted => simp [step, hrun]
  | running =>
    simp only [step, hrun, stepRunning]
    cases fetchOpcode s with
    | fault f => simp
    | ok op u => cases hd : decodeOpcode u.cfg.undoc op <;> simp [executeOpcode, mapNext_eq_next, hd]

theorem fetchOpcode_kept {s t : State} {op : Byte} (h : fetchOpcode s = .ok op t) : Kept s t := by
  obtain ⟨_, u, hread, hpc⟩ := Res.andThen_eq_ok.mp h
  cases hpc
  exact (busRead_onlyReads hread).kept.trans (OnlyRegisters.kept rfl)

theorem advancePc_kept (i : Instr) (pc : Addr) (s : State) : Kept s (advancePc i pc s) := by
  unfold advancePc
  split <;> exact OnlyRegisters.kept rfl

theorem advancePc_takeHalt (i : Instr) (pc : Addr) (s : State) :
    advancePc i pc (takeHalt s) = takeHalt (advancePc i pc s) := by
  have hpc : (takeHalt s).pc = s.pc := rfl
  rw [advancePc, advancePc, hpc, apply_ite takeHalt]
  rfl

/-- What a step can do to the stores, the configuration and the Break sub-flags: it keeps them, and at most halts. -/
theorem step_kept_or_halts {s t : State} (h : step s = .next t) : Kept s t ∨ ∃ u, Kept s u ∧ t = takeHalt u := by
  obtain ⟨-, op, u, i, w, hfetch, -, hexec, rfl⟩ := step_eq_next.mp h
  have hu := fetchOpcode_kept hfetch
  by_cases hi : i = .brk
  · subst hi
    cases hexec
    exact .inr ⟨_, hu.trans (advancePc_kept .brk u.pc u), advancePc_takeHalt _ _ _⟩
  · exact .inl ((hu.trans (exec_kept hi hexec)).trans (advancePc_kept i u.pc w))

/-- Settles O4: the halt changes no store, and everything else a step does keeps the invariant. -/
theorem everyStepKeepsInvariant : Obligations.EveryStepKeepsInvariant := by
  intro s t hs h
  obtain hk | ⟨u, hk, rfl⟩ := step_kept_or_halts h <;> exact hk.inv hs

/-- Settles O14: the halt touches neither, and everything else a step does keeps both. -/
theorem stepKeepsConfigurationAndOam : Obligations.StepKeepsConfigurationAndOam := by
  intro s t h
  obtain hk | ⟨u, hk, rfl⟩ := step_kept_or_halts h <;> exact ⟨hk.cfg, hk.oam⟩

/-- Settles O15: the halt sets both sub-flags, a pulled status byte clears both, and nothing else touches them. -/
theorem breakBitsMoveTogether : Obligations.BreakBitsMoveTogether := by
  intro s t h
  obtain hk | ⟨u, hk, rfl⟩ := step_kept_or_halts h
  · obtain ⟨hhi, hlo⟩ | ⟨hhi, hlo⟩ := hk.breakBits
    · rw [hhi, hlo]; exact ⟨id, .inl, .inl⟩
    · simp [hhi, hlo]
  · exact ⟨fun _ => rfl, fun _ => .inr rfl, fun _ => .inr rfl⟩

end Sys2Proof.Machine
end

