-- ==== Sys2Proof/Proofs/ResetState.lean ====
section
/-! The reset vector of a machine without cartridge, and the state that reset makes of a constructed one
(`10_state.md` R50, `70_reset_and_hazards.md` R330, R331). -/

namespace Sys2Proof.Machine

/-- Without a cartridge and with the vector at 0xFFFC, Reset reads the two RV cells and changes nothing by it
(`20_memory.md` R68). -/
theorem readVector_rv {s : State} (hcart : s.cfg.cart = none) (hvec : s.cfg.resetVector = 0xFFFC) :
    readVector s = .ok (hiLo s.rv1 s.rv0) s := by
  have hlo : busRead 0xFFFC s = .ok s.rv0 s := by
    simp [busRead, windowOf, hcart, vectorRead, hvec]
  have hhi : busRead (0xFFFC + 1) s = .ok s.rv1 s := by
    simp [busRead, windowOf, hcart, vectorRead, hvec]
  rw [readVector, hvec, hlo, Res.andThen_ok, hhi, Res.andThen_ok]

/-- Settles O2: both vector bytes are the zeros the machine was constructed with, and Reset overwrites every CPU register. -/
theorem stateResetIsResetOfPowerOn : Obligations.StateResetIsResetOfPowerOn := by
  intro a x y sp pc f
  have hpc : hiLo 0x00 0x00 = 0x0000 := by decide
  show doReset _ = _
  rw [doReset, readVector_rv rfl rfl]
  exact congrArg (fun v => Host.Outcome.next (State.reset.setPc v)) hpc

/-- Settles O3: an empty store is in canonical form at every size, and no cartridge is attached. -/
theorem invariantHoldsAtReset : Obligations.InvariantHoldsAtReset := ⟨rfl, rfl, rfl, rfl, rfl⟩

end Sys2Proof.Machine
end

