-- ==== Sys2Proof/Proofs/BusMap.lean ====
section
/-! The Bus by address (`20_memory.md` R62 to R72): what it does in each window, the whole map for reads and for writes, and
the RAM mirror of R64. -/

namespace Sys2Proof.Machine

/-! ### One equation per window -/

theorem busRead_unmapped {a : Addr} (s : State) (h : windowOf a = .unmapped) :
    busRead a s = .fault (.addressCpu a .read) := by
  simp [busRead, h]

theorem busRead_cart {a : Addr} {s : State} {c : Cartridge} (h : windowOf a = .prg) (hc : s.cfg.cart = some c) :
    busRead a s = prgRead c a s := by
  simp [busRead, h, hc]

theorem busRead_noCart {a : Addr} {s : State} (h : windowOf a = .prg) (hc : s.cfg.cart = none) :
    busRead a s = vectorRead a s := by
  simp [busRead, h, hc]

theorem busWrite_unmapped {a : Addr} (v : Byte) (s : State) (h : windowOf a = .unmapped) :
    busWrite a v s = .fault (.addressCpu a .write) := by
  simp [busWrite, h]

theorem busWrite_cart {a : Addr} (v : Byte) {s : State} (h : windowOf a = .prg) (hc : s.cfg.cart ≠ none) :
    busWrite a v s = .fault (.readOnlyCpu a) := by
  obtain ⟨c, hc⟩ := Option.ne_none_iff_exists'.mp hc
  simp [busWrite, h, hc]

theorem busWrite_noCart {a : Addr} (v : Byte) {s : State} (h : windowOf a = .prg) (hc : s.cfg.cart = none) :
    busWrite a v s = vectorWrite a v s := by
  simp [busWrite, h, hc]

/-! ### The registers of the PPU window -/

section PpuWindow

variable {a : Addr} (v : Byte) (s : State) (hw : windowOf a = .ppu)
include hw

theorem busRead_dataRegister (h : regIndex a = 7) : busRead a s = readData a s := by
  simp [busRead, hw, ppuRegRead, h]

theorem busRead_writeOnlyRegister (h : regIndex a ≠ 7) : busRead a s = .fault (.addressCpu a .read) := by
  simp [busRead, hw, ppuRegRead, h]

theorem busWrite_controlRegister (h : regIndex a = 0) : busWrite a v s = .ok () (writeControl v s) := by
  simp [busWrite, hw, ppuRegWrite, h]

theorem busWrite_addressRegister (h : regIndex a = 6) : busWrite a v s = .ok () (writeAddressLatch v s) := by
  simp [busWrite, hw, ppuRegWrite, h]

theorem busWrite_dataRegister (h : regIndex a = 7) : busWrite a v s = writeData a v s := by
  simp [busWrite, hw, ppuRegWrite, h]

theorem busWrite_missingRegister (h0 : regIndex a ≠ 0) (h6 : regIndex a ≠ 6) (h7 : regIndex a ≠ 7) :
    busWrite a v s = .fault (.addressCpu a .write) := by
  simp [busWrite, hw, ppuRegWrite, h0, h6, h7]

end PpuWindow

/-! ### The cells of the vector and of PRG-ROM -/

theorem prgRead_some {c : Cartridge} {a : Addr} {b : Byte} (s : State) (h : c.prg[prgOffset c a]? = some b) :
    prgRead c a s = .ok b s := by
  simp [prgRead, h]

theorem prgRead_none {c : Cartridge} {a : Addr} (s : State) (h : c.prg.length ≤ prgOffset c a) :
    prgRead c a s = .fault (.addressCpu a .read) := by
  simp [prgRead, List.getElem?_eq_none h]

/-- The two vector cells have different addresses, also where the second one wraps to 0. -/
theorem addr_add_one_ne (a : Addr) : a + 1 ≠ a := by bv_omega

/-! ### The map -/

/-- Settles O22: the window of the address decides, then the register index, PRG-ROM or the vector cells. -/
theorem busReadFollowsAddressMap : Obligations.BusReadFollowsAddressMap := by
  intro a s
  have hreg := regIndex_eq a
  refine ⟨fun h => ?_, fun hlo hhi h7 => ?_, fun hlo hhi h7 => ?_, fun hlo hhi => ?_, fun c h hc => ?_, fun h hc => ?_⟩
  · rw [busRead_ram s (windowOf_ram.mpr h), ramRead, ramIndex_eq]
  · exact busRead_dataRegister s (windowOf_ppu.mpr ⟨hlo, hhi⟩) (hreg.trans h7)
  · exact busRead_writeOnlyRegister s (windowOf_ppu.mpr ⟨hlo, hhi⟩) (hreg.trans_ne h7)
  · exact busRead_unmapped s (windowOf_unmapped.mpr ⟨hlo, hhi⟩)
  · rw [busRead_cart (windowOf_prg.mpr h) hc]
    exact ⟨fun b => prgRead_some s, prgRead_none s⟩
  · rw [busRead_noCart (windowOf_prg.mpr h) hc, vectorRead]
    refine ⟨fun h0 => if_pos h0, fun h1 => ?_, fun h0 h1 => ?_⟩
    · rw [if_neg (h1 ▸ addr_add_one_ne _), if_pos h1]
    · rw [if_neg h0, if_neg h1]

/-- Settles O23: the window of the address decides, then the register index, the cartridge or the vector cells. -/
theorem busWriteFollowsAddressMap : Obligations.BusWriteFollowsAddressMap := by
  intro a v s
  have hreg := regIndex_eq a
  refine ⟨fun h => ?_, fun hlo hhi => ?_, fun hlo hhi => ?_, fun h hc => ?_, fun h hc => ?_⟩
  · rw [busWrite_ram v s (windowOf_ram.mpr h), ramWrite, ramIndex_eq]
    rfl
  · have hw := windowOf_ppu.mpr ⟨hlo, hhi⟩
    exact ⟨fun h0 => busWrite_controlRegister v s hw (hreg.trans h0),
      fun h6 => busWrite_addressRegister v s hw (hreg.trans h6),
      fun h7 => busWrite_dataRegister v s hw (hreg.trans h7),
      fun h1 h5 => busWrite_missingRegister v s hw (by omega) (by omega) (by omega)⟩
  · exact busWrite_unmapped v s (windowOf_unmapped.mpr ⟨hlo, hhi⟩)
  · exact busWrite_cart v (windowOf_prg.mpr h) hc
  · rw [busWrite_noCart v (windowOf_prg.mpr h) hc, vectorWrite]
    refine ⟨fun h0 => if_pos h0, fun h1 => ?_, fun h0 h1 => ?_⟩
    · rw [if_neg (h1 ▸ addr_add_one_ne _), if_pos h1]
      rfl
    · rw [if_neg h0, if_neg h1]

/-- Settles O24: both addresses name a RAM cell by their residue modulo 0x800, and the store answers by cell. -/
theorem ramReadReturnsLastWriteThroughAliases : Obligations.RamReadReturnsLastWriteThroughAliases := by
  intro a b v s t ⟨hram, _⟩ ha hb h
  have hb' : windowOf b = .ram := windowOf_ram.mpr hb
  rw [busWrite_ram v s (windowOf_ram.mpr ha)] at h
  cases h
  rw [busRead_ram s hb', busRead_ram _ hb', ← ramIndex_eq, ← ramIndex_eq]
  refine ⟨fun heq => ?_, fun hne => ⟨_, rfl, ?_⟩⟩
  · rw [ramRead, ← heq]
    exact congrArg (Res.ok · _) (Memory.read_write_eq hram)
  · exact congrArg (Res.ok · _) (Memory.read_write_ne s.ram hne.symm)

end Sys2Proof.Machine
end

