-- ==== Sys2Proof/Proofs/PpuRegisters.lean ====
section
/-! The PPU register model (`20_memory.md` R91 to R103): the address latch, the data port by region, mirroring, and the
store-then-load protocol of R103. -/

namespace Sys2Proof.Machine

/-! ### The address latch -/

/-- The high byte of the address register goes to bits 8 to 13, the low byte stays (R92). -/
theorem latchHigh_eq (v : Byte) (a : PpuAddr) :
    latchHigh v a = BitVec.ofNat 14 (v.toNat % 64 * 256 + a.toNat % 256) := by
  have hhigh : (v.setWidth 14 <<< 8 : PpuAddr).toNat = (v.toNat % 64) <<< 8 := by
    simp only [BitVec.toNat_shiftLeft, BitVec.toNat_setWidth, Nat.shiftLeft_eq]
    omega
  have hlow : (a &&& 0x00FF).toNat = a.toNat % 256 := by
    rw [BitVec.toNat_and]
    exact Nat.and_two_pow_sub_one_eq_mod a.toNat 8
  apply BitVec.eq_of_toNat_eq
  rw [latchHigh, BitVec.toNat_or, hhigh, hlow, ← Nat.shiftLeft_add_eq_or_of_lt (by omega), Nat.shiftLeft_eq,
    BitVec.toNat_ofNat]
  omega

/-- The low byte of the address register is replaced, bits 8 to 13 stay (R92). -/
theorem latchLow_eq (v : Byte) (a : PpuAddr) :
    latchLow v a = BitVec.ofNat 14 (a.toNat / 256 * 256 + v.toNat) := by
  have hmask : a &&& (0x3F00 : PpuAddr) = (a >>> 8) <<< 8 := by
    apply BitVec.eq_of_getLsbD_eq
    intro i hi
    interval_cases i <;> simp
  have hhigh : (a &&& 0x3F00).toNat = (a.toNat / 256) <<< 8 := by
    rw [hmask]
    simp only [BitVec.toNat_shiftLeft, BitVec.toNat_ushiftRight, Nat.shiftRight_eq_div_pow, Nat.shiftLeft_eq]
    omega
  have hlow : (v.setWidth 14).toNat = v.toNat := BitVec.toNat_setWidth_of_le (by omega)
  apply BitVec.eq_of_toNat_eq
  rw [latchLow, BitVec.toNat_or, hhigh, hlow, ← Nat.shiftLeft_add_eq_or_of_lt v.isLt, Nat.shiftLeft_eq,
    BitVec.toNat_ofNat]
  omega

theorem writeAddressLatch_high (v : Byte) {s : State} (h : s.ppuLatchHi = true) :
    writeAddressLatch v s = { s with
      ppuLatchHi := false, ppuAddr := BitVec.ofNat 14 (v.toNat % 64 * 256 + s.ppuAddr.toNat % 256) } := by
  rw [writeAddressLatch, if_pos h, h, latchHigh_eq]
  rfl

theorem writeAddressLatch_low (v : Byte) {s : State} (h : s.ppuLatchHi = false) :
    writeAddressLatch v s = { s with
      ppuLatchHi := true, ppuAddr := BitVec.ofNat 14 (s.ppuAddr.toNat / 256 * 256 + v.toNat) } := by
  rw [writeAddressLatch, if_neg (by simp [h]), h, latchLow_eq]
  rfl

/-- Settles O26: the first write is a high one, the second a low one over the address the first has left. -/
theorem addressLatchTakesHighThenLow : Obligations.AddressLatchTakesHighThenLow := by
  intro a b hi lo s h ha1 ha2 ha3 hb1 hb2 hb3
  have ha := windowOf_ppu.mpr ⟨ha1, ha2⟩
  have hb := windowOf_ppu.mpr ⟨hb1, hb2⟩
  have hkeep : (BitVec.ofNat 14 (hi.toNat % 64 * 256 + s.ppuAddr.toNat % 256)).toNat / 256 * 256 = hi.toNat % 64 * 256 := by
    rw [BitVec.toNat_ofNat]
    omega
  constructor
  · rw [busWrite_addressRegister hi s ha ((regIndex_eq a).trans ha3), writeAddressLatch_high hi h]
  · rw [busWrite_addressRegister lo _ hb ((regIndex_eq b).trans hb3), writeAddressLatch_low lo rfl, hkeep]

/-! ### Mirroring -/

theorem mirror_vertical {c : Cartridge} {a : PpuAddr} (hlo : 0x2000 ≤ a.toNat) (hhi : a.toNat ≤ 0x2FFF)
    (hm : c.mirroring = .vertical) : mirror (some c) a = some (a.toNat % 0x800) := by
  simp only [mirror, Option.map_some, hm, Nat.shiftRight_eq_div_pow, Option.some.injEq]
  split_ifs <;> omega

theorem mirror_horizontal {c : Cartridge} {a : PpuAddr} (hlo : 0x2000 ≤ a.toNat) (hhi : a.toNat ≤ 0x2FFF)
    (hm : c.mirroring = .horizontal) :
    mirror (some c) a = some ((a.toNat - 0x2000) / 0x800 * 0x400 + a.toNat % 0x400) := by
  simp only [mirror, Option.map_some, hm, Nat.shiftRight_eq_div_pow, Option.some.injEq]
  split_ifs <;> omega

theorem mirror_fourScreen {c : Cartridge} (a : PpuAddr) (hm : c.mirroring = .fourScreen) :
    mirror (some c) a = if 0x800 ≤ a.toNat - 0x2000 then none else some (a.toNat - 0x2000) := by
  simp only [mirror, Option.map_some, hm]

theorem mirror_noCart (a : PpuAddr) : mirror none a = none := rfl

/-- The palette repeats every 32 bytes, and its entries 0x10, 0x14, 0x18 and 0x1C are entries 0, 4, 8 and 0xC (R100). -/
theorem palIndex_eq {a : PpuAddr} (h : 0x3F00 ≤ a.toNat) :
    palIndex a = if a.toNat % 4 = 0 then a.toNat % 16 else a.toNat % 32 := by
  have hmask : (a.toNat - 0x3F00) &&& 0x1F = a.toNat % 32 := by
    rw [Nat.and_two_pow_sub_one_eq_mod _ 5]
    omega
  simp only [palIndex, hmask]
  split_ifs <;> omega

/-- Settles O27: each mirroring mode by its closed form, then the palette. -/
theorem nametableAndPaletteMirroring : Obligations.NametableAndPaletteMirroring := by
  refine ⟨fun c a hlo hhi => ?_, fun a h => ?_⟩
  · refine ⟨mirror_vertical hlo hhi, mirror_horizontal hlo hhi, fun hm hlt => ?_, fun hm hge => ?_, mirror_noCart a⟩
    · rw [mirror_fourScreen a hm, if_neg (by omega)]
    · rw [mirror_fourScreen a hm, if_pos (by omega)]
  · rw [palIndex_eq h]
    exact ⟨fun h0 => if_pos h0, fun h0 => if_neg h0⟩

/-! ### The data port -/

theorem ppuRegion_pattern {a : PpuAddr} : ppuRegion a = .pattern ↔ a.toNat ≤ 0x1FFF := by
  unfold ppuRegion; split_ifs <;> simp_all

theorem ppuRegion_nametable {a : PpuAddr} : ppuRegion a = .nametable ↔ 0x2000 ≤ a.toNat ∧ a.toNat ≤ 0x2FFF := by
  unfold ppuRegion; split_ifs <;> simp <;> omega

theorem ppuRegion_unused {a : PpuAddr} : ppuRegion a = .unused ↔ 0x3000 ≤ a.toNat ∧ a.toNat ≤ 0x3EFF := by
  unfold ppuRegion; split_ifs <;> simp <;> omega

theorem ppuRegion_palette {a : PpuAddr} : ppuRegion a = .palette ↔ 0x3F00 ≤ a.toNat := by
  unfold ppuRegion; split_ifs <;> simp <;> omega

section DataPort

variable {reg : Addr} {s : State}

theorem readData_pattern (h : ppuRegion s.ppuAddr = .pattern) :
    readData reg s = refillBuffer reg s (chrRead s.cfg.cart s.ppuAddr) := by
  simp only [readData, h]

theorem readData_nametable (h : ppuRegion s.ppuAddr = .nametable) :
    readData reg s = refillBuffer reg s ((mirror s.cfg.cart s.ppuAddr).map s.vram.read) := by
  simp only [readData, h]

theorem readData_nametable_cell {i : Nat} (h : ppuRegion s.ppuAddr = .nametable)
    (hm : mirror s.cfg.cart s.ppuAddr = some i) :
    readData reg s = .ok s.ppuBuf (incrementAddress (s.setPpuBuf (s.vram.read i))) := by
  simp only [readData, h, hm, Option.map_some, refillBuffer]

theorem readData_nametable_noCell (h : ppuRegion s.ppuAddr = .nametable) (hm : mirror s.cfg.cart s.ppuAddr = none) :
    readData reg s = .fault (.addressPpu reg s.ppuAddr .read) := by
  simp only [readData, h, hm, Option.map_none, refillBuffer]

theorem readData_unused (h : ppuRegion s.ppuAddr = .unused) :
    readData reg s = .fault (.addressPpu reg s.ppuAddr .read) := by
  simp only [readData, h]

theorem readData_palette (h : ppuRegion s.ppuAddr = .palette) :
    readData reg s = .ok (s.palette.read (palIndex s.ppuAddr)) (incrementAddress s) := by
  simp only [readData, h]

theorem writeData_pattern (v : Byte) (h : ppuRegion s.ppuAddr = .pattern) :
    writeData reg v s = .fault (.readOnlyPpu s.ppuAddr) := by
  simp only [writeData, h]

theorem writeData_nametable_cell {i : Nat} (v : Byte) (h : ppuRegion s.ppuAddr = .nametable)
    (hm : mirror s.cfg.cart s.ppuAddr = some i) :
    writeData reg v s = .ok () (incrementAddress (s.setVram (s.vram.write i v))) := by
  simp only [writeData, h, hm]

theorem writeData_nametable_noCell (v : Byte) (h : ppuRegion s.ppuAddr = .nametable)
    (hm : mirror s.cfg.cart s.ppuAddr = none) : writeData reg v s = .fault (.addressPpu reg s.ppuAddr .write) := by
  simp only [writeData, h, hm]

theorem writeData_unused (v : Byte) (h : ppuRegion s.ppuAddr = .unused) :
    writeData reg v s = .fault (.addressPpu reg s.ppuAddr .write) := by
  simp only [writeData, h]

theorem writeData_palette (v : Byte) (h : ppuRegion s.ppuAddr = .palette) :
    writeData reg v s = .ok () (incrementAddress (s.setPalette (s.palette.write (palIndex s.ppuAddr) v))) := by
  simp only [writeData, h]

end DataPort

theorem chrRead_some {c : Cartridge} {a : PpuAddr} {b : Byte} (h : c.chr[a.toNat]? = some b) :
    chrRead (some c) a = some b := h

/-- Without a cartridge, or past the end of its CHR-ROM, there is no CHR byte (R97). -/
theorem chrRead_eq_none {cart : Option Cartridge} {a : PpuAddr} (h : ∀ c, cart = some c → c.chr.length ≤ a.toNat) :
    chrRead cart a = none := by
  cases cart with
  | none => rfl
  | some c => exact List.getElem?_eq_none (h c rfl)

/-- Settles O25: one equation per region and direction. -/
theorem ppuDataPortByRegion : Obligations.PpuDataPortByRegion := by
  intro reg s v
  refine ⟨fun h => ?_, fun hlo hhi => ?_, fun hlo hhi => ?_, fun h => ?_⟩
  · have hr := ppuRegion_pattern.mpr h
    rw [readData_pattern hr]
    refine ⟨fun c b hc hb => ?_, fun hnone => ?_, writeData_pattern v hr⟩
    · rw [hc, chrRead_some hb]
      rfl
    · rw [chrRead_eq_none hnone]
      rfl
  · have hr := ppuRegion_nametable.mpr ⟨hlo, hhi⟩
    exact ⟨fun i hm => ⟨readData_nametable_cell hr hm, writeData_nametable_cell v hr hm⟩,
      fun hm => ⟨readData_nametable_noCell hr hm, writeData_nametable_noCell v hr hm⟩⟩
  · have hr := ppuRegion_unused.mpr ⟨hlo, hhi⟩
    exact ⟨readData_unused hr, writeData_unused v hr⟩
  · have hr := ppuRegion_palette.mpr h
    exact ⟨readData_palette hr, writeData_palette v hr⟩

/-! ### Store, then load (R103) -/

/-- Below the palette and the unused range a read that succeeds answers the buffer as it was (R95). -/
theorem readData_buffered {reg : Addr} {s t : State} {w : Byte} (h : s.ppuAddr.toNat ≤ 0x2FFF)
    (hok : readData reg s = .ok w t) : w = s.ppuBuf := by
  have refill {v : Option Byte} (hv : refillBuffer reg s v = .ok w t) : w = s.ppuBuf := by
    cases v with
    | none => cases hv
    | some b => cases hv; rfl
  by_cases hp : s.ppuAddr.toNat ≤ 0x1FFF
  · exact refill (readData_pattern (ppuRegion_pattern.mpr hp) ▸ hok)
  · exact refill (readData_nametable (ppuRegion_nametable.mpr ⟨by omega, h⟩) ▸ hok)

/-- The 14-bit address of which `hi` and `lo` are the two bytes, as a program writes them to 0x2006. -/
def ppuAddrOf (hi lo : Byte) : PpuAddr := BitVec.ofNat 14 (hi.toNat * 256 + lo.toNat)

/-- Two writes to 0x2006 set PPUADDR and leave everything else as it was. -/
theorem busWrite_ppuAddr_twice {s : State} {hi lo : Byte} (h : s.ppuLatchHi = true) (hhi : hi.toNat < 0x40) :
    ∃ t, busWrite 0x2006 hi s = .ok () t ∧ busWrite 0x2006 lo t = .ok () (s.setPpuAddr (ppuAddrOf hi lo)) := by
  obtain ⟨h1, h2⟩ := addressLatchTakesHighThenLow 0x2006 0x2006 hi lo s h (by decide) (by decide) (by decide) (by decide)
    (by decide) (by decide)
  refine ⟨_, h1, h2.trans ?_⟩
  rw [Nat.mod_eq_of_lt hhi, ← h]
  rfl

theorem busRead_dataPort (s : State) : busRead 0x2007 s = readData 0x2007 s :=
  busRead_dataRegister s (by decide) (by decide)

/-- A store to 0x2007 with PPUADDR in the nametables writes one VRAM cell and moves PPUADDR. -/
theorem busWrite_dataPort_nametable {s : State} {i : Nat} (v : Byte) (hr : ppuRegion s.ppuAddr = .nametable)
    (hm : mirror s.cfg.cart s.ppuAddr = some i) :
    ∃ next, busWrite 0x2007 v s = .ok () { s with vram := s.vram.write i v, ppuAddr := next } :=
  ⟨_, (busWrite_dataRegister v s (by decide) (by decide)).trans (writeData_nametable_cell v hr hm)⟩

/-- Settles O28: the store puts `v` in the cell that the second address names again, the first load takes it into the buffer
and the second answers the buffer. -/
theorem ppuStoreThenLoadReturnsByte : Obligations.PpuStoreThenLoadReturnsByte := by
  intro s hi lo v i ⟨_, hvram, _⟩ hlatch hhi1 hhi2 hm
  have hhi : hi.toNat < 0x40 := by omega
  have hr : ppuRegion (ppuAddrOf hi lo) = .nametable := by
    have hlo := lo.isLt
    rw [ppuRegion_nametable, ppuAddrOf, BitVec.toNat_ofNat]
    omega
  obtain ⟨s1, h1, h2⟩ := busWrite_ppuAddr_twice hlatch hhi
  obtain ⟨next, h3⟩ := busWrite_dataPort_nametable (s := s.setPpuAddr (ppuAddrOf hi lo)) v hr hm
  obtain ⟨s4, h4, h5⟩ := busWrite_ppuAddr_twice
    (s := { s with vram := s.vram.write i v, ppuAddr := next }) (lo := lo) hlatch hhi
  have h6 := (busRead_dataPort _).trans (readData_nametable_cell
    (s := { s with vram := s.vram.write i v, ppuAddr := ppuAddrOf hi lo }) hr hm)
  have hbuf : (s.vram.write i v).read i = v := Memory.read_write_eq hvram
  refine ⟨s1, _, _, s4, _, _, _, h1, h2, h3, h4, h5, h6, rfl, hbuf, fun w s7 h7 hle => ?_⟩
  rw [busRead_dataPort] at h7
  exact (readData_buffered hle h7).trans hbuf

end Sys2Proof.Machine
end

