-- ==== Sys2Proof/Proofs/Completion.lean ====
section
/-! Completion in RAM: the resolver, the operand accesses and every handler as equations, when all that they access lies in
RAM and the stack page is 0x0100 (`30_encoding.md` R144, R166, `20_memory.md` R64, `00_scope.md` R12). -/

namespace Sys2Proof.Machine

/-! ### The resolver and the operand accesses in RAM -/

theorem busRead_inRam {a : Addr} (s : State) (h : InRam a) : busRead a s = .ok (ramRead a s) s :=
  busRead_ram s (windowOf_ram.mpr h)

theorem busWrite_inRam {a : Addr} (v : Byte) (s : State) (h : InRam a) : busWrite a v s = .ok () (ramWrite a v s) :=
  busWrite_ram v s (windowOf_ram.mpr h)

theorem readWord_inRam {a : Addr} {s : State} (h0 : InRam a) (h1 : InRam (a + 1)) :
    readWord a s = .ok (ramWord a s) s := by
  simp only [readWord, busRead_inRam s h0, busRead_inRam s h1, Res.andThen_ok, ramWord]

theorem readPointer_inRam {p : Addr} {s : State} (h0 : InRam p) (h1 : InRam (samePageNext p)) :
    readPointer p s = .ok (hiLo (ramRead (samePageNext p) s) (ramRead p s)) s := by
  simp only [readPointer, busRead_inRam s h0, busRead_inRam s h1, Res.andThen_ok]

/-- A zero-page pointer lies in RAM, whatever its address. -/
theorem readZeroPagePointer_eq (z : Byte) (s : State) : readZeroPagePointer z s = .ok (ramPointer z s) s := by
  simp only [readZeroPagePointer, busRead_ram s (windowOf_zext16 _), Res.andThen_ok, ramPointer]

/-- The resolver answers `ramEffective` and changes nothing, when the bytes it reads lie in RAM. -/
theorem addr_inRam {m : Mode} {s : State} (hm : m ≠ .accumulator ∧ m ≠ .noneAddressing) (h : ResolvesInRam m s) :
    addr m s = .ok (ramEffective m s) s := by
  obtain ⟨h0, h1, hptr⟩ := h
  have hbyte := busRead_inRam s h0
  have hword := readWord_inRam (s := s) h0 h1
  cases m
  case accumulator => exact absurd rfl hm.1
  case noneAddressing => exact absurd rfl hm.2
  case immediate => rfl
  case zeroPage | zeroPageX | zeroPageY | relative => simp only [addr, hbyte, Res.andThen_ok, ramEffective]
  case absolute | absoluteX | absoluteY => simp only [addr, hword, Res.andThen_ok, ramEffective]
  case indirect =>
    obtain ⟨hp0, hp1⟩ := hptr rfl
    simp only [addr, hword, readPointer_inRam hp0 hp1, Res.andThen_ok, ramEffective]
  case indirectX | indirectY =>
    simp only [addr, hbyte, readZeroPagePointer_eq, Res.andThen_ok, ramEffective]

section OperandInRam

variable {m : Mode} {s : State}

theorem readOperand_inRam (haddr : addr m s = .ok (ramEffective m s) s) (h : InRam (ramEffective m s)) :
    readOperand m s = .ok (ramRead (ramEffective m s) s) s := by
  rw [readOperand, haddr, Res.andThen_ok, busRead_inRam s h]

theorem writeOperand_inRam (v : Byte) (haddr : addr m s = .ok (ramEffective m s) s) (h : InRam (ramEffective m s)) :
    writeOperand m v s = .ok () (ramWrite (ramEffective m s) v s) := by
  rw [writeOperand, haddr, Res.andThen_ok, busWrite_inRam v s h]

theorem modifyOperand_inRam (f : Byte → Byte) (haddr : addr m s = .ok (ramEffective m s) s)
    (h : InRam (ramEffective m s)) :
    modifyOperand m f s =
      .ok (ramRead (ramEffective m s) s) (ramWrite (ramEffective m s) (f (ramRead (ramEffective m s) s)) s) := by
  simp only [modifyOperand, haddr, Res.andThen_ok, busRead_inRam s h, busWrite_inRam _ s h]

end OperandInRam

/-! ### Handlers -/

/-- A handler completes: it answers a next state. -/
def Completes (r : Result) : Prop := ∃ t, r = .next t

theorem completes_next (s : State) : Completes (.next s) := ⟨s, rfl⟩

theorem completes_run {α : Type} {r : Res α} {v : α} {s : State} (h : r = .ok v s) (k : α → State → State) :
    Completes (r.run k) :=
  ⟨k v s, by rw [h, Res.run_ok]⟩

theorem branchIf_completes {s : State} {target : Addr} (cond : Bool) (h : addr .relative s = .ok target s) :
    Completes (branchIf cond s) := by
  unfold branchIf
  split
  · exact completes_run h _
  · exact completes_next s

theorem shiftForm_completes {m : Mode} {f : Byte → Byte × Bool} {s : State}
    (h : m ≠ .accumulator → ∃ v t, modifyOperand m (fun v => (f v).1) s = .ok v t) : Completes (shiftForm m f s) := by
  unfold shiftForm
  split
  · exact completes_next _
  · obtain ⟨v, t, hok⟩ := h ‹_›
    exact completes_run hok _

theorem execJsr_completes {s : State} {target : Addr} (hstack : s.cfg.stackBase = 0x0100)
    (h : addr .absolute s = .ok target s) : Completes (execJsr s) := by
  rw [execJsr, h, Res.andThen_ok, push16_cells _ hstack]
  exact completes_next _

theorem execRti_completes {s : State} (hstack : s.cfg.stackBase = 0x0100) : Completes (execRti s) := by
  rw [execRti, pop_ram hstack, Res.andThen_ok]
  refine completes_run (pop16_cells ?_) _
  exact hstack

/-- A well-formed instruction that accesses its operand has a mode the resolver resolves. -/
theorem instrMode_of_accessesOperand {i : Instr} (hwf : i.wf = true) (ha : accessesOperand i = true) :
    instrMode i ≠ .accumulator ∧ instrMode i ≠ .noneAddressing := by
  cases i
  case sbcAlias => decide
  case asl | lsr | rol | ror =>
    exact ⟨of_decide_eq_true ha, fun hm => by cases hm; exact absurd hwf (by decide)⟩
  case lda | ldx | ldy | sta | stx | sty | adc | sbc | and | ora | eor | cmp | cpx | cpy | bit | inc | dec
      | lax | sax | dcp | isb | slo | rla | sre | rra =>
    constructor <;> (intro hm; cases hm; exact absurd hwf (by decide))
  case tax | tay | txa | tya | tsx | txs | inx | iny | dex | dey | bcc | bcs | beq | bne | bmi | bpl | bvc | bvs | jmp
      | jsr | rts | rti | pha | pla | php | plp | clc | sec | cli | sei | cld | sed | clv | nop | nopAlias | brk =>
    cases ha

theorem jmp_wf {m : Mode} (h : (Instr.jmp m).wf = true) : m = .absolute ∨ m = .indirect := by
  simpa [Instr.wf, Instr.modes] using h

/-- Settles O20: every access of the handler is one of those above, which all answer. -/
theorem everyInstructionCompletesInRam : Obligations.EveryInstructionCompletesInRam := by
  intro i s hwf hstack hres hop
  have haddr (ha : accessesOperand i = true) := addr_inRam (instrMode_of_accessesOperand hwf ha) hres
  have hread (ha : accessesOperand i = true) := readOperand_inRam (haddr ha) (hop ha)
  have hwrite (v : Byte) (ha : accessesOperand i = true) := writeOperand_inRam v (haddr ha) (hop ha)
  have hmodify (f : Byte → Byte) (ha : accessesOperand i = true) := modifyOperand_inRam f (haddr ha) (hop ha)
  show Completes (exec i s)
  cases i
  case lda | ldx | ldy | adc | sbc | and | ora | eor | cmp | cpx | cpy | bit | sbcAlias | lax =>
    exact completes_run (hread rfl) _
  case sta | stx | sty | sax => exact completes_run (hwrite _ rfl) _
  case inc | dec | dcp | isb | slo | rla | sre | rra => exact completes_run (hmodify _ rfl) _
  case asl | lsr | rol | ror =>
    exact shiftForm_completes fun hm => ⟨_, _, hmodify _ (decide_eq_true hm)⟩
  case bcc | bcs | beq | bne | bmi | bpl | bvc | bvs =>
    exact branchIf_completes _ (addr_inRam (m := .relative) (by decide) hres)
  case jmp m =>
    have hm : m ≠ .accumulator ∧ m ≠ .noneAddressing := by
      obtain rfl | rfl := jmp_wf hwf <;> decide
    exact completes_run (addr_inRam hm hres) _
  case jsr => exact execJsr_completes hstack (addr_inRam (m := .absolute) (by decide) hres)
  case rts => exact completes_run (pop16_cells hstack) _
  case rti => exact execRti_completes hstack
  case pha | php => exact completes_run (push_ram _ hstack) _
  case pla | plp => exact completes_run (pop_ram hstack) _
  case tax | tay | txa | tya | tsx | txs | inx | iny | dex | dey | clc | sec | cli | sei | cld | sed | clv
      | nop | nopAlias | brk =>
    exact completes_next _

end Sys2Proof.Machine
end

