-- ==== Sys2Proof/Proofs/Loader.lean ====
section
/-! The cartridge loader (`20_memory.md` R80 to R90): its checks in order, and the slices of a buffer that passes them. -/

namespace Sys2Proof.Machine

/-! ### The header fields as numbers -/

/-- The mapper id is the high nibble of byte 7 above the high nibble of byte 6 (R83). -/
theorem mapperOf_eq (b6 b7 : Byte) : mapperOf b6 b7 = BitVec.ofNat 8 (b7.toNat / 16 * 16 + b6.toNat / 16) := by
  have h6 := b6.isLt
  have hmask : b7 &&& (0xF0 : Byte) = (b7 >>> 4) <<< 4 := by
    apply BitVec.eq_of_getLsbD_eq
    intro i hi
    interval_cases i <;> simp
  have hhigh : (b7 &&& (0xF0 : Byte)).toNat = (b7.toNat / 16) <<< 4 := by
    rw [hmask]
    simp only [BitVec.toNat_shiftLeft, BitVec.toNat_ushiftRight, Nat.shiftRight_eq_div_pow, Nat.shiftLeft_eq]
    omega
  have hlow : (b6 >>> 4).toNat = b6.toNat / 16 := by
    rw [BitVec.toNat_ushiftRight, Nat.shiftRight_eq_div_pow]
  apply BitVec.eq_of_toNat_eq
  rw [mapperOf, BitVec.toNat_or, hhigh, hlow, ← Nat.shiftLeft_add_eq_or_of_lt (by omega), Nat.shiftLeft_eq,
    BitVec.toNat_ofNat]
  omega

theorem mapperOf_eq_zero {b6 b7 : Byte} : mapperOf b6 b7 = 0 ↔ b7.toNat / 16 * 16 + b6.toNat / 16 = 0 := by
  have h6 := b6.isLt
  have h7 := b7.isLt
  rw [mapperOf_eq, BitVec.ofNat_eq_ofNat, ← BitVec.toNat_inj, BitVec.toNat_ofNat, BitVec.toNat_zero]
  omega

/-- The version is bits 3:2 of byte 7 (R84). -/
theorem versionOf_eq (b7 : Byte) : versionOf b7 = BitVec.ofNat 2 (b7.toNat / 4 % 4) := by
  apply BitVec.eq_of_toNat_eq
  rw [versionOf, BitVec.extractLsb'_toNat, Nat.shiftRight_eq_div_pow, BitVec.toNat_ofNat]
  omega

theorem versionOf_eq_zero {b7 : Byte} : versionOf b7 = 0 ↔ b7.toNat / 4 % 4 = 0 := by
  rw [versionOf_eq, BitVec.ofNat_eq_ofNat, ← BitVec.toNat_inj, BitVec.toNat_ofNat, BitVec.toNat_zero]
  omega

/-! ### The loader -/

theorem parseCartridge_badMagic {buf : List Byte} (h : buf.take 4 ≠ inesMagic) :
    parseCartridge buf = .error (.invalidFormat .badMagic) :=
  if_pos h

theorem parseCartridge_short {buf : List Byte} (h : buf.take 4 = inesMagic) (hlen : buf.length < 8) :
    parseCartridge buf = .error (.invalidFormat .sliceOutOfRange) := by
  have hdrop : (buf.drop 4).length < 4 := by
    rw [List.length_drop]
    omega
  rw [parseCartridge, if_neg (not_not.mpr h)]
  split
  · next hb =>
    rw [hb] at hdrop
    simp only [List.length_cons] at hdrop
    omega
  · rfl

/-- A buffer with the magic tag and the four header bytes the loader reads, then anything (R81). -/
abbrev inesBuffer (b4 b5 b6 b7 : Byte) (rest : List Byte) : List Byte :=
  0x4E :: 0x45 :: 0x53 :: 0x1A :: b4 :: b5 :: b6 :: b7 :: rest

/-- Past the magic and the length, the checks of the header and then the slices. -/
theorem parseCartridge_header (b4 b5 b6 b7 : Byte) (rest : List Byte) :
    parseCartridge (inesBuffer b4 b5 b6 b7 rest) =
      if mapperOf b6 b7 ≠ 0 then .error (.unsupportedMapper (mapperOf b6 b7))
      else if versionOf b7 ≠ 0 then .error (.invalidFormat (.badVersion (versionOf b7)))
      else sliceCartridge (inesBuffer b4 b5 b6 b7 rest) b4 b5 b6 :=
  if_neg (not_not.mpr rfl)

/-- A header that passes its checks leaves the slices. -/
theorem parseCartridge_sliced {b4 b5 b6 b7 : Byte} (rest : List Byte) (hm : mapperOf b6 b7 = 0) (hv : versionOf b7 = 0) :
    parseCartridge (inesBuffer b4 b5 b6 b7 rest) =
      sliceCartridge (inesBuffer b4 b5 b6 b7 rest) b4 b5 b6 := by
  rw [parseCartridge_header, if_neg (not_not.mpr hm), if_neg (not_not.mpr hv)]

theorem sliceCartridge_short {buf : List Byte} {b4 b5 b6 : Byte}
    (h : buf.length < prgStart b6 + b4.toNat * 16384 + b5.toNat * 8192) :
    sliceCartridge buf b4 b5 b6 = .error (.invalidFormat .sliceOutOfRange) :=
  if_pos h

theorem sliceCartridge_eq_ok {buf : List Byte} {b4 b5 b6 : Byte} {c : Cartridge} :
    sliceCartridge buf b4 b5 b6 = .ok c ↔
      prgStart b6 + b4.toNat * 16384 + b5.toNat * 8192 ≤ buf.length ∧
      c = { prg := (buf.drop (prgStart b6)).take (b4.toNat * 16384)
            chr := (buf.drop (prgStart b6 + b4.toNat * 16384)).take (b5.toNat * 8192)
            mapper := 0
            mirroring := mirroringOf b6 } := by
  rw [sliceCartridge]
  split
  · next h => simp only [reduceCtorEq, false_iff, not_and]; omega
  · next h => simp only [Except.ok.injEq, Nat.not_lt.mp h, true_and, eq_comm]

/-- Settles O57: the header fields as numbers, then one equation per outcome. -/
theorem loaderRejectsInOrder : Obligations.LoaderRejectsInOrder := by
  intro buf
  refine ⟨parseCartridge_badMagic, parseCartridge_short, ?_⟩
  rintro b4 b5 b6 b7 rest rfl
  dsimp only
  rw [← mapperOf_eq, ← versionOf_eq, ne_eq, ne_eq, ← mapperOf_eq_zero, ← versionOf_eq_zero]
  refine ⟨fun hm => ?_, fun hm hv => ?_, fun hm hv hlen => ?_, fun hm hv hlen => ?_⟩
  · rw [parseCartridge_header, if_pos hm]
  · rw [parseCartridge_header, if_neg (not_not.mpr hm), if_pos hv]
  · rw [parseCartridge_sliced rest hm hv]
    exact sliceCartridge_short hlen
  · rw [parseCartridge_sliced rest hm hv]
    exact ⟨_, sliceCartridge_eq_ok.mpr ⟨hlen, rfl⟩⟩

/-- A buffer that parses has passed the header's checks, and the value is its slices. -/
theorem sliceCartridge_of_parseCartridge {b4 b5 b6 b7 : Byte} {rest : List Byte} {c : Cartridge}
    (h : parseCartridge (inesBuffer b4 b5 b6 b7 rest) = .ok c) :
    sliceCartridge (inesBuffer b4 b5 b6 b7 rest) b4 b5 b6 = .ok c := by
  rw [parseCartridge_header] at h
  split_ifs at h
  exact h

/-- A slice that lies in the buffer has its length, and its byte `k` is the buffer's byte `start + k`. -/
theorem slice_spec {α : Type} {buf : List α} {start size : Nat} (h : start + size ≤ buf.length) :
    ((buf.drop start).take size).length = size ∧
      ∀ k, k < size → ((buf.drop start).take size)[k]? = buf[start + k]? := by
  constructor
  · rw [List.length_take, List.length_drop]
    omega
  · intro k hk
    rw [List.getElem?_take_of_lt hk, List.getElem?_drop]

/-- Sizes of 255 units at most, and mapper 0, are what the invariant asks of a cartridge (`10_state.md` R38). -/
theorem cartOk_of_sizes {c : Cartridge} (b4 b5 : Byte) (hprg : c.prg.length = b4.toNat * 16384)
    (hchr : c.chr.length = b5.toNat * 8192) (hmapper : c.mapper = 0) : cartOk (some c) = true := by
  have h4 := b4.isLt
  have h5 := b5.isLt
  simp only [cartOk, Bool.and_eq_true, decide_eq_true_eq, hprg, hchr]
  refine ⟨⟨⟨⟨?_, ?_⟩, ?_⟩, ?_⟩, hmapper⟩ <;> omega

/-- Settles O58: the two slices lie in the buffer, one after the other. -/
theorem loaderSlicesTheBuffer : Obligations.LoaderSlicesTheBuffer := by
  intro b4 b5 b6 b7 rest c
  dsimp only
  intro h
  obtain ⟨hlen, rfl⟩ := sliceCartridge_eq_ok.mp (sliceCartridge_of_parseCartridge h)
  obtain ⟨hprgLen, hprg⟩ := slice_spec (Nat.le_of_add_right_le hlen)
  obtain ⟨hchrLen, hchr⟩ := slice_spec hlen
  refine ⟨hprgLen, hchrLen, fun k hk => hprg k (hprgLen ▸ hk), fun k hk => ?_, rfl, rfl,
    cartOk_of_sizes b4 b5 hprgLen hchrLen rfl⟩
  rw [hprgLen]
  exact hchr k (hchrLen ▸ hk)

end Sys2Proof.Machine
end

