-- ==== Sys2Proof/Proofs/Encoding.lean ====
section
/-! The decoder and the encoder as inverses of each other (`30_encoding.md` R141, R142, R158 to R161), and the classes of
opcode bytes (R167). -/

namespace Sys2Proof

/-! ### The table -/

/-- A search of the table that only rows with the byte of `e` satisfy finds `e`. -/
theorem find?_opcodeTable {e : Entry} {p : Entry → Bool} (he : e ∈ opcodeTable) (hp : p e = true)
    (honly : ∀ d, p d = true → d.opcode = e.opcode) : opcodeTable.find? p = some e := by
  cases hf : opcodeTable.find? p with
  | none => exact absurd hp (List.find?_eq_none.mp hf e he)
  | some d => rw [entry_eq_of_opcode (List.mem_of_find?_eq_some hf) he (honly d (List.find?_some hf))]

/-- The lookup answers the row with the byte when the level registers it (`45_undocumented.md` R270). -/
theorem lookup_eq_some {level : UndocLevel} {op : Byte} {e : Entry} :
    lookup level op = some e ↔ e ∈ opcodeTable ∧ e.opcode = op ∧ e.level ≤ level := by
  constructor
  · intro h
    have hp := List.find?_some h
    simp only [Bool.and_eq_true, beq_iff_eq, decide_eq_true_eq] at hp
    exact ⟨List.mem_of_find?_eq_some h, hp⟩
  · rintro ⟨he, rfl, hl⟩
    exact find?_opcodeTable he (by simpa using hl) (by simp +contextual)

theorem minLevel_entry {e : Entry} (he : e ∈ opcodeTable) : minLevel e.opcode = e.level := by
  rw [minLevel, find?_opcodeTable he (by simp) (by simp)]

/-- The halt byte is no row of the table (R163). -/
theorem entry_opcode_ne_halt : ∀ e ∈ opcodeTable, e.opcode ≠ 0x00 := by decide +kernel

theorem decodeOpcode_halt (level : UndocLevel) : decodeOpcode level 0x00 = some .brk := rfl

/-- The byte of a row selects the row's instruction exactly from the row's level up. -/
theorem decodeOpcode_entry {e : Entry} (he : e ∈ opcodeTable) (level : UndocLevel) :
    decodeOpcode level e.opcode = if e.level ≤ level then some e.instr else none := by
  rw [decodeOpcode, if_neg (entry_opcode_ne_halt e he)]
  split_ifs with hl
  · rw [lookup_eq_some.mpr ⟨he, rfl, hl⟩, Option.map_some]
  · rw [Option.map_eq_none_iff, Option.eq_none_iff_forall_ne_some]
    intro d hd
    obtain ⟨hmem, hop, hdl⟩ := lookup_eq_some.mp hd
    exact hl (entry_eq_of_opcode hmem he hop ▸ hdl)

/-- A byte that selects an instruction at some level is the halt byte or the byte of a row. -/
theorem decodeOpcode_origin {level : UndocLevel} {op : Byte} {i : Instr} (h : decodeOpcode level op = some i) :
    op = 0x00 ∨ ∃ e ∈ opcodeTable, e.opcode = op := by
  unfold decodeOpcode at h
  split at h
  · exact .inl ‹_›
  · obtain ⟨e, he, -⟩ := Option.map_eq_some_iff.mp h
    obtain ⟨hmem, hop, -⟩ := lookup_eq_some.mp he
    exact .inr ⟨e, hmem, hop⟩

/-- What a byte selects at level 2 it selects from its least level up. -/
theorem decodeOpcode_of_minLevel_le {level : UndocLevel} {op : Byte} {i : Instr} (h : decodeOpcode 2 op = some i)
    (hl : minLevel op ≤ level) : decodeOpcode level op = some i := by
  obtain rfl | ⟨e, he, rfl⟩ := decodeOpcode_origin h
  · exact h
  · rw [minLevel_entry he] at hl
    have h2 : e.level ≤ 2 := Fin.le_last e.level
    rw [decodeOpcode_entry he, if_pos h2] at h
    rw [decodeOpcode_entry he, if_pos hl, h]

/-! ### Opcode byte and instruction -/

/-- The round trip of the opcode byte for every instruction, from the one per mnemonic. -/
theorem Laws.RoundTrip.statement : ∀ i : Instr, Laws.RoundTrip.Statement i
  | .lda m => lda m | .ldx m => ldx m | .ldy m => ldy m | .sta m => sta m | .stx m => stx m | .sty m => sty m
  | .tax => tax | .tay => tay | .txa => txa | .tya => tya | .tsx => tsx | .txs => txs
  | .adc m => adc m | .sbc m => sbc m | .and m => and m | .ora m => ora m | .eor m => eor m
  | .cmp m => cmp m | .cpx m => cpx m | .cpy m => cpy m | .bit m => bit m | .inc m => inc m | .dec m => dec m
  | .inx => inx | .iny => iny | .dex => dex | .dey => dey
  | .asl m => asl m | .lsr m => lsr m | .rol m => rol m | .ror m => ror m
  | .bcc => bcc | .bcs => bcs | .beq => beq | .bne => bne | .bmi => bmi | .bpl => bpl | .bvc => bvc | .bvs => bvs
  | .jmp m => jmp m | .jsr => jsr | .rts => rts | .rti => rti
  | .pha => pha | .pla => pla | .php => php | .plp => plp
  | .clc => clc | .sec => sec | .cli => cli | .sei => sei | .cld => cld | .sed => sed | .clv => clv
  | .nop => nop | .brk => brk | .nopAlias op => nopAlias op | .sbcAlias => sbcAlias
  | .lax m => lax m | .sax m => sax m | .dcp m => dcp m | .isb m => isb m
  | .slo m => slo m | .rla m => rla m | .sre m => sre m | .rra m => rra m

/-- A well-formed instruction has an opcode byte, which selects it from its least level up. -/
theorem opcodeOf_of_wf {i : Instr} (h : i.wf = true) :
    ∃ op, opcodeOf i = some op ∧ ∀ level, minLevel op ≤ level → decodeOpcode level op = some i := by
  obtain ⟨op, hop, hdec⟩ := Option.bind_eq_some_iff.mp (Laws.RoundTrip.statement i h)
  exact ⟨op, hop, fun level => decodeOpcode_of_minLevel_le hdec⟩

/-! ### Byte listings -/

theorem Code.wf_iff {c : Code} : c.wf = true ↔ c.instr.wf = true ∧ c.operand.length + 1 = instrLength c.instr := by
  simp [Code.wf]

/-- What decodes is an opcode byte that selects the instruction, its operand bytes, as many as the length asks for, and the
rest (R141, R142). -/
theorem decode_eq_ok {level : UndocLevel} {bytes rest : List Byte} {c : Code} :
    decode level bytes = .ok (c, rest) ↔ ∃ op, bytes = op :: c.operand ++ rest ∧
      decodeOpcode level op = some c.instr ∧ c.operand.length + 1 = instrLength c.instr := by
  constructor
  · intro h
    unfold decode at h
    split at h
    · cases h
    · next op tail =>
      split at h
      · cases h
      · next i hdec =>
        split_ifs at h with hlen
        cases h
        refine ⟨op, by simp, hdec, ?_⟩
        rw [List.length_take_of_le hlen, Nat.sub_add_cancel (one_le_instrLength i)]
  · rintro ⟨op, rfl, hdec, hlen⟩
    have hoperand : instrLength c.instr - 1 = c.operand.length := by omega
    simp [decode, hdec, hoperand]

/-- Settles O7: the opcode byte of the instruction selects it, and the operand bytes have the instruction's length. -/
theorem decodeOfEncodeGivesInstructionBack : Obligations.DecodeOfEncodeGivesInstructionBack := by
  intro c rest hwf
  obtain ⟨hinstr, hlen⟩ := Code.wf_iff.mp hwf
  obtain ⟨op, hop, hdec⟩ := opcodeOf_of_wf hinstr
  refine ⟨op, by rw [encode, hop, Option.map_some], fun level hl => ?_⟩
  exact decode_eq_ok.mpr ⟨op, rfl, hdec level hl, hlen⟩

/-- Settles O8: the byte that selects an instruction is that instruction's opcode byte. -/
theorem decodedBytesEncodeBack : Obligations.DecodedBytesEncodeBack := by
  intro level bytes rest c h
  obtain ⟨op, hbytes, hdec, hlen⟩ := decode_eq_ok.mp h
  obtain ⟨hinstr, hop, hl⟩ := decodeOpcode_inv hdec
  exact ⟨Code.wf_iff.mpr ⟨hinstr, hlen⟩, op, by rw [encode, hop, Option.map_some], hbytes, hl⟩

/-! ### Classes of opcode bytes -/

theorem aliases_subset {e : Entry} (he : e ∈ tableAliases) : e ∈ opcodeTable :=
  List.mem_append_left _ (List.mem_append_right _ he)

theorem nopAlias_entry {op : Byte} (h : op ∈ nopAliasBytes) : (⟨op, .nopAlias op, 1⟩ : Entry) ∈ opcodeTable := by
  obtain ⟨c, hc, rfl⟩ : ∃ c ∈ nopAliasModes, c.1 = op := List.mem_map.mp h
  exact aliases_subset (List.mem_append_left _ (List.mem_map_of_mem hc))

theorem sbcAlias_entry : (⟨0xEB, .sbcAlias, 1⟩ : Entry) ∈ opcodeTable :=
  aliases_subset (List.mem_append_right _ List.mem_cons_self)

theorem combined_level : ∀ e ∈ tableCombined, e.level = 2 := by decide

/-- A byte registered from level 1 on is unknown at level 0 and selects the same instruction at levels 1 and 2. -/
theorem decodeOpcode_levelOne {op : Byte} {i : Instr} (he : (⟨op, i, 1⟩ : Entry) ∈ opcodeTable) :
    decodeOpcode 0 op = none ∧ decodeOpcode 1 op = some i ∧ decodeOpcode 2 op = some i :=
  ⟨decodeOpcode_entry he 0, decodeOpcode_entry he 1, decodeOpcode_entry he 2⟩

/-- A byte registered at level 2 only is unknown at levels 0 and 1. -/
theorem decodeOpcode_levelTwo {op : Byte} {i : Instr} (he : (⟨op, i, 2⟩ : Entry) ∈ opcodeTable) :
    decodeOpcode 0 op = none ∧ decodeOpcode 1 op = none ∧ decodeOpcode 2 op = some i :=
  ⟨decodeOpcode_entry he 0, decodeOpcode_entry he 1, decodeOpcode_entry he 2⟩

/-- A byte that is unknown at level 2 is unknown at every level. -/
theorem decodeOpcode_eq_none {op : Byte} (h : decodeOpcode 2 op = none) (level : UndocLevel) :
    decodeOpcode level op = none :=
  Option.eq_none_iff_forall_ne_some.mpr fun i hi => by simp [(decodeOpcode_level hi).1] at h

/-- The bytes the table registers at a level. -/
def registeredBytes (level : UndocLevel) : List Byte :=
  (opcodeTable.filter fun e => decide (e.level ≤ level)).map Entry.opcode

theorem registeredBytes_nodup (level : UndocLevel) : (registeredBytes level).Nodup :=
  opcodeTable_distinct.sublist (List.filter_sublist.map Entry.opcode)

/-- The bytes known at a level are the halt byte and the bytes registered there. -/
theorem decodeOpcode_isSome_iff {level : UndocLevel} {op : Byte} :
    (decodeOpcode level op).isSome = true ↔ op ∈ 0x00 :: registeredBytes level := by
  simp only [registeredBytes, List.mem_cons, List.mem_map, List.mem_filter, decide_eq_true_eq]
  constructor
  · intro h
    obtain ⟨i, hi⟩ := Option.isSome_iff_exists.mp h
    obtain h0 | ⟨e, he, rfl⟩ := decodeOpcode_origin hi
    · exact .inl h0
    · rw [decodeOpcode_entry he] at hi
      split_ifs at hi with hl
      exact .inr ⟨e, ⟨he, hl⟩, rfl⟩
  · rintro (rfl | ⟨e, ⟨he, hl⟩, rfl⟩)
    · rfl
    · rw [decodeOpcode_entry he, if_pos hl, Option.isSome_some]

/-- One byte is known at a level for each row registered there, and the halt byte. -/
theorem knownBytes_length (level : UndocLevel) :
    ((List.range 256).filter fun k => (decodeOpcode level (BitVec.ofNat 8 k)).isSome).length =
      (registeredBytes level).length + 1 := by
  have hnodup : (0x00 :: registeredBytes level).Nodup := by
    refine List.nodup_cons.mpr ⟨fun h => ?_, registeredBytes_nodup level⟩
    obtain ⟨e, he, h0⟩ := List.mem_map.mp h
    exact entry_opcode_ne_halt e (List.mem_of_mem_filter he) h0
  have hperm : ((List.range 256).filter fun k => (decodeOpcode level (BitVec.ofNat 8 k)).isSome).Perm
      ((0x00 :: registeredBytes level).map BitVec.toNat) := by
    refine (List.perm_ext_iff_of_nodup (List.nodup_range.filter _)
      (hnodup.map fun _ _ => BitVec.eq_of_toNat_eq)).mpr fun k => ?_
    rw [List.mem_filter, List.mem_range, decodeOpcode_isSome_iff, List.mem_map]
    constructor
    · rintro ⟨hk, hmem⟩
      exact ⟨_, hmem, by rw [BitVec.toNat_ofNat, Nat.mod_eq_of_lt hk]⟩
    · rintro ⟨op, hmem, rfl⟩
      exact ⟨op.isLt, by rwa [BitVec.ofNat_toNat, BitVec.setWidth_eq]⟩
  rw [hperm.length_eq, List.length_map, List.length_cons]

/-- Settles O9: the aliases and the combined operations by the level of their rows, the counts by the rows registered at
each level. -/
theorem opcodeBytesAreClassified : Obligations.OpcodeBytesAreClassified := by
  refine ⟨decodeOpcode_halt, fun level op hop => ?_, fun op hop => decodeOpcode_levelOne (nopAlias_entry hop),
    decodeOpcode_levelOne sbcAlias_entry, fun ⟨op, i, level⟩ he => ?_, ?_, ?_, ?_⟩
  · refine decodeOpcode_eq_none ?_ level
    revert op
    decide
  · obtain rfl : level = 2 := combined_level _ he
    exact decodeOpcode_levelTwo (List.mem_append_right _ he)
  · rw [knownBytes_length]; rfl
  · rw [knownBytes_length]; rfl
  · rw [knownBytes_length]; rfl

/-- Settles O11: each word is one run of the decoder. -/
theorem writtenOutWordsDecode : Obligations.WrittenOutWordsDecode :=
  ⟨rfl, rfl, rfl, rfl, rfl, rfl, rfl, rfl, rfl, rfl, rfl, rfl⟩

end Sys2Proof
end

