-- ==== Sys2Proof/Proofs/StepDecode.lean ====
section
/-! The step by the byte it fetches (`30_encoding.md` R162 to R164), and that no step raises ResolverMisuse (R155). -/

namespace Sys2Proof.Machine

/-! ### The step by the fetched byte -/

theorem step_running {s : State} (hrun : s.run = .running) : step s = stepRunning s := by
  simp only [step, hrun]

/-- A fault of the fetch is the step's (R162). -/
theorem step_fetchFault {s : State} {f : Fault} (hrun : s.run = .running) (hread : busRead s.pc s = .fault f) :
    step s = .fault f := by
  simp only [step_running hrun, stepRunning, fetchOpcode_eq, hread, Res.andThen_fault]

section Fetched

variable {s t : State} {op : Byte} (hrun : s.run = .running) (hread : busRead s.pc s = .ok op t)
include hrun hread

/-- A fetched byte that selects nothing is UnknownOpcode with the byte and its address (R163). -/
theorem step_unknown (hdec : decodeOpcode s.cfg.undoc op = none) : step s = .fault (.unknownOpcode op s.pc) := by
  have hcfg : t.cfg = s.cfg := (busRead_onlyReads hread).kept.cfg
  simp only [step_running hrun, stepRunning, fetchOpcode_eq, hread, Res.andThen_ok, hcfg, hdec]

/-- A fetched byte that selects an instruction has it executed with PC one past the byte (R164). -/
theorem step_decoded {i : Instr} (hdec : decodeOpcode s.cfg.undoc op = some i) :
    step s = executeOpcode i { t with pc := s.pc + 1 } := by
  have hcfg : t.cfg = s.cfg := (busRead_onlyReads hread).kept.cfg
  simp only [step_running hrun, stepRunning, fetchOpcode_eq, hread, Res.andThen_ok, hcfg, hdec]

end Fetched

theorem executeOpcode_next {i : Instr} {s t : State} (h : exec i s = .next t) :
    executeOpcode i s = .next (advancePc i s.pc t) := by
  rw [executeOpcode, h, mapNext]

theorem executeOpcode_fault {i : Instr} {s : State} {f : Fault} (h : exec i s = .fault f) :
    executeOpcode i s = .fault f := by
  rw [executeOpcode, h, mapNext]

/-- The halt is one byte long, so the PC advance leaves PC one past it (R163). -/
theorem executeOpcode_brk (s : State) : executeOpcode .brk s = .next (takeHalt s) := by
  have hpc : s.setPc (s.pc + BitVec.ofNat 16 (instrLength .brk - 1)) = s :=
    congrArg s.setPc (BitVec.add_zero s.pc)
  rw [executeOpcode_next (t := takeHalt s) rfl, advancePc_takeHalt, advancePc, if_pos rfl, hpc]

/-- Settles O12: `executeOpcode` is `exec` and then the equality test on PC. -/
theorem stepRunsDecodedInstruction : Obligations.StepRunsDecodedInstruction := by
  intro s t op i hrun hread hdec
  rw [step_decoded hrun hread hdec]
  exact ⟨fun u h => executeOpcode_next h, fun f h => executeOpcode_fault h⟩

/-- Settles O13: the fetch decides, then the byte, of which 0x00 is the halt at every level. -/
theorem stepTestsHaltThenLooksUp : Obligations.StepTestsHaltThenLooksUp := by
  intro s hrun
  refine ⟨fun f => step_fetchFault hrun, fun t hread => ?_, fun op t => step_unknown hrun⟩
  have hflags : t.flags = s.flags := by rw [busRead_onlyReads hread]
  refine ⟨_, rfl, ?_, rfl⟩
  rw [step_decoded hrun hread (decodeOpcode_halt _), executeOpcode_brk, ← hflags]
  rfl

/-! ### The faults of a handler and of a step -/

/-- A fault that a Bus access raises: an AddressFault or a ReadOnlyViolation (`60_exceptions.md` R300, codes 3 and 4). -/
def IsBusFault (f : Fault) : Prop := faultCode f = 3 ∨ faultCode f = 4

/-- Every fault of the operation is one that a Bus access raises. -/
def FaultsOnBus {α : Type} (r : Res α) : Prop := ∀ f, r = .fault f → IsBusFault f

theorem IsReadFault.isBusFault {f : Fault} (h : IsReadFault f) : IsBusFault f := by
  obtain ⟨a, rfl⟩ | ⟨r, a, rfl⟩ := h <;> exact .inl rfl

section Results

variable {α β : Type}

theorem faultsOnBus_ok (v : α) (s : State) : FaultsOnBus (.ok v s) := fun _ h => nomatch h

theorem FaultsOnBus.andThen {r : Res α} {k : α → State → Res β} (hr : FaultsOnBus r)
    (hk : ∀ v t, FaultsOnBus (k v t)) : FaultsOnBus (r.andThen k) := by
  intro f h
  obtain h | ⟨v, t, -, h⟩ := Res.andThen_eq_fault.mp h
  · exact hr f h
  · exact hk v t f h

theorem FaultsOnBus.run {r : Res α} {k : α → State → State} {f : Fault} (hr : FaultsOnBus r)
    (h : r.run k = .fault f) : IsBusFault f :=
  hr f (Res.run_eq_fault.mp h)

end Results

theorem busRead_faultsOnBus (a : Addr) (s : State) : FaultsOnBus (busRead a s) :=
  fun _ h => (busRead_isReadFault h).isBusFault

theorem busWrite_faultsOnBus (a : Addr) (v : Byte) (s : State) : FaultsOnBus (busWrite a v s) := by
  intro f h
  obtain rfl | rfl | rfl | rfl := busWrite_fault h
  · exact .inl rfl
  · exact .inl rfl
  · exact .inr rfl
  · exact .inr rfl

/-- A mode that the resolver resolves (R155: all but Accumulator and NoneAddressing). -/
def Resolvable (m : Mode) : Prop := m ≠ .accumulator ∧ m ≠ .noneAddressing

theorem addr_faultsOnBus {m : Mode} (hm : Resolvable m) (s : State) : FaultsOnBus (addr m s) := by
  intro f h
  obtain h | ⟨rfl | rfl, -⟩ := addr_fault h
  · exact h.isBusFault
  · exact absurd rfl hm.1
  · exact absurd rfl hm.2

theorem readOperand_faultsOnBus {m : Mode} (hm : Resolvable m) (s : State) : FaultsOnBus (readOperand m s) :=
  (addr_faultsOnBus hm s).andThen busRead_faultsOnBus

theorem writeOperand_faultsOnBus {m : Mode} (hm : Resolvable m) (v : Byte) (s : State) :
    FaultsOnBus (writeOperand m v s) :=
  (addr_faultsOnBus hm s).andThen fun a => busWrite_faultsOnBus a v

theorem modifyOperand_faultsOnBus {m : Mode} (hm : Resolvable m) (f : Byte → Byte) (s : State) :
    FaultsOnBus (modifyOperand m f s) :=
  (addr_faultsOnBus hm s).andThen fun a t => (busRead_faultsOnBus a t).andThen fun v u =>
    (busWrite_faultsOnBus a (f v) u).andThen fun _ => faultsOnBus_ok v

theorem push_faultsOnBus (v : Byte) (s : State) : FaultsOnBus (push v s) :=
  (busWrite_faultsOnBus _ v s).andThen fun _ _ => faultsOnBus_ok _ _

theorem push16_faultsOnBus (v : Addr) (s : State) : FaultsOnBus (push16 v s) :=
  (push_faultsOnBus _ s).andThen fun _ => push_faultsOnBus _

theorem pop_faultsOnBus (s : State) : FaultsOnBus (pop s) := busRead_faultsOnBus _ _

theorem pop16_faultsOnBus (s : State) : FaultsOnBus (pop16 s) :=
  (pop_faultsOnBus s).andThen fun _ t => (pop_faultsOnBus t).andThen fun _ => faultsOnBus_ok _

theorem branchIf_fault {cond : Bool} {s : State} {f : Fault} (h : branchIf cond s = .fault f) : IsBusFault f := by
  unfold branchIf at h
  split at h
  · exact (addr_faultsOnBus (m := .relative) ⟨nofun, nofun⟩ s).run h
  · cases h

theorem shiftForm_fault {m : Mode} {f : Byte → Byte × Bool} {s : State} {e : Fault}
    (hm : m ≠ .accumulator → Resolvable m) (h : shiftForm m f s = .fault e) : IsBusFault e := by
  unfold shiftForm at h
  split at h
  · cases h
  · exact (modifyOperand_faultsOnBus (hm ‹_›) _ s).run h

/-- A well-formed instruction faults only on its Bus accesses: its mode is one the resolver resolves wherever it invokes
the resolver. -/
theorem exec_fault {i : Instr} {s : State} {f : Fault} (hwf : i.wf = true) (h : exec i s = .fault f) : IsBusFault f := by
  have hmode (ha : accessesOperand i = true) : Resolvable (instrMode i) := instrMode_of_accessesOperand hwf ha
  cases i
  case lda | ldx | ldy | adc | sbc | and | ora | eor | cmp | cpx | cpy | bit | sbcAlias | lax =>
    exact (readOperand_faultsOnBus (hmode rfl) s).run h
  case sta | stx | sty | sax => exact (writeOperand_faultsOnBus (hmode rfl) _ s).run h
  case inc | dec | dcp | isb | slo | rla | sre | rra => exact (modifyOperand_faultsOnBus (hmode rfl) _ s).run h
  case asl | lsr | rol | ror => exact shiftForm_fault (fun hm => hmode (decide_eq_true hm)) h
  case bcc | bcs | beq | bne | bmi | bpl | bvc | bvs => exact branchIf_fault h
  case jmp m =>
    have hm : Resolvable m := by obtain rfl | rfl := jmp_wf hwf <;> exact ⟨nofun, nofun⟩
    exact (addr_faultsOnBus hm s).run h
  case jsr =>
    exact ((addr_faultsOnBus (m := .absolute) ⟨nofun, nofun⟩ s).andThen fun _ t =>
      (push16_faultsOnBus _ t).andThen fun _ => faultsOnBus_ok _).run h
  case rts => exact (pop16_faultsOnBus s).run h
  case rti => exact ((pop_faultsOnBus s).andThen fun _ _ => pop16_faultsOnBus _).run h
  case pha | php => exact (push_faultsOnBus _ s).run h
  case pla | plp => exact (pop_faultsOnBus s).run h
  case tax | tay | txa | tya | tsx | txs | inx | iny | dex | dey | clc | sec | cli | sei | cld | sed | clv
      | nop | nopAlias | brk =>
    cases h

/-- A step faults on the Bus or on a byte that is not registered: what a byte selects is well-formed. -/
theorem step_fault {s : State} {f : Fault} (h : step s = .fault f) : IsBusFault f ∨ ∃ op, f = .unknownOpcode op s.pc := by
  by_cases hrun : s.run = .running
  · cases hread : busRead s.pc s with
    | fault g =>
      rw [step_fetchFault hrun hread] at h
      cases h
      exact .inl (busRead_faultsOnBus _ _ _ hread)
    | ok op t =>
      cases hdec : decodeOpcode s.cfg.undoc op with
      | none =>
        rw [step_unknown hrun hread hdec] at h
        cases h
        exact .inr ⟨op, rfl⟩
      | some i =>
        obtain ⟨hwf, -, -⟩ := decodeOpcode_inv hdec
        rw [step_decoded hrun hread hdec] at h
        cases hexec : exec i { t with pc := s.pc + 1 } with
        | next u => rw [executeOpcode_next hexec] at h; cases h
        | fault g =>
          rw [executeOpcode_fault hexec] at h
          cases h
          exact .inl (exec_fault hwf hexec)
        | refused q => exact absurd hexec (exec_ne_refused i _ q)
  · unfold step at h
    split at h
    · exact absurd ‹_› hrun
    all_goals cases h

theorem resolverMisuse_not_isBusFault (m : Mode) : ¬IsBusFault (.resolverMisuse m) := by
  simp [IsBusFault, faultCode]

/-- Settles O16: ResolverMisuse is neither a fault of a Bus access nor an unknown opcode. -/
theorem resolverMisuseIsUnreachable : Obligations.ResolverMisuseIsUnreachable := by
  refine ⟨fun _ => rfl, fun _ => rfl, fun i s m hwf h => resolverMisuse_not_isBusFault m (exec_fault hwf h),
    fun s m h => ?_⟩
  obtain hbus | ⟨op, hop⟩ := step_fault h
  · exact resolverMisuse_not_isBusFault m hbus
  · cases hop

end Sys2Proof.Machine
end

