-- ==== Sys2Proof/Proofs/Resolver.lean ====
section
/-! The operand addresses of `30_encoding.md` R146 to R154 by RAM cell. -/

namespace Sys2Proof.Machine

theorem ramRead_eq (a : Addr) (s : State) : ramRead a s = s.ram.read (a.toNat % 0x800) := by
  rw [ramRead, ramIndex_eq]

/-- A zero-page address names the RAM cell of the same number. -/
theorem ramRead_zext16 (z : Byte) (s : State) : ramRead (zext16 z) s = s.ram.read z.toNat := by
  have hz : z.toNat % 0x800 = z.toNat := Nat.mod_eq_of_lt (by omega)
  rw [ramRead_eq, zext16_toNat, hz]

/-- The high byte of the address a JMP pointer holds comes from the page of the low byte (R151). -/
theorem ramEffective_indirect (s : State) :
    ramEffective .indirect s =
      hiLo (ramRead (hiLo (ramRead (s.pc + 1) s) (ramRead s.pc s + 1)) s) (ramRead (ramWord s.pc s) s) := by
  rw [ramEffective, ramWord, samePageNext_hiLo]

/-- Settles O21: the resolver answers `ramEffective`, which is the stated expression once its RAM bytes are read by cell. -/
theorem resolverComputesOperandAddress : Obligations.ResolverComputesOperandAddress := by
  intro s m h
  have haddr (hm : m ≠ .accumulator ∧ m ≠ .noneAddressing) : addr m s = .ok (ramEffective m s) s := addr_inRam hm h
  simp only [← ramRead_eq, ← ramRead_zext16]
  refine ⟨?_, ?_, ?_, ?_, ?_, ?_, ?_, ?_, ?_, ?_, ?_⟩ <;> rintro rfl <;> rw [haddr ⟨nofun, nofun⟩]
  case refine_8 => rw [ramEffective_indirect]; rfl
  all_goals rfl

end Sys2Proof.Machine
end

