-- ==== Sys2Proof/Proofs/OperandFrames.lean ====
section
/-! What the instructions with a memory operand leave unchanged, by class of access: read, write, read-modify-write
(`30_encoding.md` R144, R166, `20_memory.md` R109). -/

namespace Sys2Proof.Machine

/-- A state to which only reads lead is the first one with another PPU address and data buffer. -/
theorem OnlyReads.exists_eq {s t : State} (h : OnlyReads s t) : ∃ p b, t = { s with ppuAddr := p, ppuBuf := b } :=
  ⟨_, _, h⟩

theorem OnlyRegisters.same_bytes {s t : State} (h : OnlyRegisters s t) : SameBytes s t := by
  intro c
  rw [h]
  cases c <;> rfl

theorem SameBytes.trans {s t u : State} (h₁ : SameBytes s t) (h₂ : SameBytes t u) : SameBytes s u :=
  fun c => (h₂ c).trans (h₁ c)

/-! ### Reads outside the PPU window -/

/-- Two reads in a row outside the PPU window change nothing (R109). -/
theorem twoReads_pure {a b : Addr} {s t : State} {w : Addr} (ha : windowOf a ≠ .ppu) (hb : windowOf b ≠ .ppu)
    (h : ((busRead a s).andThen fun lo u => (busRead b u).andThen fun hi x => Res.ok (hiLo hi lo) x) = .ok w t) :
    t = s := by
  obtain ⟨lo, u, hlo, hrest⟩ := Res.andThen_eq_ok.mp h
  obtain ⟨hi, x, hhi, hx⟩ := Res.andThen_eq_ok.mp hrest
  cases hx
  exact (busRead_pure hb hhi).trans (busRead_pure ha hlo)

/-- The resolver changes nothing when the operand bytes lie outside the PPU window: a zero-page pointer lies in RAM, and only
the pointer of Indirect can lie elsewhere. -/
theorem addr_pure {m : Mode} {s t : State} {a : Addr} (h0 : windowOf s.pc ≠ .ppu) (h1 : windowOf (s.pc + 1) ≠ .ppu)
    (hm : m ≠ .indirect) (h : addr m s = .ok a t) : t = s := by
  cases m
  case indirect => exact absurd rfl hm
  case accumulator | noneAddressing => cases h
  case immediate => cases h; rfl
  case absolute => exact twoReads_pure h0 h1 h
  case absoluteX | absoluteY =>
    obtain ⟨w, u, hword, hu⟩ := Res.andThen_eq_ok.mp h
    cases hu
    exact twoReads_pure h0 h1 hword
  case zeroPage | zeroPageX | zeroPageY | relative =>
    obtain ⟨b, u, hbyte, hu⟩ := Res.andThen_eq_ok.mp h
    cases hu
    exact busRead_pure h0 hbyte
  case indirectX | indirectY =>
    obtain ⟨b, u, hbyte, hptr⟩ := Res.andThen_eq_ok.mp h
    rw [readZeroPagePointer_eq] at hptr
    cases hptr
    exact busRead_pure h0 hbyte

/-! ### Read instructions -/

/-- A read instruction reads its operand (R166) and ends by changing registers and flags alone. -/
theorem exec_eq_readOperand_run {m : Mode} {i : Instr} (s : State)
    (hi : i ∈ [Instr.lda m, .ldx m, .ldy m, .lax m, .adc m, .sbc m, .and m, .ora m, .eor m, .cmp m, .cpx m, .cpy m, .bit m]) :
    ∃ k, exec i s = (readOperand m s).run k ∧ ∀ v u, OnlyRegisters u (k v u) := by
  simp only [List.mem_cons, List.not_mem_nil, or_false] at hi
  obtain rfl | rfl | rfl | rfl | rfl | rfl | rfl | rfl | rfl | rfl | rfl | rfl | rfl := hi
  all_goals exact ⟨_, rfl, fun _ _ => rfl⟩

/-- What a read instruction answers: its ending, applied to the state before it with another PPU address and buffer. -/
theorem readOperand_run_eq {m : Mode} {k : Byte → State → State} {s t : State}
    (h : (readOperand m s).run k = .next t) : ∃ v p b, t = k v { s with ppuAddr := p, ppuBuf := b } := by
  obtain ⟨v, u, hok, rfl⟩ := Res.run_eq_next.mp h
  obtain ⟨p, b, rfl⟩ := (readOperand_onlyReads hok).exists_eq
  exact ⟨v, p, b, rfl⟩

/-- Settles O51: the read changes at most the PPU address and buffer, and the ending of each instruction writes its
destination registers and flags. -/
theorem readInstructionFrames : Obligations.ReadInstructionFrames := by
  intro m s t
  refine ⟨fun i hi h => ?kept, fun h => ?lda, fun h => ?ldx, fun h => ?ldy, fun h => ?lax, fun i hi h => ?adder,
    fun i hi h => ?logic, fun i hi h => ?compare, fun h => ?bit⟩
  case kept =>
    obtain ⟨k, hexec, hend⟩ := exec_eq_readOperand_run s hi
    obtain ⟨v, u, hok, rfl⟩ := Res.run_eq_next.mp (hexec.symm.trans h)
    refine ⟨(readOperand_onlyReads hok).same_bytes.trans (hend v u).same_bytes, fun h0 h1 hm hop => ?_⟩
    obtain ⟨a, w, haddr, hread⟩ := readOperand_eq_ok.mp hok
    rw [hend v u, busRead_pure (hop a w haddr) hread, addr_pure h0 h1 hm haddr]
    exact ⟨rfl, rfl⟩
  case lda | ldx | ldy | lax | bit =>
    obtain ⟨v, p, b, rfl⟩ := readOperand_run_eq h
    rfl
  case adder =>
    simp only [List.mem_cons, List.not_mem_nil, or_false] at hi
    obtain rfl | rfl := hi <;> (obtain ⟨v, p, b, rfl⟩ := readOperand_run_eq h; rfl)
  case logic | compare =>
    simp only [List.mem_cons, List.not_mem_nil, or_false] at hi
    obtain rfl | rfl | rfl := hi <;> (obtain ⟨v, p, b, rfl⟩ := readOperand_run_eq h; rfl)

/-! ### Stores -/

/-- A Bus write after reads leaves every byte but its target as it was before the reads. -/
theorem sameBytesBut_of_reads_write {a : Addr} {v : Byte} {s u t : State} (hr : OnlyReads s u)
    (hw : busWrite a v u = .ok () t) : SameBytesBut a u s t :=
  fun c hc => (busWrite_same_bytes hw c hc).trans (hr.same_bytes c)

/-- A Bus write after reads leaves the CPU, the run state, OAM and the configuration as they were. -/
theorem reads_write_frame {a : Addr} {v : Byte} {s u t : State} (hr : OnlyReads s u) (hw : busWrite a v u = .ok () t) :
    t = { s with
      ram := t.ram, rv0 := t.rv0, rv1 := t.rv1, vram := t.vram, palette := t.palette
      ppuAddr := t.ppuAddr, ppuBuf := t.ppuBuf, ppuCtrl := t.ppuCtrl, ppuLatchHi := t.ppuLatchHi } := by
  obtain ⟨p, b, rfl⟩ := hr.exists_eq
  have hstores := busWrite_onlyStores hw
  unfold OnlyStores at hstores
  rw [hstores]

/-- A store writes its operand (R166) and does nothing else. -/
theorem exec_eq_writeOperand_run {m : Mode} {i : Instr} (s : State)
    (hi : i ∈ [Instr.sta m, .stx m, .sty m, .sax m]) : ∃ v, exec i s = (writeOperand m v s).run fun _ t => t := by
  simp only [List.mem_cons, List.not_mem_nil, or_false] at hi
  obtain rfl | rfl | rfl | rfl := hi <;> exact ⟨_, rfl⟩

/-- Settles O52: the reads of the resolver, then one Bus write. -/
theorem storeInstructionFrames : Obligations.StoreInstructionFrames := by
  intro m s u t a haddr i hi h
  obtain ⟨v, hexec⟩ := exec_eq_writeOperand_run s hi
  rw [hexec, writeOperand, haddr, Res.andThen_ok] at h
  obtain ⟨_, w, hwrite, rfl⟩ := Res.run_eq_next.mp h
  have hreads := addr_onlyReads haddr
  have hctrl : u.ppuCtrl = s.ppuCtrl := by rw [hreads]
  have hlatch : u.ppuLatchHi = s.ppuLatchHi := by rw [hreads]
  have hppu := busWrite_ppu hwrite
  rw [hctrl, hlatch] at hppu
  exact ⟨reads_write_frame hreads hwrite, sameBytesBut_of_reads_write hreads hwrite, hppu⟩

/-! ### Read-modify-write instructions -/

/-- `t` is `s` but for A and the flags C, Z, V and N. -/
def OnlyAccFlags (s t : State) : Prop :=
  t = { s with a := t.a, flags := { s.flags with c := t.flags.c, z := t.flags.z, v := t.flags.v, n := t.flags.n } }

theorem OnlyAccFlags.same_bytes {s t : State} (h : OnlyAccFlags s t) : SameBytes s t := by
  intro c
  rw [h]
  cases c <;> rfl

/-- Where a read succeeds, a write to the same address goes to no PPU register but the data register: the others cannot be
read (`20_memory.md` R66). -/
theorem regIndex_of_busRead {a : Addr} {s t : State} {v : Byte} (h : busRead a s = .ok v t) (hw : windowOf a = .ppu) :
    regIndex a = 7 := by
  by_contra h7
  rw [busRead_writeOnlyRegister s hw h7] at h
  cases h

/-- In memory the common form of the shifts is a read-modify-write (`42_shift_rotate.md` R220). -/
theorem shiftForm_memory {m : Mode} {f : Byte → Byte × Bool} {s : State} (hm : m ≠ .accumulator) :
    shiftForm m f s =
      (modifyOperand m (fun v => (f v).1) s).run fun v t => setZN (f v).1 (setCarry (f v).2 t) :=
  if_neg hm

/-- A read-modify-write instruction in memory modifies its operand (R166) and ends by changing A and flags alone. -/
theorem exec_eq_modifyOperand_run {m : Mode} {i : Instr} (s : State) (hm : m ≠ .accumulator)
    (hi : i ∈ [Instr.inc m, .dec m, .asl m, .lsr m, .rol m, .ror m, .dcp m, .isb m, .slo m, .rla m, .sre m, .rra m]) :
    ∃ f k, exec i s = (modifyOperand m f s).run k ∧ ∀ v x, OnlyAccFlags x (k v x) := by
  simp only [List.mem_cons, List.not_mem_nil, or_false] at hi
  obtain rfl | rfl | hi := hi
  · exact ⟨_, _, rfl, fun _ _ => rfl⟩
  · exact ⟨_, _, rfl, fun _ _ => rfl⟩
  obtain rfl | rfl | rfl | rfl | hi := hi
  iterate 4 exact ⟨_, _, shiftForm_memory hm, fun _ _ => rfl⟩
  obtain rfl | rfl | rfl | rfl | rfl | rfl := hi <;> exact ⟨_, _, rfl, fun _ _ => rfl⟩

/-- What a read-modify-write instruction answers: one Bus write after the read, which leaves the CPU as it was, then the
ending of the instruction. -/
theorem modifyOperand_run_eq {m : Mode} {s u w t : State} {a : Addr} {v : Byte} {f : Byte → Byte}
    {k : Byte → State → State} (haddr : addr m s = .ok a u) (hread : busRead a u = .ok v w)
    (h : (modifyOperand m f s).run k = .next t) :
    ∃ x, busWrite a (f v) w = .ok () x ∧ t = k v x ∧ x.a = s.a ∧ x.flags = s.flags := by
  simp only [modifyOperand, haddr, hread, Res.andThen_ok] at h
  obtain ⟨v', x, hok, rfl⟩ := Res.run_eq_next.mp h
  obtain ⟨_, x', hwrite, hx⟩ := Res.andThen_eq_ok.mp hok
  cases hx
  have hframe := reads_write_frame ((addr_onlyReads haddr).trans (busRead_onlyReads hread)) hwrite
  exact ⟨x, hwrite, rfl, by rw [hframe], by rw [hframe]⟩

/-- What a read-modify-write in memory leaves unchanged around its ending: the reads, one Bus write, which goes to no PPU
register but the data register, then A and flags. -/
theorem modify_frame {s u w x t : State} {a : Addr} {v r : Byte} (hreads : OnlyReads s w)
    (hread : busRead a u = .ok v w) (hwrite : busWrite a r w = .ok () x) (hend : OnlyAccFlags x t) :
    SameBytesBut a w s t ∧
      t = { s with
        a := t.a, flags := { s.flags with c := t.flags.c, z := t.flags.z, v := t.flags.v, n := t.flags.n }
        ram := t.ram, rv0 := t.rv0, rv1 := t.rv1, vram := t.vram, palette := t.palette
        ppuAddr := t.ppuAddr, ppuBuf := t.ppuBuf } ∧
      (windowOf a ≠ .ppu → t.ppuAddr = w.ppuAddr ∧ t.ppuBuf = w.ppuBuf) := by
  obtain ⟨hctrl, hlatch, hbuf, hppuAddr⟩ := busWrite_ppu hwrite
  have hctrl' : x.ppuCtrl = s.ppuCtrl := by
    rw [hctrl fun ⟨hw, h0⟩ => by simp [regIndex_of_busRead hread hw] at h0, hreads]
  have hlatch' : x.ppuLatchHi = s.ppuLatchHi := by
    rw [hlatch fun ⟨hw, h6⟩ => by simp [regIndex_of_busRead hread hw] at h6, hreads]
  have hx := reads_write_frame hreads hwrite
  rw [hctrl', hlatch'] at hx
  refine ⟨fun c hc => ?_, ?_, fun hw => ?_⟩
  · rw [hend.same_bytes c, sameBytesBut_of_reads_write hreads hwrite c hc]
  · rw [hend, hx]
  · rw [hend, ← hppuAddr hw, ← hbuf]
    exact ⟨rfl, rfl⟩

/-- Settles O53: the reads, one Bus write, and the ending of each instruction. -/
theorem modifyInstructionFrames : Obligations.ModifyInstructionFrames := by
  intro m s u w t a v hm haddr hread
  refine ⟨fun i hi h => ?frame, fun i hi h => ?incDec, fun i hi h => ?shiftDcp, fun i hi h => ?combined⟩
  case frame =>
    obtain ⟨f, k, hexec, hend⟩ := exec_eq_modifyOperand_run s hm hi
    obtain ⟨x, hwrite, rfl, -⟩ := modifyOperand_run_eq haddr hread (hexec.symm.trans h)
    exact modify_frame ((addr_onlyReads haddr).trans (busRead_onlyReads hread)) hread hwrite (hend v x)
  case incDec =>
    simp only [List.mem_cons, List.not_mem_nil, or_false] at hi
    obtain rfl | rfl := hi <;>
      (obtain ⟨x, -, rfl, ha, hf⟩ := modifyOperand_run_eq haddr hread h; rw [← ha, ← hf]; exact ⟨rfl, rfl, rfl⟩)
  case shiftDcp =>
    have shifted {f : Byte → Byte × Bool} (hform : shiftForm m f s = .next t) : t.a = s.a ∧ t.flags.v = s.flags.v := by
      obtain ⟨x, -, rfl, ha, hf⟩ := modifyOperand_run_eq haddr hread ((shiftForm_memory hm).symm.trans hform)
      rw [← ha, ← hf]
      exact ⟨rfl, rfl⟩
    simp only [List.mem_cons, List.not_mem_nil, or_false] at hi
    obtain rfl | rfl | rfl | rfl | rfl := hi
    iterate 4 exact shifted h
    obtain ⟨x, -, rfl, ha, hf⟩ := modifyOperand_run_eq haddr hread h
    rw [← ha, ← hf]
    exact ⟨rfl, rfl⟩
  case combined =>
    simp only [List.mem_cons, List.not_mem_nil, or_false] at hi
    obtain rfl | rfl | rfl := hi <;>
      (obtain ⟨x, -, rfl, -, hf⟩ := modifyOperand_run_eq haddr hread h; rw [← hf]; rfl)

end Sys2Proof.Machine
end

