-- ==== Sys2Proof/Proofs/LoadStoreResults.lean ====
section
/-! What the loads, the stores and the register transfers answer (`40_load_store_transfer.md` R171 to R182,
`45_undocumented.md` R273, R274). -/

namespace Sys2Proof.Machine

/-- `SetZN` (`00_scope.md` R11) in the words of the result statements: Z as a proposition about the byte, N as its sign. -/
theorem setZN_eq_msb (v : Byte) (s : State) :
    setZN v s = { s with flags := { s.flags with z := decide (v = 0), n := v.msb } } := by
  rw [setZN_eq, BitVec.msb_eq_getLsbD_last]
  rfl

/-! ### The accesses of R166 with the resolver's answer given -/

/-- A read instruction answers its ending, applied to the byte read. -/
theorem readOperand_run_next {m : Mode} {s u t : State} {a : Addr} {v : Byte} (k : Byte → State → State)
    (haddr : addr m s = .ok a u) (hread : busRead a u = .ok v t) : (readOperand m s).run k = .next (k v t) := by
  rw [readOperand_eq_ok.mpr ⟨a, u, haddr, hread⟩, Res.run_ok]

/-- A write instruction answers its ending, applied to the state that the Bus write leaves. -/
theorem writeOperand_run_next {m : Mode} {s u t : State} {a : Addr} {v : Byte} (k : Unit → State → State)
    (haddr : addr m s = .ok a u) (hwrite : busWrite a v u = .ok () t) :
    (writeOperand m v s).run k = .next (k () t) := by
  rw [writeOperand_eq_ok.mpr ⟨a, u, haddr, hwrite⟩, Res.run_ok]

/-! ### Results -/

/-- An instruction that ends by setting Z and N by `v` in a state `t` answers `t` with the two flags following `v`. -/
theorem exec_setZN {i : Instr} {s : State} (v : Byte) (t : State) (hexec : exec i s = .next (setZN v t)) :
    exec i s = .next { t with flags := { t.flags with z := decide (v = 0), n := v.msb } } := by
  rw [hexec, setZN_eq_msb]

/-- An instruction that reads its operand, puts it in registers and sets Z and N by it answers the state after the read with
the byte put there and the two flags following it. -/
theorem exec_load {i : Instr} {m : Mode} {s u t : State} {a : Addr} {v : Byte} (put : Byte → State → State)
    (hexec : exec i s = (readOperand m s).run fun v t => setZN v (put v t))
    (haddr : addr m s = .ok a u) (hread : busRead a u = .ok v t) :
    exec i s = .next { put v t with flags := { (put v t).flags with z := decide (v = 0), n := v.msb } } :=
  exec_setZN v (put v t) (hexec.trans (readOperand_run_next _ haddr hread))

/-- Settles O29: each load puts the byte it reads in its destination, then sets Z and N. -/
theorem loadResults : Obligations.LoadResults := by
  intro m s u t a v haddr hread
  refine ⟨?lda, ?ldx, ?ldy, ?lax⟩
  case lda => exact exec_load (fun v t => t.setA v) rfl haddr hread
  case ldx => exact exec_load (fun v t => t.setX v) rfl haddr hread
  case ldy => exact exec_load (fun v t => t.setY v) rfl haddr hread
  case lax => exact exec_load (fun v t => (t.setA v).setX v) rfl haddr hread

/-- Settles O30: each store is its Bus write and nothing after it. -/
theorem storeResults : Obligations.StoreResults := by
  intro m s u t a haddr
  refine ⟨fun hwrite => ?sta, fun hwrite => ?stx, fun hwrite => ?sty, fun hwrite => ?sax⟩
  all_goals exact writeOperand_run_next (fun _ t => t) haddr hwrite

/-- Settles O31: each transfer copies its source, then sets Z and N by it; TXS sets no flag. -/
theorem transferResults : Obligations.TransferResults := by
  intro s
  refine ⟨?tax, ?tay, ?txa, ?tya, ?tsx, ?txs⟩
  case tax => exact exec_setZN s.a (s.setX s.a) rfl
  case tay => exact exec_setZN s.a (s.setY s.a) rfl
  case txa => exact exec_setZN s.x (s.setA s.x) rfl
  case tya => exact exec_setZN s.y (s.setA s.y) rfl
  case tsx => exact exec_setZN s.sp (s.setX s.sp) rfl
  case txs => rfl

end Sys2Proof.Machine
end

