-- ==== Sys2Proof/Proofs/ArithmeticLogicResults.lean ====
section
/-! What the arithmetic, logic, compare, increment and decrement instructions answer (`41_arithmetic_logic.md` R190 to R208,
`45_undocumented.md` R272): the model's words and bits against integers. -/

namespace Sys2Proof.Machine

/-! ### The byte as a number -/

/-- Bit 7 of a byte is its upper half (`00_scope.md` R11). -/
theorem getLsbD_seven_eq_decide (v : Byte) : v.getLsbD 7 = decide (128 ≤ v.toNat) :=
  (BitVec.msb_eq_getLsbD_last v).symm.trans (BitVec.msb_eq_decide v)

/-- `SetZN` (`00_scope.md` R11) as arithmetic. -/
theorem setZN_eq_toNat (v : Byte) (s : State) :
    setZN v s = { s with flags := { s.flags with z := decide (v.toNat = 0), n := decide (128 ≤ v.toNat) } } := by
  have hz : (v == 0) = decide (v.toNat = 0) := decide_eq_decide.mpr BitVec.toNat_eq
  rw [setZN_eq, hz, getLsbD_seven_eq_decide]

/-! ### The adder (R190, R192) -/

/-- The overflow term of the adder looks at the sign bits alone: both operands differ in sign from the result. -/
theorem addOverflow_eq_msb (a m r : Byte) : addOverflow a m r = ((a.msb ^^ r.msb) && (m.msb ^^ r.msb)) := by
  have hmask (x : Byte) : (x &&& 0x80 != 0) = x.msb := by
    rw [BitVec.msb_eq_getLsbD_last, show (0x80 : Byte) = BitVec.twoPow 8 7 from rfl, BitVec.and_twoPow]
    cases x.getLsbD 7 <;> rfl
  rw [addOverflow, hmask, BitVec.msb_and, BitVec.msb_xor, BitVec.msb_xor]

/-- The overflow term is set exactly when the sum of the signed operands and the carry leaves −128..127. -/
theorem addOverflow_eq_signed (a m : Byte) (c : Bool) :
    addOverflow a m (BitVec.ofNat 8 (addSum a m c)) =
      decide (a.toInt + m.toInt + c.toNat < -128 ∨ 127 < a.toInt + m.toInt + c.toNat) := by
  have ha := a.isLt
  have hm := m.isLt
  have hc := c.toNat_le
  rw [addOverflow_eq_msb, Bool.eq_iff_iff]
  simp only [BitVec.msb_eq_decide, BitVec.toInt_eq_toNat_cond, BitVec.toNat_ofNat, addSum, Bool.and_eq_true,
    bne_iff_ne, ne_eq, decide_eq_decide, decide_eq_true_eq]
  split <;> split <;> omega

/-- The adder as integer addition with carry (R190). -/
theorem addWithCarry_eq_sum (m : Byte) (s : State) :
    addWithCarry m s =
      { s with
        a := BitVec.ofNat 8 (addSum s.a m s.flags.c)
        flags := { s.flags with
          c := decide (256 ≤ addSum s.a m s.flags.c)
          v := decide (s.a.toInt + m.toInt + s.flags.c.toNat < -128 ∨ 127 < s.a.toInt + m.toInt + s.flags.c.toNat)
          z := decide (addSum s.a m s.flags.c % 256 = 0), n := decide (128 ≤ addSum s.a m s.flags.c % 256) } } := by
  rw [← addOverflow_eq_signed]
  exact setZN_eq_toNat _ _

/-- The difference of R192 on unsigned integers: A minus the operand minus the borrow, which is the inverse of C. -/
def subDiff (a m : Byte) (c : Bool) : Int := (a.toNat : Int) - m.toNat - 1 + c.toNat

/-- Adding the inverted byte is subtracting the byte and 1, modulo 256. -/
theorem addSum_not (a m : Byte) (c : Bool) : (addSum a (~~~m) c : Int) = subDiff a m c + 256 := by
  have hm := m.isLt
  simp only [addSum, subDiff, BitVec.toNat_not]
  omega

theorem toInt_not_eq_neg_sub_one (v : Byte) : (~~~v).toInt = -v.toInt - 1 := by
  have hv := v.isLt
  simp only [BitVec.toInt_eq_toNat_cond, BitVec.toNat_not]
  split <;> split <;> omega

/-- The adder on the inverted operand as integer subtraction with borrow (R192). -/
theorem addWithCarry_not_eq_diff (m : Byte) (s : State) :
    addWithCarry (~~~m) s =
      { s with
        a := BitVec.ofInt 8 (subDiff s.a m s.flags.c)
        flags := { s.flags with
          c := decide (0 ≤ subDiff s.a m s.flags.c)
          v := decide
            (s.a.toInt - m.toInt - 1 + s.flags.c.toNat < -128 ∨ 127 < s.a.toInt - m.toInt - 1 + s.flags.c.toNat)
          z := decide (subDiff s.a m s.flags.c % 256 = 0), n := decide (128 ≤ subDiff s.a m s.flags.c % 256) } } := by
  have hsum := addSum_not s.a m s.flags.c
  have hresult : BitVec.ofNat 8 (addSum s.a (~~~m) s.flags.c) = BitVec.ofInt 8 (subDiff s.a m s.flags.c) := by
    rw [← BitVec.ofInt_natCast, hsum, BitVec.ofInt_add]
    exact BitVec.add_zero _
  have hc : decide (256 ≤ addSum s.a (~~~m) s.flags.c) = decide (0 ≤ subDiff s.a m s.flags.c) :=
    decide_eq_decide.mpr (by omega)
  have hz : decide (addSum s.a (~~~m) s.flags.c % 256 = 0) = decide (subDiff s.a m s.flags.c % 256 = 0) :=
    decide_eq_decide.mpr (by omega)
  have hn : decide (128 ≤ addSum s.a (~~~m) s.flags.c % 256) = decide (128 ≤ subDiff s.a m s.flags.c % 256) :=
    decide_eq_decide.mpr (by omega)
  rw [addWithCarry_eq_sum, hresult, hc, hz, hn, toInt_not_eq_neg_sub_one]
  simp only [Int.sub_eq_add_neg, Int.add_assoc]

/-- Settles O32: ADC is the adder on the byte read, SBC and its alias the adder on the inverted byte. -/
theorem adcSbcFollowIntegerLaws : Obligations.AdcSbcFollowIntegerLaws := by
  intro m s u t a v haddr hread
  have hadc := (readOperand_run_next addWithCarry haddr hread).trans (congrArg _ (addWithCarry_eq_sum v t))
  have hsbc := (readOperand_run_next (fun v => addWithCarry (~~~v)) haddr hread).trans
    (congrArg _ (addWithCarry_not_eq_diff v t))
  refine ⟨hadc, hsbc, fun himm => ?_⟩
  subst himm
  exact hsbc

/-! ### Compare (R198) -/

/-- `Compare` on unsigned integers. -/
theorem compareReg_eq_toNat (r m : Byte) (s : State) :
    compareReg r m s = { s with flags := { s.flags with
      c := decide (m.toNat ≤ r.toNat), z := decide (r = m), n := decide (128 ≤ (256 + r.toNat - m.toNat) % 256) } } := by
  have hz : (r - m == 0) = decide (r = m) := decide_eq_decide.mpr sub_eq_zero
  have hn : (r - m).toNat = (256 + r.toNat - m.toNat) % 256 := by
    have hm := m.isLt
    rw [BitVec.toNat_sub, show 2 ^ 8 - m.toNat + r.toNat = 256 + r.toNat - m.toNat by omega]
  rw [compareReg_eq, hz, getLsbD_seven_eq_decide, hn]

/-- Settles O34: each reads its operand and compares its register with it. -/
theorem compareResults : Obligations.CompareResults := by
  intro m s u t a v haddr hread
  have compared (reg : State → Byte) :=
    (readOperand_run_next (fun v t => compareReg (reg t) v t) haddr hread).trans
      (congrArg _ (compareReg_eq_toNat (reg t) v t))
  exact ⟨compared State.a, compared State.x, compared State.y⟩

/-! ### Increment and decrement (R203 to R208) -/

/-- A read-modify-write instruction answers its ending, applied to the byte read and the state that the Bus write leaves. -/
theorem modifyOperand_run_next {m : Mode} {f : Byte → Byte} {s u w t : State} {a : Addr} {v : Byte}
    (k : Byte → State → State) (haddr : addr m s = .ok a u) (hread : busRead a u = .ok v w)
    (hwrite : busWrite a (f v) w = .ok () t) : (modifyOperand m f s).run k = .next (k v t) := by
  rw [modifyOperand_eq_ok.mpr ⟨a, u, w, haddr, hread, hwrite⟩, Res.run_ok]

theorem setZN_add_one (v : Byte) (s : State) :
    setZN (v + 1) s = { s with
      flags := { s.flags with z := decide (v = 0xFF), n := decide (128 ≤ (v.toNat + 1) % 256) } } := by
  have hz : (v + 1).toNat = 0 ↔ v = 0xFF := by bv_omega
  rw [setZN_eq_toNat, decide_eq_decide.mpr hz, BitVec.toNat_add]
  rfl

theorem setZN_sub_one (v : Byte) (s : State) :
    setZN (v - 1) s = { s with
      flags := { s.flags with z := decide (v = 1), n := decide (128 ≤ (v.toNat + 255) % 256) } } := by
  have hz : (v - 1).toNat = 0 ↔ v = 1 := by bv_omega
  rw [setZN_eq_toNat, decide_eq_decide.mpr hz, BitVec.toNat_sub, Nat.add_comm]
  rfl

/-- Settles O36: the byte written is the byte read plus or minus 1, and Z and N follow it. -/
theorem incDecMemoryResults : Obligations.IncDecMemoryResults := by
  intro m s u w t a v haddr hread
  refine ⟨fun hwrite => ?inc, fun hwrite => ?dec⟩
  case inc =>
    have hv : BitVec.ofNat 8 (v.toNat + 1) = v + 1 := by bv_omega
    rw [hv] at hwrite
    exact (modifyOperand_run_next _ haddr hread hwrite).trans (congrArg _ (setZN_add_one v t))
  case dec =>
    have hv : BitVec.ofNat 8 (v.toNat + 255) = v - 1 := by bv_omega
    rw [hv] at hwrite
    exact (modifyOperand_run_next _ haddr hread hwrite).trans (congrArg _ (setZN_sub_one v t))

/-- Settles O37: each counts its register up or down by 1, then sets Z and N by it. -/
theorem incDecRegisterResults : Obligations.IncDecRegisterResults := by
  intro s
  refine ⟨?inx, ?iny, ?dex, ?dey⟩
  case inx => exact congrArg _ (setZN_add_one s.x (s.setX (s.x + 1)))
  case iny => exact congrArg _ (setZN_add_one s.y (s.setY (s.y + 1)))
  case dex => exact congrArg _ (setZN_sub_one s.x (s.setX (s.x - 1)))
  case dey => exact congrArg _ (setZN_sub_one s.y (s.setY (s.y - 1)))

/-! ### Logic and bit test (R193, R194, R196, R202) -/

/-- Settles O33: each puts its function of A and the byte read in A, then sets Z and N by it. -/
theorem logicResults : Obligations.LogicResults := by
  intro m s u t a v haddr hread
  refine ⟨?and, ?ora, ?eor⟩
  case and => exact exec_setZN (t.a &&& v) (t.setA (t.a &&& v)) (readOperand_run_next _ haddr hread)
  case ora => exact exec_setZN (t.a ||| v) (t.setA (t.a ||| v)) (readOperand_run_next _ haddr hread)
  case eor => exact exec_setZN (t.a ^^^ v) (t.setA (t.a ^^^ v)) (readOperand_run_next _ haddr hread)

/-- Settles O35: BIT reads its operand and sets the three flags alone. -/
theorem bitTestResult : Obligations.BitTestResult := by
  intro m s u t a v haddr hread
  exact (readOperand_run_next bitTest haddr hread).trans (congrArg _ (bitTest_eq v t))

end Sys2Proof.Machine
end

