-- ==== Sys2Proof/Proofs/ShiftResults.lean ====
section
/-! What the shifts and rotates answer (`42_shift_rotate.md` R220 to R224): the model's shifted words against arithmetic on
the 9 bits of the byte and C. -/

namespace Sys2Proof.Machine

/-! ### The four functions as arithmetic -/

theorem shiftLeft_one_eq_ofNat (v : Byte) : v <<< 1 = BitVec.ofNat 8 (2 * v.toNat) := by bv_omega

theorem shiftRight_one_eq_ofNat (v : Byte) : v >>> 1 = BitVec.ofNat 8 (v.toNat / 2) := by bv_omega

theorem getLsbD_zero_eq_decide (v : Byte) : v.getLsbD 0 = decide (v.toNat % 2 = 1) :=
  Nat.testBit_zero v.toNat

/-- A carry bit as a number. -/
theorem carryAt_eq_ofNat (k : Nat) (c : Bool) : carryAt k c = BitVec.ofNat 8 (2 ^ k * c.toNat) := by
  cases c
  case false => rfl
  case true => rw [Bool.toNat_true, Nat.mul_one]; exact BitVec.eq_of_toNat_eq (BitVec.toNat_twoPow 8 k)

/-- The bit a rotate puts in falls where the shift has left a 0, so OR is addition. -/
theorem or_carryAt {v : Byte} {k : Nat} (h : v.getLsbD k = false) (c : Bool) : v ||| carryAt k c = v + carryAt k c := by
  have hdisjoint : v &&& carryAt k c = 0 := by
    cases c
    case false => exact BitVec.and_zero
    case true => exact (BitVec.and_twoPow v k).trans (if_neg (by simp [h]))
  exact (BitVec.add_eq_or_of_and_eq_zero v _ hdisjoint).symm

/-- ASL doubles the byte; the carry out is its upper half (R221). -/
theorem shiftAsl_eq (v : Byte) : shiftAsl v = (BitVec.ofNat 8 (2 * v.toNat), decide (128 ≤ v.toNat)) := by
  rw [shiftAsl, shiftLeft_one_eq_ofNat, getLsbD_seven_eq_decide]

/-- LSR halves the byte; the carry out is its parity (R222). -/
theorem shiftLsr_eq (v : Byte) : shiftLsr v = (BitVec.ofNat 8 (v.toNat / 2), decide (v.toNat % 2 = 1)) := by
  rw [shiftLsr, shiftRight_one_eq_ofNat, getLsbD_zero_eq_decide]

/-- ROL doubles the byte and adds C (R223). -/
theorem shiftRol_eq (c : Bool) (v : Byte) :
    shiftRol c v = (BitVec.ofNat 8 (2 * v.toNat + c.toNat), decide (128 ≤ v.toNat)) := by
  have hclear : (v <<< 1).getLsbD 0 = false := by simp
  rw [shiftRol, or_carryAt hclear, shiftLeft_one_eq_ofNat, carryAt_eq_ofNat, Nat.pow_zero, Nat.one_mul,
    ← BitVec.ofNat_add, getLsbD_seven_eq_decide]

/-- ROR halves the byte and adds 128 times C (R224). -/
theorem shiftRor_eq (c : Bool) (v : Byte) :
    shiftRor c v = (BitVec.ofNat 8 (v.toNat / 2 + 128 * c.toNat), decide (v.toNat % 2 = 1)) := by
  have hclear : (v >>> 1).getLsbD 7 = false := by simp
  rw [shiftRor, or_carryAt hclear, shiftRight_one_eq_ofNat, carryAt_eq_ofNat, ← BitVec.ofNat_add,
    getLsbD_zero_eq_decide]
  rfl

/-! ### The common form (R220) -/

/-- The flags after a shift with the result `r` modulo 256: C is the bit shifted out, Z and N follow the byte. -/
theorem setZN_setCarry_ofNat (r : Nat) (carry : Bool) (s : State) :
    setZN (BitVec.ofNat 8 r) (setCarry carry s) = { s with
      flags := { s.flags with c := carry, z := decide (r % 256 = 0), n := decide (128 ≤ r % 256) } } :=
  setZN_eq_toNat _ _

section Shifted

variable {f : Byte → Byte × Bool} {s : State} {r : Nat} {carry : Bool}

/-- A shift of the accumulator puts the shifted byte in A. -/
theorem shiftForm_accumulator (hf : f s.a = (BitVec.ofNat 8 r, carry)) :
    shiftForm .accumulator f s = .next { s with
      a := BitVec.ofNat 8 r
      flags := { s.flags with c := carry, z := decide (r % 256 = 0), n := decide (128 ≤ r % 256) } } := by
  rw [shiftForm, if_pos rfl, hf]
  exact congrArg _ (setZN_setCarry_ofNat r carry (s.setA (BitVec.ofNat 8 r)))

/-- A shift in memory writes the shifted byte; the accumulator form is none, because the resolver answers. -/
theorem shiftForm_memory_next {m : Mode} {u w t : State} {a : Addr} {v : Byte}
    (haddr : addr m s = .ok a u) (hread : busRead a u = .ok v w) (hf : f v = (BitVec.ofNat 8 r, carry))
    (hwrite : busWrite a (BitVec.ofNat 8 r) w = .ok () t) :
    shiftForm m f s = .next { t with
      flags := { t.flags with c := carry, z := decide (r % 256 = 0), n := decide (128 ≤ r % 256) } } := by
  have hm : m ≠ .accumulator := by
    rintro rfl
    cases haddr
  have hbyte : (f v).1 = BitVec.ofNat 8 r := congrArg Prod.fst hf
  rw [shiftForm_memory hm, modifyOperand_run_next _ haddr hread (hbyte ▸ hwrite), hf, setZN_setCarry_ofNat]

end Shifted

/-! ### Results -/

/-- Settles O38: each is the common form on A with its function, read as arithmetic. -/
theorem shiftAccumulatorResults : Obligations.ShiftAccumulatorResults := by
  intro s
  refine ⟨?asl, ?lsr, ?rol, ?ror⟩
  case asl => exact shiftForm_accumulator (shiftAsl_eq s.a)
  case lsr => exact shiftForm_accumulator (shiftLsr_eq s.a)
  case rol => exact shiftForm_accumulator (shiftRol_eq s.flags.c s.a)
  case ror => exact shiftForm_accumulator (shiftRor_eq s.flags.c s.a)

/-- Settles O39: each is the common form in memory; the rotates take C from the state before the accesses. -/
theorem shiftMemoryResults : Obligations.ShiftMemoryResults := by
  intro m s u w t a v haddr hread
  refine ⟨?asl, ?lsr, ?rol, ?ror⟩
  case asl => exact shiftForm_memory_next haddr hread (shiftAsl_eq v)
  case lsr => exact shiftForm_memory_next haddr hread (shiftLsr_eq v)
  case rol => exact shiftForm_memory_next haddr hread (shiftRol_eq s.flags.c v)
  case ror => exact shiftForm_memory_next haddr hread (shiftRor_eq s.flags.c v)

end Sys2Proof.Machine
end

