-- ==== Sys2Proof/Proofs/ControlFlow.lean ====
section
/-! The control-flow instructions (`43_control_flow.md` R230 to R243): what the branches, JMP, JSR, RTS and RTI answer, where
a step over a branch or a JMP ends, the pairing of JSR with RTS, and what they leave unchanged. -/

namespace Sys2Proof.Machine

/-! ### Branches (R230 to R238) -/

theorem branchIf_true {s t : State} {o : Byte} (hread : busRead s.pc s = .ok o t) :
    branchIf true s = .next { t with pc := s.pc + 1 + sext16 o } := by
  have hpc : t.pc = s.pc := by rw [busRead_onlyReads hread]
  simp only [branchIf, if_true, addr, hread, Res.andThen_ok, Res.run_ok, hpc]
  rfl

theorem branchIf_false (s : State) : branchIf false s = .next s := rfl

/-- Settles O41: each instruction is `branchIf` on its condition. -/
theorem branchResults : Obligations.BranchResults := by
  intro s t o b hb
  obtain ⟨cond, hexec, hcond⟩ : ∃ cond, exec b.1 s = branchIf cond s ∧ (b.2 ↔ cond = true) := by
    simp only [List.mem_cons, List.not_mem_nil, or_false] at hb
    obtain rfl | rfl | rfl | rfl | rfl | rfl | rfl | rfl := hb <;> exact ⟨_, rfl, by simp⟩
  rw [hexec, hcond]
  cases cond
  case true => exact ⟨fun _ hread => branchIf_true hread, fun h => absurd rfl h⟩
  case false => exact ⟨nofun, fun _ => branchIf_false s⟩

theorem exec_of_mem_branchCond {s : State} {b : Instr × Bool} (hb : b ∈ branchCond s.flags) :
    exec b.1 s = branchIf b.2 s := by
  simp only [branchCond, List.mem_cons, List.not_mem_nil, or_false] at hb
  obtain rfl | rfl | rfl | rfl | rfl | rfl | rfl | rfl := hb <;> rfl

theorem instrLength_of_mem_branchCond {f : Flags} {b : Instr × Bool} (hb : b ∈ branchCond f) : instrLength b.1 = 2 := by
  simp only [branchCond, List.mem_cons, List.not_mem_nil, or_false] at hb
  obtain rfl | rfl | rfl | rfl | rfl | rfl | rfl | rfl := hb <;> rfl

/-! ### The PC advance after a handler that assigned PC (R164, R165) -/

/-- A target that equals `pcBefore` is advanced over the operand bytes like a handler that left PC alone. -/
theorem advancePc_target (i : Instr) (pcBefore target : Addr) (s : State) :
    advancePc i pcBefore { s with pc := target } =
      { s with pc := if target = pcBefore then pcBefore + BitVec.ofNat 16 (instrLength i - 1) else target } := by
  by_cases h : target = pcBefore
  · subst h
    simp only [advancePc, if_true]
    rfl
  · simp only [advancePc, if_neg h]

/-- The only offset that leads back to the offset byte itself is 0xFF. -/
theorem branchTarget_eq_pcBefore {p : Addr} {o : Byte} : p + 1 + sext16 o = p ↔ o = 0xFF := by
  have hsext : sext16 o = 0xFFFF ↔ o = 0xFF := by revert o; decide
  rw [← hsext]
  constructor <;> intro h <;> bv_omega

/-- A branch executed with PC at its offset byte in RAM, PC advance included: either way of ending at `pcBefore`, condition
false or offset 0xFF, goes on after the offset byte (R230, R165). -/
theorem executeOpcode_branch {s : State} {b : Instr × Bool} (hb : b ∈ branchCond s.flags) (hpc : InRam s.pc) :
    executeOpcode b.1 s = .next { s with
      pc := if b.2 = true ∧ ramRead s.pc s ≠ 0xFF then s.pc + 1 + sext16 (ramRead s.pc s) else s.pc + 1 } := by
  have hexec := exec_of_mem_branchCond hb
  have hlen := instrLength_of_mem_branchCond hb
  cases hcond : b.2
  case false =>
    rw [hcond, branchIf_false] at hexec
    rw [executeOpcode_next hexec, advancePc_target b.1 s.pc s.pc s, hlen]
    simp
  case true =>
    rw [hcond, branchIf_true (busRead_inRam s hpc)] at hexec
    rw [executeOpcode_next hexec, advancePc_target, hlen]
    by_cases ho : ramRead s.pc s = 0xFF
    · rw [if_pos (branchTarget_eq_pcBefore.mpr ho), if_neg (fun h => h.2 ho)]
      rfl
    · rw [if_neg (mt branchTarget_eq_pcBefore.mp ho), if_pos ⟨rfl, ho⟩]

/-- Settles O42: the fetch in RAM leaves PC at the offset byte, and `executeOpcode_branch` says the rest. -/
theorem branchStepEndsWhereTableSays : Obligations.BranchStepEndsWhereTableSays := by
  intro s hrun hop hoff b hb hdec o
  have hnext : s.pc + 1 + 1 = s.pc + 2 := by bv_omega
  have hoffset : ramRead (s.pc + 1) s = o := ramRead_eq (s.pc + 1) s
  rw [← ramRead_eq] at hdec
  rw [step_decoded hrun (busRead_inRam s hop) hdec, executeOpcode_branch (s := { s with pc := s.pc + 1 }) hb hoff,
    ← hoffset, ← hnext]
  rfl

/-! ### JMP (R239) -/

theorem exec_jmp {m : Mode} {s t : State} {a : Addr} (haddr : addr m s = .ok a t) :
    exec (.jmp m) s = .next { t with pc := a } := by
  simp only [exec, execJmp, haddr, Res.run_ok]
  rfl

theorem instrLength_jmp {m : Mode} (hwf : (Instr.jmp m).wf = true) : instrLength (.jmp m) = 3 := by
  obtain rfl | rfl := jmp_wf hwf <;> rfl

/-- Settles O43: the handler assigns the target, and the step adds the two operand bytes where that is `pcBefore`. -/
theorem jmpResults : Obligations.JmpResults := by
  refine ⟨fun m s t a => exec_jmp, fun m s t u op a hrun hread hdec haddr => ?step⟩
  have hlen := instrLength_jmp (decodeOpcode_inv hdec).1
  rw [step_decoded hrun hread hdec, executeOpcode_next (exec_jmp haddr), advancePc_target, hlen]
  simp [BitVec.add_assoc]

/-! ### JSR, RTS and RTI with the stack page at 0x0100 (R240 to R242) -/

/-- A JSR that answers a next state resolved its target, pushed the address of its own last byte, then assigned PC (R240). -/
theorem exec_jsr_eq_next {s t : State} :
    exec .jsr s = .next t ↔
      ∃ a u w, addr .absolute s = .ok a u ∧ push16 (u.pc + 1) u = .ok () w ∧ t = w.setPc a := by
  simp only [exec, execJsr, Res.run_eq_next, Res.andThen_eq_ok, Res.ok.injEq]
  constructor
  · rintro ⟨_, _, ⟨a, u, haddr, _, w, hpush, rfl, rfl⟩, rfl⟩
    exact ⟨a, u, w, haddr, hpush, rfl⟩
  · rintro ⟨a, u, w, haddr, hpush, rfl⟩
    exact ⟨a, w, ⟨a, u, haddr, (), w, hpush, rfl, rfl⟩, rfl⟩

/-- `Pop` by RAM cell: the byte comes from the cell of SP + 1. -/
theorem pop_cell {s : State} (h : s.cfg.stackBase = 0x0100) :
    pop s = .ok (s.ram.read (0x100 + (s.sp + 1).toNat)) (s.setSp (s.sp + 1)) := by
  have hcell : ramIndex (stackCell (s.setSp (s.sp + 1))) = 0x100 + (s.sp + 1).toNat := stackCell_index (s.sp + 1) h
  rw [pop_ram h, ramRead, hcell]

section StackPage

variable {s : State} (hstack : s.cfg.stackBase = 0x0100)
include hstack

theorem exec_jsr_cells {t : State} {a : Addr} (haddr : addr .absolute s = .ok a t) :
    exec .jsr s = .next { t with
      ram := (s.ram.write (0x100 + s.sp.toNat) (highByte (s.pc + 1))).write (0x100 + (s.sp - 1).toNat) (lowByte (s.pc + 1))
      sp := s.sp - 2, pc := a } := by
  obtain ⟨p, b, rfl⟩ := (addr_onlyReads haddr).exists_eq
  exact exec_jsr_eq_next.mpr ⟨a, _, _, haddr, push16_cells _ hstack, rfl⟩

theorem exec_rts_cells :
    exec .rts s = .next { s with
      sp := s.sp + 2
      pc := hiLo (s.ram.read (0x100 + (s.sp + 2).toNat)) (s.ram.read (0x100 + (s.sp + 1).toNat)) + 1 } := by
  simp only [exec, execRts, pop16_cells hstack, Res.run_ok]
  rfl

theorem exec_rti_cells :
    exec .rti s = .next { s with
      sp := s.sp + 3
      pc := hiLo (s.ram.read (0x100 + (s.sp + 3).toNat)) (s.ram.read (0x100 + (s.sp + 2).toNat))
      flags := unpackFlags (s.ram.read (0x100 + (s.sp + 1).toNat)) } := by
  have e2 : s.sp + 1 + 1 = s.sp + 2 := by bv_omega
  have e3 : s.sp + 1 + 2 = s.sp + 3 := by bv_omega
  simp only [exec, execRti, pop_cell hstack, Res.andThen_ok, unpackP_eq]
  rw [pop16_cells (by exact hstack)]
  simp only [Res.run_ok, State.setSp_sp, e2, e3]
  rfl

end StackPage

/-- Settles O44: each handler by the RAM cells its pushes and pops go to. -/
theorem callAndReturnResults : Obligations.CallAndReturnResults := by
  intro s hstack
  exact ⟨fun a t => exec_jsr_cells hstack, exec_rts_cells hstack, exec_rti_cells hstack⟩

/-! ### The pairing of JSR with RTS (R243) -/

/-- What `Pop16` gives depends on the configuration, SP and the two stack bytes above SP alone. -/
theorem pop16_congr {t u x : State} {v : Addr} (hstack : t.cfg.stackBase = 0x0100) (hcfg : u.cfg = t.cfg) (hsp : u.sp = t.sp)
    (hlow : ramRead (0x0100 + zext16 (t.sp + 1)) u = ramRead (0x0100 + zext16 (t.sp + 1)) t)
    (hhigh : ramRead (0x0100 + zext16 (t.sp + 2)) u = ramRead (0x0100 + zext16 (t.sp + 2)) t)
    (hpop : pop16 t = .ok v x) : pop16 u = .ok v (u.setSp x.sp) := by
  have hstack' : u.cfg.stackBase = 0x0100 := by rw [hcfg, hstack]
  rw [pop16_ram hstack] at hpop
  rw [pop16_ram hstack']
  simp only [stackCell, State.setSp_sp, State.setSp_cfg, hstack, hstack', hsp, hlow, hhigh] at hpop ⊢
  cases hpop
  rfl

/-- Settles O45: the resolver's reads keep the invariant, `pop16_of_push16` reads the pushed address back, the two stack
bytes carry it over to the later state, and RTS adds 1. -/
theorem rtsReturnsAfterJsr : Obligations.RtsReturnsAfterJsr := by
  intro s t u v hi hstack hjsr hcfg hsp hlow hhigh hrts
  obtain ⟨a, r, w, haddr, hpush, rfl⟩ := exec_jsr_eq_next.mp hjsr
  obtain ⟨p, b, rfl⟩ := (addr_onlyReads haddr).exists_eq
  have hstackw : w.cfg.stackBase = 0x0100 := by rw [(push16_kept hpush).cfg, hstack]
  have hpopw : pop16 w = .ok (s.pc + 1) (w.setSp s.sp) :=
    pop16_of_push16 (s := { s with ppuAddr := p, ppuBuf := b }) hi hstack hpush
  have hpop : pop16 u = .ok (s.pc + 1) (u.setSp s.sp) :=
    pop16_congr (x := w.setSp s.sp) hstackw hcfg hsp hlow hhigh hpopw
  have hnext : s.pc + 1 + 1 = s.pc + 2 := by bv_omega
  simp only [exec, execRts, hpop, Res.run_ok] at hrts
  cases hrts
  exact ⟨hnext, rfl⟩

/-! ### Frames -/

/-- `t` is `s` but for PC, SP, the flags and what a PPU data read changes. -/
def OnlyMoves (s t : State) : Prop :=
  t = { s with pc := t.pc, sp := t.sp, flags := t.flags, ppuAddr := t.ppuAddr, ppuBuf := t.ppuBuf }

theorem OnlyMoves.same_bytes {s t : State} (h : OnlyMoves s t) : SameBytes s t := by
  intro c
  rw [h]
  cases c <;> rfl

/-- Resolving a target and assigning it to PC changes PC and at most what the resolver's reads change. -/
theorem addr_run_setPc_next {m : Mode} {s t : State} (h : ((addr m s).run fun a u => u.setPc a) = .next t) :
    ∃ pc p b, t = { s with pc := pc, ppuAddr := p, ppuBuf := b } := by
  obtain ⟨a, u, haddr, rfl⟩ := Res.run_eq_next.mp h
  obtain ⟨p, b, rfl⟩ := (addr_onlyReads haddr).exists_eq
  exact ⟨a, p, b, rfl⟩

theorem branchIf_next {cond : Bool} {s t : State} (h : branchIf cond s = .next t) :
    ∃ pc p b, t = { s with pc := pc, ppuAddr := p, ppuBuf := b } := by
  cases cond
  case false => cases h; exact ⟨_, _, _, rfl⟩
  case true => exact addr_run_setPc_next h

theorem exec_rts_next {s t : State} (h : exec .rts s = .next t) :
    ∃ pc p b, t = { s with pc := pc, sp := s.sp + 2, ppuAddr := p, ppuBuf := b } := by
  obtain ⟨a, u, hpop, rfl⟩ := Res.run_eq_next.mp h
  obtain ⟨p, b, rfl⟩ := (pop16_onlyReads hpop).exists_eq
  exact ⟨a + 1, p, b, rfl⟩

theorem exec_rti_next {s t : State} (h : exec .rti s = .next t) :
    ∃ pc sp f p b, t = { s with pc := pc, sp := sp, flags := f, ppuAddr := p, ppuBuf := b } := by
  obtain ⟨a, u, hpops, rfl⟩ := Res.run_eq_next.mp h
  obtain ⟨status, w, hpop, hpop16⟩ := Res.andThen_eq_ok.mp hpops
  obtain ⟨p, b, rfl⟩ := (pop_onlyReads hpop).exists_eq
  obtain ⟨p', b', rfl⟩ := (pop16_onlyReads hpop16).exists_eq
  exact ⟨a, _, _, p', b', rfl⟩

theorem storeTarget_ram {a : Addr} (s : State) (h : windowOf a = .ram) : storeTarget a s = some (.ram (ramIndex a)) := by
  rw [storeTarget, h]

/-- The two pushes leave every byte as it was but the stack cells of SP and SP − 1. -/
theorem push16_same_bytes {s t : State} {v : Addr} {c : PhysCell} (hstack : s.cfg.stackBase = 0x0100)
    (h : push16 v s = .ok () t) (hhigh : PhysCell.ram (ramIndex (stackCell s)) ≠ c)
    (hlow : PhysCell.ram (ramIndex (stackCell (s.setSp (s.sp - 1)))) ≠ c) : readCell c t = readCell c s := by
  rw [push16_ram v hstack] at h
  cases h
  cases c
  case ram k =>
    have hk : k ≠ ramIndex (stackCell s) := fun e => hhigh (e ▸ rfl)
    have hk' : k ≠ ramIndex (stackCell (s.setSp (s.sp - 1))) := fun e => hlow (e ▸ rfl)
    exact (Memory.read_write_ne _ hk').trans (Memory.read_write_ne _ hk)
  case rv0 | rv1 | vram | palette | oam => rfl

/-- Settles O54: the frame of each class of handler, with the RAM cells of the stack where its page is 0x0100. -/
theorem controlFlowFrames : Obligations.ControlFlowFrames := by
  intro s t
  refine ⟨fun i hi h => ?jumps, fun h => ?rts, fun h => ?rti, fun hstack h => ?jsr⟩
  case jumps =>
    obtain ⟨pc, p, b, rfl⟩ : ∃ pc p b, t = { s with pc := pc, ppuAddr := p, ppuBuf := b } := by
      cases i
      case bcc | bcs | beq | bne | bmi | bpl | bvc | bvs => exact branchIf_next h
      case jmp => exact addr_run_setPc_next h
      all_goals exact absurd hi (by simp)
    exact ⟨rfl, OnlyMoves.same_bytes rfl⟩
  case rts =>
    obtain ⟨pc, p, b, rfl⟩ := exec_rts_next h
    refine ⟨rfl, OnlyMoves.same_bytes rfl, fun hstack => ?_⟩
    cases (exec_rts_cells hstack).symm.trans h
    rfl
  case rti =>
    obtain ⟨pc, sp, f, p, b, rfl⟩ := exec_rti_next h
    refine ⟨rfl, OnlyMoves.same_bytes rfl, fun hstack => ?_⟩
    cases (exec_rti_cells hstack).symm.trans h
    rfl
  case jsr =>
    obtain ⟨a, u, w, haddr, hpush, rfl⟩ := exec_jsr_eq_next.mp h
    have hreads := addr_onlyReads haddr
    obtain ⟨p, b, rfl⟩ := hreads.exists_eq
    refine ⟨?_, fun c hhigh hlow => ?_⟩
    · cases (push16_cells _ (by exact hstack)).symm.trans hpush
      rfl
    · rw [storeTarget_ram s (stackCell_ram hstack)] at hhigh
      rw [storeTarget_ram s (stackCell_ram (by exact hstack))] at hlow
      calc
        readCell c (w.setPc a) = readCell c w := OnlyMoves.same_bytes (t := w.setPc a) rfl c
        _ = readCell c { s with ppuAddr := p, ppuBuf := b } :=
          push16_same_bytes hstack hpush (fun e => hhigh (congrArg some e)) (fun e => hlow (congrArg some e))
        _ = readCell c s := hreads.same_bytes c

end Sys2Proof.Machine
end

