-- ==== Sys2Proof/Proofs/StackFlagsSystem.lean ====
section
/-! The stack, flag and system instructions (`44_stack_flags_system.md` R250 to R263) and the NOP aliases
(`45_undocumented.md` R271): what they answer, what comes back of a pushed status, and what they leave unchanged. -/

namespace Sys2Proof.Machine

/-! ### The status byte (`00_scope.md` R13) -/

/-- `BitVec.toNat_concat` in the spelling of `packP`. -/
theorem toNat_append_ofBool {w : Nat} (x : BitVec w) (b : Bool) : (x ++ BitVec.ofBool b).toNat = x.toNat * 2 + b.toNat :=
  BitVec.toNat_concat x b

theorem ite_two_pow_eq (b : Bool) (k : Nat) : (if b then 2 ^ k else 0) = 2 ^ k * b.toNat := by
  cases b <;> simp

/-- `PackP` as a sum of bit weights. -/
theorem packP_toNat (bh bl : Bool) (f : Flags) :
    (packP bh bl f).toNat = 2 ^ 7 * f.n.toNat + 2 ^ 6 * f.v.toNat + 2 ^ 5 * bh.toNat + 2 ^ 4 * bl.toNat
      + 2 ^ 3 * f.d.toNat + 2 ^ 2 * f.i.toNat + 2 ^ 1 * f.z.toNat + 2 ^ 0 * f.c.toNat := by
  refine (toNat_append_ofBool ..).trans ?_
  simp only [toNat_append_ofBool, BitVec.toNat_ofBool]
  omega

/-- With both Break bits set the status byte is at least their weight. -/
theorem le_packP_true_true (f : Flags) : 0x30 ≤ (packP true true f).toNat := by
  rw [packP_toNat]
  simp only [Bool.toNat_true]
  omega

/-- `PackP` bit by bit. -/
theorem packP_getLsbD (bh bl : Bool) (f : Flags) (k : Nat) :
    (packP bh bl f).getLsbD k = [f.c, f.z, f.i, f.d, bl, bh, f.v, f.n].getD k false := by
  refine (BitVec.getLsbD_append ..).trans ?_
  simp only [BitVec.getLsbD_append, BitVec.getLsbD_ofBool]
  match k with
  | 0 | 1 | 2 | 3 | 4 | 5 | 6 | 7 => rfl
  | k + 8 => rfl

/-- Unpacking a packed status gives six flags back; the Break bits of the byte are lost. -/
theorem unpackFlags_packP (bh bl : Bool) (f : Flags) :
    unpackFlags (packP bh bl f) = { f with bhi := false, blo := false } := by
  simp only [unpackFlags, packP_getLsbD]
  rfl

/-! ### One push, one pull, with the stack page at 0x0100 (R250 to R253) -/

/-- A push as the whole handler answers the state that the push leaves. -/
theorem push_run_eq_next {v : Byte} {s t : State} :
    ((push v s).run fun _ u => u) = .next t ↔ push v s = .ok () t := by
  rw [Res.run_eq_next]
  exact ⟨fun ⟨_, _, hpush, ht⟩ => ht ▸ hpush, fun hpush => ⟨(), t, hpush, rfl⟩⟩

/-- A push leaves every byte but its stack cell as it was, for every stack page. -/
theorem push_same_bytes {v : Byte} {s t : State} (h : push v s = .ok () t) : SameBytesBut (stackCell s) s s t := by
  obtain ⟨_, u, hwrite, hsp⟩ := Res.andThen_eq_ok.mp h
  cases hsp
  have hmove : SameBytes u (u.setSp (u.sp - 1)) := OnlyRegisters.same_bytes rfl
  exact fun c hc => (hmove c).trans (busWrite_same_bytes hwrite c hc)

section StackPage

variable {s : State} (hstack : s.cfg.stackBase = 0x0100)
include hstack

/-- `Push` by RAM cell: the byte goes to the cell of SP. -/
theorem push_cell (v : Byte) :
    push v s = .ok () { s with ram := s.ram.write (0x100 + s.sp.toNat) v, sp := s.sp - 1 } := by
  have hcell : ramIndex (stackCell s) = 0x100 + s.sp.toNat := stackCell_index s.sp hstack
  rw [push_ram v hstack, hcell]
  rfl

theorem exec_pha_cell :
    exec .pha s = .next { s with ram := s.ram.write (0x100 + s.sp.toNat) s.a, sp := s.sp - 1 } :=
  push_run_eq_next.mpr (push_cell hstack s.a)

theorem exec_php_cell :
    exec .php s = .next { s with
      ram := s.ram.write (0x100 + s.sp.toNat) (packP true true s.flags), sp := s.sp - 1 } :=
  push_run_eq_next.mpr (push_cell hstack (packP true true s.flags))

theorem exec_pla_cell :
    exec .pla s = .next (setZN (s.ram.read (0x100 + (s.sp + 1).toNat))
      { s with a := s.ram.read (0x100 + (s.sp + 1).toNat), sp := s.sp + 1 }) := by
  simp only [exec, execPla, pop_cell hstack, Res.run_ok]
  rfl

theorem exec_plp_cell :
    exec .plp s = .next { s with
      sp := s.sp + 1, flags := unpackFlags (s.ram.read (0x100 + (s.sp + 1).toNat)) } := by
  simp only [exec, execPlp, pop_cell hstack, Res.run_ok]
  rfl

/-- Popping a pushed byte gives it back and changes nothing but SP, which it restores. -/
theorem pop_of_push {t : State} {v : Byte} (hi : s.Inv) (hpush : push v s = .ok () t) :
    pop t = .ok v (t.setSp s.sp) := by
  obtain ⟨hram, -⟩ := hi
  rw [push_cell hstack] at hpush
  cases hpush
  rw [pop_cell (by exact hstack)]
  simp only [BitVec.sub_add_cancel, Memory.read_write_eq hram]

theorem exec_pla_of_push {t : State} {v : Byte} (hi : s.Inv) (hpush : push v s = .ok () t) :
    exec .pla t = .next (setZN v ((t.setSp s.sp).setA v)) := by
  simp only [exec, execPla, pop_of_push hstack hi hpush, Res.run_ok]

theorem exec_plp_of_push {t : State} {v : Byte} (hi : s.Inv) (hpush : push v s = .ok () t) :
    exec .plp t = .next (unpackP v (t.setSp s.sp)) := by
  simp only [exec, execPlp, pop_of_push hstack hi hpush, Res.run_ok]

end StackPage

/-- Settles O46: each handler by the RAM cell of its push or pop. -/
theorem pushPullResults : Obligations.PushPullResults := by
  intro s hstack top bit f
  refine ⟨exec_pha_cell hstack, ?pla, ?php, exec_plp_cell hstack⟩
  case pla => rw [exec_pla_cell hstack, setZN_eq_msb]
  case php =>
    have hbyte : packP true true s.flags = BitVec.ofNat 8
        (bit f.n 7 + bit f.v 6 + 0x30 + bit f.d 3 + bit f.i 2 + bit f.z 1 + bit f.c 0) := by
      rw [← BitVec.setWidth_eq (packP true true s.flags), ← BitVec.ofNat_toNat, packP_toNat]
      simp only [bit, f, ite_two_pow_eq, Bool.toNat_true]
      exact congrArg _ (by omega)
    rw [exec_php_cell hstack, hbyte]

/-! ### The status round trip (R261) -/

/-- Settles O48: the pull reads the pushed byte back, and the status byte carries six flags and two set Break bits. -/
theorem statusRoundTripAsymmetry : Obligations.StatusRoundTripAsymmetry := by
  intro s t u hi hstack
  refine ⟨fun hphp hpull => ?php_plp, fun hphp hpull => ?php_pla, fun hpha hpull => ?pha_plp⟩
  case php_plp =>
    cases (exec_plp_of_push hstack hi (push_run_eq_next.mp hphp)).symm.trans hpull
    exact ⟨unpackFlags_packP true true s.flags, rfl⟩
  case php_pla =>
    cases (exec_pla_of_push hstack hi (push_run_eq_next.mp hphp)).symm.trans hpull
    exact ⟨packP_getLsbD true true s.flags 5, packP_getLsbD true true s.flags 4, le_packP_true_true s.flags, rfl⟩
  case pha_plp =>
    cases (exec_plp_of_push hstack hi (push_run_eq_next.mp hpha)).symm.trans hpull
    exact ⟨rfl, rfl, rfl, rfl, rfl, rfl, rfl, rfl⟩

/-! ### The flag instructions (R254 to R260) -/

/-- Settles O49: each handler is a `State.setFlags` with the one flag replaced. -/
theorem flagInstructionResults : Obligations.FlagInstructionResults :=
  fun _ => ⟨rfl, rfl, rfl, rfl, rfl, rfl, rfl⟩

/-! ### NOP, its aliases and the halt (R262, R263, R271) -/

/-- A step over an instruction whose handler does nothing goes on after its last byte. -/
theorem step_of_exec_eq_self {i : Instr} {s t : State} {op : Byte} (hexec : ∀ u, exec i u = .next u)
    (hrun : s.run = .running) (hread : busRead s.pc s = .ok op t) (hdec : decodeOpcode s.cfg.undoc op = some i) :
    step s = .next { t with pc := s.pc + BitVec.ofNat 16 (instrLength i) } := by
  have hlen : 1 + (instrLength i - 1) = instrLength i := Nat.add_sub_cancel' (one_le_instrLength i)
  have hpc : s.pc + 1 + BitVec.ofNat 16 (instrLength i - 1) = s.pc + BitVec.ofNat 16 (instrLength i) :=
    calc
      _ = s.pc + (BitVec.ofNat 16 1 + BitVec.ofNat 16 (instrLength i - 1)) := BitVec.add_assoc ..
      _ = _ := by rw [← BitVec.ofNat_add, hlen]
  rw [step_decoded hrun hread hdec, executeOpcode_next (hexec _), advancePc_target, if_pos rfl, hpc]

/-- The length of each NOP alias by its byte (R271). -/
theorem instrLength_nopAlias : ∀ op ∈ nopAliasBytes,
    instrLength (.nopAlias op) =
      if op ∈ ([0x1A, 0x3A, 0x5A, 0x7A, 0xDA, 0xFA] : List Byte) then 1
      else if op ∈ ([0x0C, 0x1C, 0x3C, 0x5C, 0x7C, 0xDC, 0xFC] : List Byte) then 3 else 2 :=
  List.forall_iff_forall_mem.mp (by decide)

/-- Settles O50: the handlers do nothing, so the step moves PC by the length, which the table gives by the byte. -/
theorem nopAndHaltResults : Obligations.NopAndHaltResults := by
  refine ⟨fun _ => rfl, fun _ _ => rfl, fun _ => rfl, fun s t op hrun hread hdec => ?nop,
    fun s t op hrun hread hdec => ?nopAlias⟩
  case nop => exact step_of_exec_eq_self (i := .nop) (fun _ => rfl) hrun hread hdec
  case nopAlias =>
    intro length
    have hwf : nopAliasBytes.contains op = true := (decodeOpcode_inv hdec).1
    have hlength : instrLength (.nopAlias op) = length := instrLength_nopAlias op (List.contains_iff_mem.mp hwf)
    rw [step_of_exec_eq_self (fun _ => rfl) hrun hread hdec, hlength]

/-! ### Frames -/

/-- Settles O55: a push is its one RAM write, a pull reads RAM and changes registers. -/
theorem pushPullFrames : Obligations.PushPullFrames := by
  intro s t hstack
  refine ⟨fun i hi h => ?push, fun h => ?pla, fun h => ?plp⟩
  case push =>
    obtain ⟨v, hpush⟩ : ∃ v, push v s = .ok () t := by
      simp only [List.mem_cons, List.not_mem_nil, or_false] at hi
      obtain rfl | rfl := hi <;> exact ⟨_, push_run_eq_next.mp h⟩
    refine ⟨?_, push_same_bytes hpush⟩
    cases (push_cell hstack v).symm.trans hpush
    rfl
  case pla =>
    cases (exec_pla_cell hstack).symm.trans h
    exact ⟨rfl, OnlyRegisters.same_bytes rfl⟩
  case plp =>
    cases (exec_plp_cell hstack).symm.trans h
    exact ⟨rfl, OnlyMoves.same_bytes rfl⟩

end Sys2Proof.Machine
end

