-- ==== Sys2Proof/Proofs/UndocumentedResults.lean ====
section
/-! What the combined undocumented instructions answer (`45_undocumented.md` R275 to R280): one read and one write of the
memory operand, then the accumulator operation of `41_arithmetic_logic.md` with the byte written. -/

namespace Sys2Proof.Machine

/-- `Compare` (`41_arithmetic_logic.md` R198) with N as the sign of the difference. -/
theorem compareReg_eq_msb (r m : Byte) (s : State) :
    compareReg r m s = { s with flags := { s.flags with
      c := decide (m.toNat ≤ r.toNat), z := decide (r = m), n := (r - m).msb } } := by
  have hz : decide (r - m = 0) = decide (r = m) := decide_eq_decide.mpr sub_eq_zero
  rw [← hz]
  exact setZN_eq_msb _ _

section Combined

variable {m : Mode} {i : Instr} {s u w t : State} {a : Addr} {v r : Byte} {carry : Bool} {f : Byte → Byte × Bool}

/-- An instruction that shifts its operand by `f` in memory and goes on with the two results of `f` answers that ending,
applied to the byte written and the bit shifted out. -/
theorem exec_shiftThen (k : Byte → Bool → State → State)
    (hexec : exec i s = (modifyOperand m (fun v => (f v).1) s).run fun v t => k (f v).1 (f v).2 t)
    (haddr : addr m s = .ok a u) (hread : busRead a u = .ok v w) (hwrite : busWrite a r w = .ok () t)
    (hf : f v = (r, carry)) : exec i s = .next (k r carry t) := by
  have hbyte : (f v).1 = r := congrArg Prod.fst hf
  rw [hexec, modifyOperand_run_next _ haddr hread (hbyte.symm ▸ hwrite), hf]

/-- A shift in memory followed by a logic operation on A: A is the result, C the bit shifted out, Z and N follow A. -/
theorem exec_shiftThenLogic (op : Byte → Byte → Byte)
    (hexec : exec i s = (modifyOperand m (fun v => (f v).1) s).run fun v t =>
      setZN (op t.a (f v).1) ((setCarry (f v).2 t).setA (op t.a (f v).1)))
    (haddr : addr m s = .ok a u) (hread : busRead a u = .ok v w) (hwrite : busWrite a r w = .ok () t)
    (hf : f v = (r, carry)) :
    exec i s = .next { t with
      a := op t.a r
      flags := { t.flags with c := carry, z := decide (op t.a r = 0), n := (op t.a r).msb } } :=
  exec_setZN (op t.a r) ((setCarry carry t).setA (op t.a r))
    (exec_shiftThen (fun r carry t => setZN (op t.a r) ((setCarry carry t).setA (op t.a r)))
      hexec haddr hread hwrite hf)

end Combined

/-- Settles O40: each is its read-modify-write and then `Compare`, the adder or the logic operation on the byte written; the
rotates take C from the state before the accesses, and RRA adds the bit its rotate shifts out. -/
theorem combinedOperationResults : Obligations.CombinedOperationResults := by
  intro m s u w t a v r haddr hread hwrite
  refine ⟨?dcp, ?isb, ?slo, ?rla, ?sre, ?rra⟩ <;> rintro rfl
  case dcp =>
    exact (modifyOperand_run_next _ haddr hread hwrite).trans (congrArg _ (compareReg_eq_msb t.a (v - 1) t))
  case isb =>
    have hinverse : (v + 1) ^^^ 0xFF = ~~~(v + 1) := BitVec.xor_allOnes
    rw [hinverse]
    exact (modifyOperand_run_next _ haddr hread hwrite).trans (congrArg _ (addWithCarry_eq_sum (~~~(v + 1)) t))
  case slo => exact exec_shiftThenLogic (· ||| ·) rfl haddr hread hwrite (shiftAsl_eq v)
  case rla => exact exec_shiftThenLogic (· &&& ·) rfl haddr hread hwrite (shiftRol_eq s.flags.c v)
  case sre => exact exec_shiftThenLogic (· ^^^ ·) rfl haddr hread hwrite (shiftLsr_eq v)
  case rra =>
    exact (exec_shiftThen (fun r carry t => addWithCarry r (setCarry carry t)) rfl haddr hread hwrite
      (shiftRor_eq s.flags.c v)).trans (congrArg _ (addWithCarry_eq_sum _ _))

end Sys2Proof.Machine
end

