-- ==== Sys2Proof/Proofs/Registration.lean ====
section
/-! The construction of the opcode table (`60_exceptions.md` R309): entry by entry, up to the first byte registered twice. -/

namespace Sys2Proof.Machine

/-- Entries with distinct bytes are registered one after another, whatever follows them. -/
theorem registerTable_append {done es : List Entry} (rest : List Entry)
    (h : (done ++ es).Pairwise fun d e => d.opcode ≠ e.opcode) :
    registerTable done (es ++ rest) = registerTable (done ++ es) rest := by
  induction es generalizing done with
  | nil => rw [List.nil_append, List.append_nil]
  | cons e es ih =>
    have hfresh : ∀ d ∈ done, d.opcode ≠ e.opcode := fun d hd =>
      (List.pairwise_append.mp h).2.2 d hd e List.mem_cons_self
    have hnext : done ++ e :: es = done ++ [e] ++ es := List.append_cons done e es
    rw [hnext] at h ⊢
    rw [List.cons_append, registerTable, if_neg (by simpa using hfresh), ih h]

/-- An entry whose byte is registered already is fatal. -/
theorem registerTable_duplicate {done : List Entry} {e : Entry} (rest : List Entry)
    (h : ∃ d ∈ done, d.opcode = e.opcode) :
    registerTable done (e :: rest) = .error (.duplicateOpcodeRegistration e.opcode) := by
  rw [registerTable, if_pos (by simpa using h)]

theorem registerTable_distinct {es : List Entry} (h : es.Pairwise fun d e => d.opcode ≠ e.opcode) :
    registerTable [] es = .ok es := by
  simpa [registerTable] using registerTable_append (done := []) [] h

theorem tableAt_distinct (level : UndocLevel) : (tableAt level).Pairwise fun d e => d.opcode ≠ e.opcode :=
  (List.pairwise_map.mp opcodeTable_distinct).filter _

/-- Settles O10: the entries before the first repeated byte are registered, and the repeated one is fatal. -/
theorem registrationFailsExactlyOnDuplicates : Obligations.RegistrationFailsExactlyOnDuplicates := by
  refine ⟨fun _ => registerTable_distinct, fun before after e hbefore hdup => ?_,
    fun level => registerTable_distinct (tableAt_distinct level)⟩
  rw [registerTable_append (done := []) (e :: after) hbefore]
  exact registerTable_duplicate after hdup

end Sys2Proof.Machine
end

