-- ==== Sys2Proof/Proofs/Faults.lean ====
section
/-! Which faults a step and a handler can raise, in which order, and what a fault leaves (`60_exceptions.md` R300, R301,
R304). -/

namespace Sys2Proof.Machine

/-! ### What a fault leaves (R301) -/

theorem settle_fault {s : State} {r : Result} {f : Fault} (h : r = .fault f) :
    settle s r = { s with run := .faulted f } := by
  subst h
  rfl

theorem settleRead_fault {s : State} {r : Host.Outcome (Byte × State) Fault Refusal} {f : Fault} (h : r = .fault f) :
    settleRead s r = { s with run := .faulted f } := by
  subst h
  rfl

theorem hostStep_faulted {s : State} {f : Fault} (h : s.run = .faulted f) : hostStep s = s := by
  simp only [hostStep, step, h, settle]

/-- Settles O6: a fault carries no state, so settling it can only record it in the state before the operation. -/
theorem faultCommitsNothing : Obligations.FaultCommitsNothing := by
  intro s f
  exact ⟨settle_fault, settle_fault, fun _ _ => settle_fault, fun _ => settleRead_fault, rfl, hostStep_faulted rfl⟩

/-! ### The faults and refusals of a step -/

theorem executeOpcode_ne_refused (i : Instr) (s : State) (q : Refusal) : executeOpcode i s ≠ .refused q := by
  cases hexec : exec i s with
  | next t => rw [executeOpcode_next hexec]; nofun
  | fault f => rw [executeOpcode_fault hexec]; nofun
  | refused q => exact absurd hexec (exec_ne_refused i s q)

/-- A running machine is never refused a step (`70_reset_and_hazards.md` R333): the fetch, the lookup and the handler each
answer or fault. -/
theorem step_ne_refused {s : State} (hrun : s.run = .running) (q : Refusal) : step s ≠ .refused q := by
  cases hread : busRead s.pc s with
  | fault f => rw [step_fetchFault hrun hread]; nofun
  | ok op t =>
    cases hdec : decodeOpcode s.cfg.undoc op with
    | none => rw [step_unknown hrun hread hdec]; nofun
    | some i => rw [step_decoded hrun hread hdec]; exact executeOpcode_ne_refused i _ q

/-- Settles O17: a Bus access raises codes 3 and 4, an unknown byte code 5. -/
theorem stepFaultsOnlyByAddressRomOrOpcode : Obligations.StepFaultsOnlyByAddressRomOrOpcode := by
  refine fun s => ⟨fun f h => ?_, step_ne_refused⟩
  obtain (haddress | hreadOnly) | ⟨op, rfl⟩ := step_fault h
  · exact .inl haddress
  · exact .inr (.inl hreadOnly)
  · exact .inr (.inr rfl)

/-! ### Handlers without a memory operand -/

theorem Completes.ne_fault {r : Result} (h : Completes r) (f : Fault) : r ≠ .fault f := by
  obtain ⟨t, rfl⟩ := h
  nofun

/-- With the stack page at 0x0100 a well-formed instruction of mode NoneAddressing or Accumulator completes: it works on
registers alone or on stack cells, which lie in RAM. -/
theorem exec_completes_of_noOperand {i : Instr} {s : State} (hstack : s.cfg.stackBase = 0x0100) (hwf : i.wf = true)
    (hmode : instrMode i = .noneAddressing ∨ instrMode i = .accumulator) : Completes (exec i s) := by
  have haccess : accessesOperand i = false := by
    by_contra ha
    obtain ⟨hacc, hnone⟩ := instrMode_of_accessesOperand hwf (Bool.eq_true_of_not_eq_false ha)
    exact hmode.elim hnone hacc
  cases i
  case lda | ldx | ldy | sta | stx | sty | adc | sbc | and | ora | eor | cmp | cpx | cpy | bit | inc | dec
      | sbcAlias | lax | sax | dcp | isb | slo | rla | sre | rra =>
    cases haccess
  case asl | lsr | rol | ror => exact shiftForm_completes fun hm => absurd hm (of_decide_eq_false haccess)
  case bcc | bcs | beq | bne | bmi | bpl | bvc | bvs | jsr => simp [instrMode] at hmode
  case jmp => obtain rfl | rfl := jmp_wf hwf <;> simp [instrMode] at hmode
  case rts => exact ⟨_, exec_rts_cells hstack⟩
  case rti => exact ⟨_, exec_rti_cells hstack⟩
  case pha | php => exact completes_run (push_ram _ hstack) _
  case pla | plp => exact completes_run (pop_ram hstack) _
  case tax | tay | txa | tya | tsx | txs | inx | iny | dex | dey | clc | sec | cli | sei | cld | sed | clv
      | nop | nopAlias | brk =>
    exact completes_next _

/-! ### ReadOnlyViolation (R300, code 4) -/

theorem IsReadFault.not_readOnly {f : Fault} (h : IsReadFault f) : faultCode f ≠ 4 := by
  obtain ⟨a, rfl⟩ | ⟨r, a, rfl⟩ := h <;> simp [faultCode]

/-- The resolver only reads, so it raises no ReadOnlyViolation. -/
theorem addr_fault_not_readOnly {m : Mode} {s : State} {f : Fault} (h : addr m s = .fault f) : faultCode f ≠ 4 := by
  obtain hread | ⟨-, rfl⟩ := addr_fault h
  · exact hread.not_readOnly
  · simp [faultCode]

theorem readOperand_fault_not_readOnly {m : Mode} {s : State} {f : Fault} (h : readOperand m s = .fault f) :
    faultCode f ≠ 4 := by
  obtain haddr | ⟨a, t, -, hread⟩ := Res.andThen_eq_fault.mp h
  · exact addr_fault_not_readOnly haddr
  · exact (busRead_isReadFault hread).not_readOnly

theorem branchIf_eq_fault {cond : Bool} {s : State} {f : Fault} :
    branchIf cond s = .fault f ↔ cond = true ∧ addr .relative s = .fault f := by
  cases cond <;> simp [branchIf, Res.run_eq_fault]

theorem exec_jsr_addr_fault {s : State} {f : Fault} (h : addr .absolute s = .fault f) : exec .jsr s = .fault f := by
  simp only [exec, execJsr, h, Res.andThen_fault, Res.run_fault]

/-- With the stack page at 0x0100 a JSR faults in the resolver or not at all. -/
theorem addr_fault_of_exec_jsr {s : State} {f : Fault} (hstack : s.cfg.stackBase = 0x0100)
    (h : exec .jsr s = .fault f) : addr .absolute s = .fault f := by
  cases haddr : addr .absolute s with
  | ok a t => rw [exec_jsr_cells hstack haddr] at h; cases h
  | fault g => rw [exec_jsr_addr_fault haddr] at h; cases h; rfl

/-- An instruction that does not write memory at its operand reads it, resolves a target, or has no memory operand. -/
theorem exec_fault_not_readOnly {i : Instr} {s : State} {f : Fault} (hstack : s.cfg.stackBase = 0x0100)
    (hw : writesOperand i = false) (h : exec i s = .fault f) : faultCode f ≠ 4 := by
  cases i
  case sta | stx | sty | sax | inc | dec | dcp | isb | slo | rla | sre | rra => cases hw
  case asl m | lsr m | rol m | ror m =>
    obtain rfl : m = .accumulator := not_not.mp (of_decide_eq_false hw)
    exact absurd h ((exec_completes_of_noOperand hstack rfl (.inr rfl)).ne_fault f)
  case lda | ldx | ldy | adc | sbc | and | ora | eor | cmp | cpx | cpy | bit | sbcAlias | lax =>
    exact readOperand_fault_not_readOnly (Res.run_eq_fault.mp h)
  case bcc | bcs | beq | bne | bmi | bpl | bvc | bvs => exact addr_fault_not_readOnly (branchIf_eq_fault.mp h).2
  case jmp => exact addr_fault_not_readOnly (Res.run_eq_fault.mp h)
  case jsr => exact addr_fault_not_readOnly (addr_fault_of_exec_jsr hstack h)
  case nopAlias => cases h
  case rts | rti | pha | pla | php | plp | tax | tay | txa | tya | tsx | txs | inx | iny | dex | dey
      | clc | sec | cli | sei | cld | sed | clv | nop | brk =>
    exact absurd h ((exec_completes_of_noOperand hstack rfl (.inl rfl)).ne_fault f)

/-- Settles O18: what writes no memory operand raises no fault of code 4, and what has no memory operand completes. -/
theorem readOnlyViolationOnlyFromMemoryWriters : Obligations.ReadOnlyViolationOnlyFromMemoryWriters := by
  refine ⟨fun i s hstack hfault => ?_, fun i s f hstack hwf hmode =>
    (exec_completes_of_noOperand hstack hwf hmode).ne_fault f⟩
  by_contra hw
  have hnot {f : Fault} (h : exec i s = .fault f) := exec_fault_not_readOnly hstack (Bool.eq_false_of_not_eq_true hw) h
  obtain ⟨a, h⟩ | ⟨a, h⟩ := hfault <;> exact hnot h rfl

/-! ### The first fault of the accesses (R304) -/

/-- A store writes the byte listed beside it at its operand (`30_encoding.md` R166). -/
theorem exec_store {m : Mode} {s : State} {p : Instr × Byte}
    (hp : p ∈ [(Instr.sta m, s.a), (.stx m, s.x), (.sty m, s.y), (.sax m, s.a &&& s.x)]) :
    exec p.1 s = (writeOperand m p.2 s).run fun _ t => t := by
  simp only [List.mem_cons, List.not_mem_nil, or_false] at hp
  obtain rfl | rfl | rfl | rfl := hp <;> rfl

theorem modifyOperand_read_fault {m : Mode} {s t : State} {a : Addr} {f : Fault} (g : Byte → Byte)
    (haddr : addr m s = .ok a t) (hread : busRead a t = .fault f) : modifyOperand m g s = .fault f := by
  simp only [modifyOperand, haddr, hread, Res.andThen_ok, Res.andThen_fault]

theorem modifyOperand_write_fault {m : Mode} {s t u : State} {a : Addr} {v : Byte} {f : Fault} {g : Byte → Byte}
    (haddr : addr m s = .ok a t) (hread : busRead a t = .ok v u) (hwrite : busWrite a (g v) u = .fault f) :
    modifyOperand m g s = .fault f := by
  simp only [modifyOperand, haddr, hread, hwrite, Res.andThen_ok, Res.andThen_fault]

/-- Settles O19: each handler ends its accesses with `Res.run`, and these stop at the first one that faults. -/
theorem firstFaultOfTheAccessesIsReported : Obligations.FirstFaultOfTheAccessesIsReported := by
  intro m s f reads writes modifies
  have hreads (h : readOperand m s = .fault f) : ∀ i ∈ reads, exec i s = .fault f := fun i hi => by
    obtain ⟨k, hexec, -⟩ := exec_eq_readOperand_run s hi
    rw [hexec, h, Res.run_fault]
  have hwrites : ∀ p ∈ writes, writeOperand m p.2 s = .fault f → exec p.1 s = .fault f := fun p hp h => by
    rw [exec_store hp, h, Res.run_fault]
  have hmodifies (hm : m ≠ .accumulator) (h : ∀ g, modifyOperand m g s = .fault f) :
      ∀ i ∈ modifies, exec i s = .fault f := fun i hi => by
    obtain ⟨g, k, hexec, -⟩ := exec_eq_modifyOperand_run s hm hi
    rw [hexec, h g, Res.run_fault]
  constructor
  · intro haddr
    refine ⟨hreads ?_, fun p hp => hwrites p hp ?_, fun hm => hmodifies hm fun g => ?_, ?jmp, ?jsr, ?branch⟩
    case jmp => exact Res.run_eq_fault.mpr haddr
    case jsr => rintro rfl; exact exec_jsr_addr_fault haddr
    case branch =>
      rintro rfl b hb htaken
      rw [exec_of_mem_branchCond hb]
      exact branchIf_eq_fault.mpr ⟨htaken, haddr⟩
    all_goals exact Res.andThen_eq_fault.mpr (.inl haddr)
  · intro a t haddr
    have hm : m ≠ .accumulator := by rintro rfl; cases haddr
    refine ⟨fun hread => ⟨hreads ?_, hmodifies hm fun g => modifyOperand_read_fault g haddr hread⟩,
      fun p hp hwrite => hwrites p hp ?_,
      fun v u hread hwrite => hmodifies hm fun g => modifyOperand_write_fault haddr hread (hwrite (g v))⟩
    · exact Res.andThen_eq_fault.mpr (.inr ⟨a, t, haddr, hread⟩)
    · exact Res.andThen_eq_fault.mpr (.inr ⟨a, t, haddr, hwrite⟩)

end Sys2Proof.Machine
end

