-- ==== Sys2Proof/Proofs/Reset.lean ====
section
/-! In which run states the host's operations are enabled (`70_reset_and_hazards.md` R333), and Reset by what its two vector
reads answer (R331, R332). -/

namespace Sys2Proof.Machine

/-! ### Enabled and not enabled (R333) -/

/-- The run states in which Reset, Load and the host's memory read are enabled (R333, R339). -/
abbrev HostEnabled (s : State) : Prop := s.run = .powerOn ∨ s.run = .running ∨ s.run = .halted

theorem not_hostEnabled {s : State} : ¬HostEnabled s ↔ s.run = .reset ∨ ∃ f, s.run = .faulted f := by
  unfold HostEnabled
  cases s.run <;> simp

section Enabled

variable {s : State} (hen : HostEnabled s)
include hen

theorem hostReset_enabled : hostReset s = doReset s := by
  obtain h | h | h := hen <;> simp only [hostReset, h]

theorem hostLoad_enabled (base : Addr) (image : List Byte) (hcart : s.cfg.cart = none) :
    hostLoad base image s = (doLoad base image s).run fun _ t => t := by
  obtain h | h | h := hen <;> simp [hostLoad, h, hcart]

theorem hostLoad_cart (base : Addr) (image : List Byte) (hcart : s.cfg.cart ≠ none) :
    hostLoad base image s = .refused .loadWithCartridge := by
  have hsome : s.cfg.cart.isSome = true := Option.isSome_iff_ne_none.mpr hcart
  obtain h | h | h := hen <;> simp only [hostLoad, h, hsome, if_true]

theorem hostRead_enabled_ok {a : Addr} {v : Byte} {t : State} (hread : busRead a s = .ok v t) :
    hostRead a s = .next (v, t) := by
  obtain h | h | h := hen <;> simp only [hostRead, h, hread]

theorem hostRead_enabled_fault {a : Addr} {f : Fault} (hread : busRead a s = .fault f) : hostRead a s = .fault f := by
  obtain h | h | h := hen <;> simp only [hostRead, h, hread]

end Enabled

section NotEnabled

variable {s : State} (hen : ¬HostEnabled s)
include hen

theorem hostReset_notEnabled : hostReset s = .refused (.notEnabled .reset s.run) := by
  obtain h | ⟨f, h⟩ := not_hostEnabled.mp hen <;> simp only [hostReset, h]

theorem hostLoad_notEnabled (base : Addr) (image : List Byte) :
    hostLoad base image s = .refused (.notEnabled .load s.run) := by
  obtain h | ⟨f, h⟩ := not_hostEnabled.mp hen <;> simp only [hostLoad, h]

theorem hostRead_notEnabled (a : Addr) : hostRead a s = .refused (.notEnabled .memoryRead s.run) := by
  obtain h | ⟨f, h⟩ := not_hostEnabled.mp hen <;> simp only [hostRead, h]

end NotEnabled

/-! ### The vector (R331, R332) -/

/-- With a cartridge and the vector at 0xFFFC, the vector is read from PRG-ROM, at offset 0x3FFC of a 16 KB bank, which is
mirrored, and at 0x7FFC otherwise (`20_memory.md` R67), and nothing changes by it. -/
theorem readVector_prg {s : State} {c : Cartridge} {lo hi : Byte} (hvec : s.cfg.resetVector = 0xFFFC)
    (hcart : s.cfg.cart = some c) (hlo : c.prg[if c.prg.length = 16384 then 0x3FFC else 0x7FFC]? = some lo)
    (hhi : c.prg[if c.prg.length = 16384 then 0x3FFD else 0x7FFD]? = some hi) : readVector s = .ok (hiLo hi lo) s := by
  have hreadLo : busRead 0xFFFC s = .ok lo s := (busRead_cart (by decide) hcart).trans (prgRead_some s hlo)
  have hreadHi : busRead (0xFFFC + 1) s = .ok hi s := (busRead_cart (by decide) hcart).trans (prgRead_some s hhi)
  rw [readVector, hvec, hreadLo, Res.andThen_ok, hreadHi, Res.andThen_ok]

theorem readVector_emptyPrg {s : State} {c : Cartridge} (hvec : s.cfg.resetVector = 0xFFFC) (hcart : s.cfg.cart = some c)
    (hprg : c.prg = []) : readVector s = .fault (.addressCpu 0xFFFC .read) := by
  have hread : busRead 0xFFFC s = .fault (.addressCpu 0xFFFC .read) :=
    (busRead_cart (by decide) hcart).trans (prgRead_none s (by rw [hprg]; exact Nat.zero_le _))
  rw [readVector, hvec, hread, Res.andThen_fault]

/-- Reset zeroes the CPU, reads the vector and starts there. -/
theorem hostReset_vector {s u : State} {v : Addr} (hen : HostEnabled s) (h : readVector (zeroCpu s) = .ok v u) :
    hostReset s = .next ((u.setPc v).setRun .running) := by
  rw [hostReset_enabled hen, doReset, h, Res.run_ok]

theorem hostReset_fault {s : State} {f : Fault} (hen : HostEnabled s) (h : readVector (zeroCpu s) = .fault f) :
    hostReset s = .fault f := by
  rw [hostReset_enabled hen, doReset, h, Res.run_fault]

/-- Without a cartridge and with the vector at 0xFFFC, Reset starts at the address in the two RV cells. -/
theorem hostReset_rv {s : State} (hen : HostEnabled s) (hcart : s.cfg.cart = none) (hvec : s.cfg.resetVector = 0xFFFC) :
    hostReset s = .next (((zeroCpu s).setPc (hiLo s.rv1 s.rv0)).setRun .running) :=
  hostReset_vector hen (readVector_rv hcart hvec)

/-- Settles O1: the two reads of the vector from the zeroed state decide, and where the vector cells or PRG-ROM answer them
they change nothing. -/
theorem resetZeroesCpuAndLoadsVector : Obligations.ResetZeroesCpuAndLoadsVector := by
  intro s hen
  refine ⟨fun lo hi t u hlo hhi => ?ok, fun f hread => ?fault, fun hvec =>
    ⟨fun hcart => ?cells, fun c lo hi hcart hlo hhi => ?prg, fun c hcart hprg => ?empty⟩⟩
  case ok =>
    have hvector : readVector (zeroCpu s) = .ok (hiLo hi lo) u :=
      Res.andThen_eq_ok.mpr ⟨lo, t, hlo, Res.andThen_eq_ok.mpr ⟨hi, u, hhi, rfl⟩⟩
    exact hostReset_vector hen hvector
  case fault =>
    have hvector : readVector (zeroCpu s) = .fault f := by
      obtain hlo | ⟨lo, t, hlo, hhi⟩ := hread
      · exact Res.andThen_eq_fault.mpr (.inl hlo)
      · exact Res.andThen_eq_fault.mpr (.inr ⟨lo, t, hlo, Res.andThen_eq_fault.mpr (.inl hhi)⟩)
    have hreset := hostReset_fault hen hvector
    exact ⟨hreset, settle_fault hreset⟩
  case cells => exact hostReset_rv hen hcart hvec
  case prg => exact hostReset_vector hen (readVector_prg hvec hcart hlo hhi)
  case empty => exact settle_fault (hostReset_fault hen (readVector_emptyPrg hvec hcart hprg))

end Sys2Proof.Machine
end

