-- ==== Sys2Proof/Proofs/RunStates.lean ====
section
/-! The run state under each operation of the host surface (`70_reset_and_hazards.md` R333): no Bus access and no handler but
the halt's touches it. -/

namespace Sys2Proof.Machine

/-! ### Accesses -/

theorem OnlyReads.keeps_run {s t : State} (h : OnlyReads s t) : t.run = s.run := by rw [h]

theorem OnlyStores.keeps_run {s t : State} (h : OnlyStores s t) : t.run = s.run := by rw [h]

theorem writeOperand_keeps_run {m : Mode} {v : Byte} {s t : State} (h : writeOperand m v s = .ok () t) : t.run = s.run := by
  obtain ⟨a, u, haddr, hwrite⟩ := writeOperand_eq_ok.mp h
  exact (busWrite_onlyStores hwrite).keeps_run.trans (addr_onlyReads haddr).keeps_run

theorem modifyOperand_keeps_run {m : Mode} {f : Byte → Byte} {v : Byte} {s t : State}
    (h : modifyOperand m f s = .ok v t) : t.run = s.run := by
  obtain ⟨a, u, w, haddr, hread, hwrite⟩ := modifyOperand_eq_ok.mp h
  exact (busWrite_onlyStores hwrite).keeps_run.trans ((addr_onlyReads haddr).trans (busRead_onlyReads hread)).keeps_run

theorem push_keeps_run {v : Byte} {s t : State} (h : push v s = .ok () t) : t.run = s.run := by
  have hstores := (push_onlyStores h).keeps_run
  exact hstores

theorem push16_keeps_run {v : Addr} {s t : State} (h : push16 v s = .ok () t) : t.run = s.run := by
  obtain ⟨_, u, hhigh, hlow⟩ := Res.andThen_eq_ok.mp h
  exact (push_keeps_run hlow).trans (push_keeps_run hhigh)

/-! ### Handlers and the step -/

/-- A handler keeps the run state if its accesses and its ending do. -/
theorem Res.run_keeps_run {α : Type} {r : Res α} {k : α → State → State} {s t : State} (h : r.run k = .next t)
    (hr : ∀ {v u}, r = .ok v u → u.run = s.run) (hk : ∀ v u, (k v u).run = u.run) : t.run = s.run := by
  obtain ⟨v, u, hok, rfl⟩ := Res.run_eq_next.mp h
  exact (hk v u).trans (hr hok)

theorem shiftForm_keeps_run {m : Mode} {f : Byte → Byte × Bool} {s t : State} (h : shiftForm m f s = .next t) :
    t.run = s.run := by
  unfold shiftForm at h
  split at h
  · cases h; rfl
  · exact Res.run_keeps_run h modifyOperand_keeps_run (fun _ _ => rfl)

/-- Every instruction but the halt leaves the run state as it was. -/
theorem exec_keeps_run {i : Instr} {s t : State} (hi : i ≠ .brk) (h : exec i s = .next t) : t.run = s.run := by
  cases i
  case brk => exact absurd rfl hi
  case lda | ldx | ldy | adc | sbc | and | ora | eor | cmp | cpx | cpy | bit | sbcAlias | lax =>
    obtain ⟨v, p, b, rfl⟩ := readOperand_run_eq h
    rfl
  case sta | stx | sty | sax => exact Res.run_keeps_run h writeOperand_keeps_run (fun _ _ => rfl)
  case inc | dec | dcp | isb | slo | rla | sre | rra =>
    exact Res.run_keeps_run h modifyOperand_keeps_run (fun _ _ => rfl)
  case asl | lsr | rol | ror => exact shiftForm_keeps_run h
  case bcc | bcs | beq | bne | bmi | bpl | bvc | bvs =>
    obtain ⟨pc, p, b, rfl⟩ := branchIf_next h
    rfl
  case jmp =>
    obtain ⟨pc, p, b, rfl⟩ := addr_run_setPc_next h
    rfl
  case jsr =>
    obtain ⟨a, u, w, haddr, hpush, rfl⟩ := exec_jsr_eq_next.mp h
    exact (push16_keeps_run hpush).trans (addr_onlyReads haddr).keeps_run
  case rts =>
    obtain ⟨pc, p, b, rfl⟩ := exec_rts_next h
    rfl
  case rti =>
    obtain ⟨pc, sp, f, p, b, rfl⟩ := exec_rti_next h
    rfl
  case pha | php => exact Res.run_keeps_run h push_keeps_run (fun _ _ => rfl)
  case pla | plp => exact Res.run_keeps_run h (fun hok => (pop_onlyReads hok).keeps_run) (fun _ _ => rfl)
  case tax | tay | txa | tya | tsx | txs | inx | iny | dex | dey | clc | sec | cli | sei | cld | sed | clv | nop | nopAlias =>
    cases h; rfl

theorem advancePc_keeps_run (i : Instr) (pc : Addr) (s : State) : (advancePc i pc s).run = s.run := by
  unfold advancePc
  split <;> rfl

/-- Only the byte 0x00 selects the halt. -/
theorem opcode_of_decodeOpcode_brk {level : UndocLevel} {op : Byte} (h : decodeOpcode level op = some .brk) : op = 0x00 := by
  obtain ⟨-, hop, -⟩ := decodeOpcode_inv h
  exact (Option.some.inj hop).symm

/-- A step that answers a next state read a byte at PC, and halts exactly when that byte is 0x00 (R333). -/
theorem step_next_run {s t : State} (h : step s = .next t) :
    s.run = .running ∧ ∃ op u, busRead s.pc s = .ok op u ∧ t.run = if op = 0x00 then .halted else .running := by
  obtain ⟨hrun, op, w, i, x, hfetch, hdec, hexec, rfl⟩ := step_eq_next.mp h
  obtain ⟨_, u, hread, hw⟩ := Res.andThen_eq_ok.mp hfetch
  cases hw
  refine ⟨hrun, op, u, hread, ?_⟩
  rw [advancePc_keeps_run]
  split
  · next hop =>
    subst hop
    cases hdec
    cases hexec
    rfl
  · next hop =>
    have hi : i ≠ .brk := by rintro rfl; exact hop (opcode_of_decodeOpcode_brk hdec)
    exact (exec_keeps_run hi hexec).trans ((busRead_onlyReads hread).keeps_run.trans hrun)

theorem step_notEnabled {s : State} (hrun : s.run ≠ .running) : step s = .refused (.notEnabled .step s.run) := by
  cases h : s.run with
  | running => exact absurd h hrun
  | powerOn | reset | halted | faulted => simp only [step, h]

/-! ### Reset, Load and the host's read -/

theorem hostReset_next_run {s t : State} (h : hostReset s = .next t) : HostEnabled s ∧ t.run = .running := by
  by_cases hen : HostEnabled s
  · rw [hostReset_enabled hen] at h
    obtain ⟨v, u, -, rfl⟩ := Res.run_eq_next.mp h
    exact ⟨hen, rfl⟩
  · rw [hostReset_notEnabled hen] at h
    cases h

theorem writeImage_keeps_run {image : List Byte} {a : Addr} {s t : State} (h : writeImage image a s = .ok () t) :
    t.run = s.run := by
  induction image generalizing a s with
  | nil => cases h; rfl
  | cons b rest ih =>
    obtain ⟨_, u, hwrite, hrest⟩ := Res.andThen_eq_ok.mp h
    exact (ih hrest).trans (busWrite_onlyStores hwrite).keeps_run

theorem doLoad_keeps_run {base : Addr} {image : List Byte} {s t : State} (h : doLoad base image s = .ok () t) :
    t.run = s.run := by
  obtain ⟨_, u, himage, hvector⟩ := Res.andThen_eq_ok.mp h
  obtain ⟨_, w, hlow, hhigh⟩ := Res.andThen_eq_ok.mp hvector
  calc
    t.run = w.run := (busWrite_onlyStores hhigh).keeps_run
    _ = u.run := (busWrite_onlyStores hlow).keeps_run
    _ = s.run := writeImage_keeps_run himage

theorem hostLoad_next_run {base : Addr} {image : List Byte} {s t : State} (h : hostLoad base image s = .next t) :
    HostEnabled s ∧ t.run = s.run := by
  by_cases hen : HostEnabled s
  · by_cases hcart : s.cfg.cart = none
    · rw [hostLoad_enabled hen base image hcart] at h
      obtain ⟨_, u, hload, rfl⟩ := Res.run_eq_next.mp h
      exact ⟨hen, doLoad_keeps_run hload⟩
    · rw [hostLoad_cart hen base image hcart] at h
      cases h
  · rw [hostLoad_notEnabled hen] at h
    cases h

theorem hostRead_next_run {a : Addr} {v : Byte} {s t : State} (h : hostRead a s = .next (v, t)) :
    HostEnabled s ∧ t.run = s.run := by
  by_cases hen : HostEnabled s
  · cases hread : busRead a s with
    | fault f => rw [hostRead_enabled_fault hen hread] at h; cases h
    | ok b u =>
      rw [hostRead_enabled_ok hen hread] at h
      cases h
      exact ⟨hen, (busRead_onlyReads hread).keeps_run⟩
  · rw [hostRead_notEnabled hen] at h
    cases h

theorem hostRead_ne_refused {s : State} (hen : HostEnabled s) (a : Addr) (q : Refusal) : hostRead a s ≠ .refused q := by
  cases hread : busRead a s with
  | fault f => rw [hostRead_enabled_fault hen hread]; nofun
  | ok v t => rw [hostRead_enabled_ok hen hread]; nofun

/-- Settles O5: each operation is one of the model's where it is enabled and a refusal elsewhere; of all they do only the halt
and Reset write the run state, and a fault leaves what `settle` records. -/
theorem runStateTransitionsAreTheList : Obligations.RunStateTransitionsAreTheList := by
  intro s
  refine ⟨fun t => hostReset_next_run, fun _ _ t => hostLoad_next_run, fun _ _ t => hostRead_next_run, fun t h => ?step,
    fun f h => ⟨?stepFault, settle_fault h⟩, fun _ => settle_fault, fun _ _ _ => settle_fault, fun _ _ => settleRead_fault,
    fun hen q => ⟨?reset, fun hcart base image => ?load, fun a => hostRead_ne_refused hen a q⟩,
    step_ne_refused, step_notEnabled, fun f hrun => ?faulted⟩
  case step =>
    obtain ⟨hrun, op, u, hread, ht⟩ := step_next_run h
    refine ⟨hrun, ?_⟩
    by_cases hop : op = 0x00
    · subst hop
      exact .inl ⟨⟨u, hread⟩, ht, if_pos ht⟩
    · rw [if_neg hop] at ht
      have hne : ¬∃ w, busRead s.pc s = .ok 0x00 w := by
        rintro ⟨w, hzero⟩
        cases hread.symm.trans hzero
        exact hop rfl
      exact .inr ⟨hne, ht, if_neg (by rw [ht]; nofun)⟩
  case stepFault =>
    by_contra hrun
    rw [step_notEnabled hrun] at h
    cases h
  case reset => rw [hostReset_enabled hen]; exact Res.run_ne_refused _ _ q
  case load => rw [hostLoad_enabled hen base image hcart]; exact Res.run_ne_refused _ _ q
  case faulted =>
    have hen : ¬HostEnabled s := not_hostEnabled.mpr (.inr ⟨f, hrun⟩)
    exact ⟨hostReset_notEnabled hen, hostLoad_notEnabled hen, hostRead_notEnabled hen⟩

end Sys2Proof.Machine
end

