-- ==== Sys2Proof/Proofs/LoadImage.lean ====
section
/-! Load, then Reset (`70_reset_and_hazards.md` R336, `20_memory.md` R64, R106): an image that lies in RAM goes byte by byte to
RAM cells, no two of its bytes to the same one when there are at most 2048 of them. -/

namespace Sys2Proof.Machine

/-! ### The image in the RAM store -/

/-- The RAM store after `image` is written to the cells of ascending addresses from `n` (`20_memory.md` R64). -/
def Memory.writeImage : List Byte → Nat → Memory → Memory
  | [], _, m => m
  | b :: rest, n, m => Memory.writeImage rest (n + 1) (m.write (n % 0x800) b)

/-- An image that lies in the RAM window is written to the RAM store and nowhere else. -/
theorem writeImage_inRam {image : List Byte} {a : Addr} {s : State} (h : a.toNat + image.length ≤ 0x2000) :
    writeImage image a s = .ok () (s.setRam (s.ram.writeImage image a.toNat)) := by
  induction image generalizing a s with
  | nil => rfl
  | cons b rest ih =>
    rw [List.length_cons] at h
    have ha : InRam a := by omega
    have hnext : (a + 1).toNat = a.toNat + 1 := by bv_omega
    rw [writeImage, busWrite_inRam b s ha, Res.andThen_ok, ih (by omega), ramWrite, ramIndex_eq, hnext]
    rfl

/-- A cell that is none of the image's keeps its byte. -/
theorem Memory.read_writeImage_other {image : List Byte} {n j : Nat} {m : Memory}
    (hj : ∀ k < image.length, (n + k) % 0x800 ≠ j) : (m.writeImage image n).read j = m.read j := by
  induction image generalizing n m with
  | nil => rfl
  | cons b rest ih =>
    have hrest : ∀ k < rest.length, (n + 1 + k) % 0x800 ≠ j := fun k hk => by
      rw [Nat.add_right_comm]
      exact hj (k + 1) (Nat.succ_lt_succ hk)
    have hfirst : j ≠ n % 0x800 := (hj 0 (Nat.succ_pos _)).symm
    rw [Memory.writeImage, ih hrest, Memory.read_write_ne m hfirst]

/-- An image of at most 2048 bytes does not wrap onto itself, so each of its cells holds its byte. -/
theorem Memory.read_writeImage {image : List Byte} {n k : Nat} {m : Memory} (hm : m.wf 0x800 = true)
    (hlen : image.length ≤ 0x800) (hk : k < image.length) :
    (m.writeImage image n).read ((n + k) % 0x800) = image[k] := by
  induction image generalizing n k m with
  | nil => cases hk
  | cons b rest ih =>
    rw [List.length_cons] at hlen hk
    rw [Memory.writeImage]
    cases k with
    | zero =>
      have hother : ∀ j < rest.length, (n + 1 + j) % 0x800 ≠ (n + 0) % 0x800 := by omega
      rw [Memory.read_writeImage_other hother]
      exact Memory.read_write_eq hm
    | succ k =>
      have hcell : n + (k + 1) = n + 1 + k := by omega
      rw [hcell]
      exact ih (Memory.write_wf hm (Nat.mod_lt n (by decide))) (by omega) (by omega)

/-! ### Load and Reset -/

section VectorCells

variable {s : State} (v : Byte) (hcart : s.cfg.cart = none) (hvec : s.cfg.resetVector = 0xFFFC)
include hcart hvec

theorem busWrite_rv0 : busWrite 0xFFFC v s = .ok () (s.setRv0 v) := by
  rw [busWrite_noCart v (by decide) hcart, vectorWrite, hvec, if_pos rfl]

theorem busWrite_rv1 : busWrite (0xFFFC + 1) v s = .ok () (s.setRv1 v) := by
  rw [busWrite_noCart v (by decide) hcart, vectorWrite, hvec, if_neg (addr_add_one_ne _), if_pos rfl]

end VectorCells

/-- Without a cartridge and with the vector at 0xFFFC, Load writes the image to RAM and the load base to the two RV cells
(R336, `20_memory.md` R69). -/
theorem hostLoad_inRam {base : Addr} {image : List Byte} {s : State} (hen : HostEnabled s) (hcart : s.cfg.cart = none)
    (hvec : s.cfg.resetVector = 0xFFFC) (h : base.toNat + image.length ≤ 0x2000) :
    hostLoad base image s =
      .next { s with ram := s.ram.writeImage image base.toNat, rv0 := lowByte base, rv1 := highByte base } := by
  have hlow := busWrite_rv0 (s := s.setRam (s.ram.writeImage image base.toNat)) (lowByte base) hcart hvec
  have hhigh := busWrite_rv1 (s := (s.setRam (s.ram.writeImage image base.toNat)).setRv0 (lowByte base)) (highByte base)
    hcart hvec
  rw [hostLoad_enabled hen base image hcart, doLoad, writeImage_inRam h, Res.andThen_ok, State.setRam_cfg, hvec, hlow,
    Res.andThen_ok, State.setRv0_cfg, State.setRam_cfg, hvec, hhigh, Res.run_ok]
  rfl

/-- Settles O56: Load writes the RAM store and the vector cells, Reset reads the load base back from these and leaves RAM as it
is. -/
theorem loadThenResetStartsTheImage : Obligations.LoadThenResetStartsTheImage := by
  intro s base image ⟨hram, _⟩ hrun hcart hvec hfit hlen
  refine ⟨_, _, hostLoad_inRam (.inl hrun) hcart hvec hfit, hostReset_rv (.inl hrun) hcart hvec, rfl,
    hiLo_highByte_lowByte base, rfl, fun k hk => ?_⟩
  have haddr : (base + BitVec.ofNat 16 k).toNat = base.toNat + k := by
    rw [BitVec.toNat_add, BitVec.toNat_ofNat]
    omega
  have hin : InRam (base + BitVec.ofNat 16 k) := by omega
  rw [busRead_inRam _ hin, ramRead, ramIndex_eq, haddr]
  exact congrArg (Res.ok · _) (Memory.read_writeImage hram hlen hk)

end Sys2Proof.Machine
end
